-- ==== Sys2Proof/Word.lean ====
section
/-! DEFINITION. The widths of the core's words (00_scope.md R10, R11). -/

namespace Sys2Proof

/-- An operation word: 32 bits (R10, R90). -/
abbrev Word := BitVec 32

/-- A time field, a display byte or an operand byte: 8 bits (R10). -/
abbrev Byte := BitVec 8

/-- A display nibble on DB7..DB4: 4 bits (R10). -/
abbrev Nibble := BitVec 4

end Sys2Proof
end

