-- ==== Sys2Proof/Config.lean ====
section
/-! DEFINITION. What an implementation fixes (the parameters of 00_scope.md R9), what one clock edge receives
from outside (20_memory.md R61, R76), and the two families of free values of the model. -/

namespace Sys2Proof

/-- The implementation parameters of 00_scope.md R9, each under its own name. Durations are exact rational numbers of
nanoseconds and `fClk` one of Hz (log 5). `CMD_CLEAR` is fixed by the source and is `Config.cmdClear`. -/
structure Params where
  /-- `F_CLK`, frequency of `clk` in Hz. -/
  fClk : Rat
  /-- `TICK_DIV`, interrupts per second. -/
  tickDiv : Nat
  /-- `TICKCNT_W`, width of the tick counter in bits. -/
  tickCntW : Nat
  /-- `T_EW`, strobe assert width. -/
  tEw : Rat
  /-- `T_EH`, hold after strobe deassert. -/
  tEh : Rat
  /-- `T_SU`, set-up before the strobe; with 0 there is no set-up step (40_display.md R122). -/
  tSu : Rat
  /-- `T_BYTE`, settle delay after each full byte. -/
  tByte : Rat
  /-- `T_DEB`, debounce settle duration. -/
  tDeb : Rat
  /-- `T_INIT1`, wait after the first 8-bit-mode pulse. -/
  tInit1 : Rat
  /-- `T_INIT2`, wait after the second. -/
  tInit2 : Rat
  /-- `T_INIT3`, wait after the third. -/
  tInit3 : Rat
  /-- `T_INIT4`, wait after the switch to 4-bit mode. -/
  tInit4 : Rat
  /-- `NIB_8BIT`, data nibble of an 8-bit-mode pulse. -/
  nib8bit : Nibble
  /-- `NIB_4BIT`, data nibble of the switch-to-4-bit pulse. -/
  nib4bit : Nibble
  /-- `CMD_FUNCSET`. -/
  cmdFuncset : Byte
  /-- `CMD_DISPON`. -/
  cmdDispon : Byte
  /-- `CMD_HOME`. -/
  cmdHome : Byte
  /-- `CMD_LINE1`. -/
  cmdLine1 : Byte
  /-- `CMD_LINE2`. -/
  cmdLine2 : Byte
  /-- `STR_TERM`, the terminator of `write_string`; used by the host's expansion only. -/
  strTerm : Byte
  deriving DecidableEq, Repr, Inhabited

/-- The constraints of R9's last column. -/
def Params.valid (p : Params) : Bool :=
  decide (0 < p.fClk ∧ 1 ≤ p.tickDiv ∧ p.tickDiv < 2 ^ p.tickCntW ∧ 230 ≤ p.tEw ∧ 10 ≤ p.tEh ∧ 0 ≤ p.tSu ∧
    0 < p.tByte ∧ 0 < p.tDeb ∧ p.tInit2 < p.tInit1 ∧ p.tInit3 < p.tInit2 ∧ 0 < p.tInit3 ∧ 0 < p.tInit4)

/-- What the core receives at one rising edge of `clk`: the input ports of 20_memory.md R61, sampled at that
edge, and `fgGo`, whether the foreground engine takes a micro-step at it. `fgGo` is how the model leaves the
length of a micro-step open (00_scope.md R13: "a model must treat both as lower bounds"; log 3). -/
structure EdgeIn where
  /-- `rst`, active high. -/
  rst : Bool
  /-- `tick`, a pulse of the external timer. -/
  tick : Bool
  /-- `btn_confirm_n`, active low: `false` is pressed. -/
  btnConfirmN : Bool
  /-- `btn_increment_n`, active low. -/
  btnIncrementN : Bool
  /-- `op_valid`, the host presents a word. -/
  opValid : Bool
  /-- `op_word`. -/
  opWord : Word
  /-- The foreground engine takes its micro-step at this edge. -/
  fgGo : Bool
  deriving DecidableEq, Repr, Inhabited

/-- Two unconstrained numbers, from which every non-negative and every positive rational number can be made. -/
structure OpenRatio where
  num : Nat
  den : Nat
  deriving DecidableEq, Repr, Inhabited

/-- Any rational number that is not negative. -/
def OpenRatio.nonneg (x : OpenRatio) : Rat := mkRat x.num (x.den + 1)

/-- Any positive rational number. -/
def OpenRatio.pos (x : OpenRatio) : Rat := mkRat (x.num + 1) (x.den + 1)

/-- Unconstrained data from which every valid parameter set can be made (`Params.ofOpen`). -/
structure OpenParams where
  fClk : OpenRatio
  tickDiv : Nat
  tickCntW : Nat
  tEw : OpenRatio
  tEh : OpenRatio
  tSu : OpenRatio
  tByte : OpenRatio
  tDeb : OpenRatio
  tInit1 : OpenRatio
  tInit2 : OpenRatio
  tInit3 : OpenRatio
  tInit4 : OpenRatio
  nib8bit : Nibble
  nib4bit : Nibble
  cmdFuncset : Byte
  cmdDispon : Byte
  cmdHome : Byte
  cmdLine1 : Byte
  cmdLine2 : Byte
  strTerm : Byte
  deriving DecidableEq, Repr, Inhabited

/-- The valid parameter set made of arbitrary data: each number is taken as its excess over R9's bound. -/
def Params.ofOpen (o : OpenParams) : Params where
  fClk := o.fClk.pos
  tickDiv := o.tickDiv + 1
  tickCntW := Nat.log2 (o.tickDiv + 1) + 1 + o.tickCntW
  tEw := 230 + o.tEw.nonneg
  tEh := 10 + o.tEh.nonneg
  tSu := o.tSu.nonneg
  tByte := o.tByte.pos
  tDeb := o.tDeb.pos
  tInit1 := o.tInit3.pos + o.tInit2.pos + o.tInit1.pos
  tInit2 := o.tInit3.pos + o.tInit2.pos
  tInit3 := o.tInit3.pos
  tInit4 := o.tInit4.pos
  nib8bit := o.nib8bit
  nib4bit := o.nib4bit
  cmdFuncset := o.cmdFuncset
  cmdDispon := o.cmdDispon
  cmdHome := o.cmdHome
  cmdLine1 := o.cmdLine1
  cmdLine2 := o.cmdLine2
  strTerm := o.strTerm

/-- FREE VALUE (log 4): the numbers behind the parameters of the machine after reset. Nothing says what they are. -/
opaque Config.openParams : OpenParams

/-- FREE VALUE (log 2): what the environment and the host drive at clock edge number `n`, once the listed
inputs of a state are used up. Nothing says what they are (20_memory.md R76, "a free draw ... under no law"). -/
opaque Config.env : Nat → EdgeIn

/-- The parameters of the machine after reset: free within R9's constraints (log 4). -/
def Config.params : Params := Params.ofOpen Config.openParams

/-- `CMD_CLEAR`, the one command byte the source fixes (R9, R98). -/
def Config.cmdClear : Byte := 0x01#8

/-- The defaults R9 recommends, for a given `F_CLK` and `TICK_DIV` (R9 leaves both OPEN). No rule depends on
them; they serve the spec's worked examples. `T_SU` is one `clk` period, exactly. -/
def Config.defaults (fClk : Rat) (tickDiv : Nat) : Params where
  fClk := fClk
  tickDiv := tickDiv
  tickCntW := Nat.log2 tickDiv + 1
  tEw := 1000
  tEh := 100
  tSu := 1000000000 / fClk
  tByte := 2000000
  tDeb := 50000000
  tInit1 := 4100000
  tInit2 := 100000
  tInit3 := 40000
  tInit4 := 40000
  nib8bit := 0x3#4
  nib4bit := 0x2#4
  cmdFuncset := 0x28#8
  cmdDispon := 0x0E#8
  cmdHome := 0x02#8
  cmdLine1 := 0x80#8
  cmdLine2 := 0xC0#8
  strTerm := 0x00#8

end Sys2Proof
end

