-- ==== Sys2Proof/Syntax.lean ====
section
/-! DEFINITION. The operations a host can request: one constructor per row of spec/opcode_table.json
(30_encoding.md R92). -/

namespace Sys2Proof

/-- The record a wizard edits (30_encoding.md R97): operand `t` of CFGENT, and `cfg_target`. -/
inductive Target where
  /-- code 0: the set-time wizard -/
  | clock
  /-- code 1: the set-alarm wizard -/
  | alarm
  deriving DecidableEq, Repr

/-- The operations of R92. The word `0x8` has one row, and one constructor, per line number. -/
inductive Instr where
  /-- TSTART, "start the tick source" (R165) -/
  | tstart
  /-- CFGENT t, enter the set-time or set-alarm wizard (R210) -/
  | cfgent (t : Target)
  /-- POLL, one call of the debounce logic (R202) -/
  | poll
  /-- LINIT, `initialize()` (R125) -/
  | linit
  /-- WCMD b, `write_command(byte)` (R126) -/
  | wcmd (b : Byte)
  /-- WDAT b, `write_data(byte)` (R127) -/
  | wdat (b : Byte)
  /-- LCLR, `clear()` (R128) -/
  | lclr
  /-- GOTO 1, `go_to_line(1)` (R129) -/
  | goto1
  /-- GOTO 2, `go_to_line(2)` (R129) -/
  | goto2
  /-- WTIME h, m, s, `write_time(hour, minute, second)` (R130) -/
  | wtime (h m s : Byte)
  deriving DecidableEq, Repr

end Sys2Proof
end

