-- ==== Sys2Proof/WellFormed.lean ====
section
/-! DEFINITION. What makes an instruction, and an operation word, well-formed (30_encoding.md R90 to R93). -/

namespace Sys2Proof

/-- A row of R92's table: a word `w` selects the row when `w & mask = pattern`. -/
structure TableRow where
  mnemonic : String
  mask : Word
  pattern : Word
  deriving DecidableEq, Repr

/-- R92's table, row by row. -/
def operationMap : List TableRow :=
  [ ⟨"TSTART", 0xFFFFFFFF#32, 0x10000000#32⟩,
    ⟨"CFGENT", 0xFFFFFFFE#32, 0x20000000#32⟩,
    ⟨"POLL", 0xFFFFFFFF#32, 0x30000000#32⟩,
    ⟨"LINIT", 0xFFFFFFFF#32, 0x40000000#32⟩,
    ⟨"WCMD", 0xFFFFFF00#32, 0x50000000#32⟩,
    ⟨"WDAT", 0xFFFFFF00#32, 0x60000000#32⟩,
    ⟨"LCLR", 0xFFFFFFFF#32, 0x70000000#32⟩,
    ⟨"GOTO_1", 0xFFFFFFFF#32, 0x80000001#32⟩,
    ⟨"GOTO_2", 0xFFFFFFFF#32, 0x80000002#32⟩,
    ⟨"WTIME", 0xFF000000#32, 0x90000000#32⟩ ]

/-- The word selects the row (R92). -/
def TableRow.selects (r : TableRow) (w : Word) : Bool := (w &&& r.mask) == r.pattern

/-- A word is well-formed when it matches some row; every other word is reserved (R93). -/
def wordWellFormed (w : Word) : Bool := operationMap.any (fun r => r.selects w)

/-- Two rows overlap on no word when their patterns differ in a bit both of them fix ("Rows do not overlap", R92). -/
def TableRow.disjoint (r q : TableRow) : Bool := (r.pattern ^^^ q.pattern) &&& r.mask &&& q.mask != 0#32

/-- The mnemonic of an instruction, as the table spells it. -/
def Instr.mnemonic : Instr → String
  | .tstart => "TSTART"
  | .cfgent _ => "CFGENT"
  | .poll => "POLL"
  | .linit => "LINIT"
  | .wcmd _ => "WCMD"
  | .wdat _ => "WDAT"
  | .lclr => "LCLR"
  | .goto1 => "GOTO_1"
  | .goto2 => "GOTO_2"
  | .wtime _ _ _ => "WTIME"

/-- Every term of `Instr` is well-formed: each operand's type holds exactly the values the encoding admits
(R91: a target of one bit, the two line numbers as two constructors, bytes "any byte"). The checks that can
fail are the word's (`wordWellFormed`) and the parameters' (`Params.valid`). -/
def Instr.wellFormed : Instr → Bool
  | .tstart => true
  | .cfgent _ => true
  | .poll => true
  | .linit => true
  | .wcmd _ => true
  | .wdat _ => true
  | .lclr => true
  | .goto1 => true
  | .goto2 => true
  | .wtime _ _ _ => true

end Sys2Proof
end

