-- ==== Sys2Proof/Decode.lean ====
section
/-! DEFINITION. Decoding an operation word, total and rejecting by name, and the encoder beside it
(30_encoding.md R90 to R93). -/

namespace Sys2Proof

/-- `opc`, bits 31:28 (R90). -/
def opField (w : Word) : Nibble := w.extractLsb' 28 4
/-- `z`, bits 27:24, reserved (R90). -/
def zField (w : Word) : Nibble := w.extractLsb' 24 4
/-- `A`, bits 23:16 (R90). -/
def aField (w : Word) : Byte := w.extractLsb' 16 8
/-- `B`, bits 15:8 (R90). -/
def bField (w : Word) : Byte := w.extractLsb' 8 8
/-- `C`, bits 7:0 (R90). -/
def cField (w : Word) : Byte := w.extractLsb' 0 8

/-- Why a word is reserved (the classes R93 lists; R242 needs no priority among them, log 21). -/
inductive ReservedWord where
  /-- `opc` is `0x0` or `0xA` to `0xF` -/
  | unassignedOpcode
  /-- `z` is not zero -/
  | reservedField
  /-- a field, or part of a field, that the operation does not use is not zero -/
  | unusedField
  /-- GOTO whose `C` is neither `0x01` nor `0x02` -/
  | lineNumber
  deriving DecidableEq, Repr

/-- What the decoder answers. -/
inductive Decoded where
  | instr (i : Instr)
  | reserved (r : ReservedWord)
  deriving DecidableEq, Repr

/-- The instruction when the unused part of the word is zero, else a reserved word (R91). -/
def whenUnused (zero : Bool) (i : Instr) : Decoded :=
  if zero then .instr i else .reserved .unusedField

/-- The target bit `t = C[0]` (R91, R97). -/
def targetOf (bit : Bool) : Target := if bit then .alarm else .clock

/-- The two line numbers of GOTO, `C = 0x01` and `C = 0x02` (R92, R93). -/
def decodeLine (ab : Bool) (c : Byte) : Decoded :=
  if c = 0x01#8 then whenUnused ab .goto1
  else if c = 0x02#8 then whenUnused ab .goto2
  else .reserved .lineNumber

/-- R92's map, field by field. -/
def decode (w : Word) : Decoded :=
  let a := aField w
  let b := bField w
  let c := cField w
  let ab := a == 0#8 && b == 0#8
  let abc := ab && c == 0#8
  if zField w ≠ 0#4 then .reserved .reservedField
  else match (opField w).toNat with
    | 0x1 => whenUnused abc .tstart
    | 0x2 => whenUnused (ab && c.extractLsb' 1 7 == 0#7) (.cfgent (targetOf (c.getLsbD 0)))
    | 0x3 => whenUnused abc .poll
    | 0x4 => whenUnused abc .linit
    | 0x5 => whenUnused ab (.wcmd c)
    | 0x6 => whenUnused ab (.wdat c)
    | 0x7 => whenUnused abc .lclr
    | 0x8 => decodeLine ab c
    | 0x9 => .instr (.wtime a b c)
    | _ => .reserved .unassignedOpcode

/-- A word put together from its fields, `z = 0` (R90). -/
def mkWord (opc : Nibble) (a b c : Byte) : Word :=
  opc.setWidth 32 <<< 28 ||| a.setWidth 32 <<< 16 ||| b.setWidth 32 <<< 8 ||| c.setWidth 32

/-- The operand byte of a target (R91, R97). -/
def targetByte : Target → Byte
  | .clock => 0x00#8
  | .alarm => 0x01#8

/-- The word of an instruction (R92); a field the operation does not use is zero (R91). -/
def encode : Instr → Word
  | .tstart => mkWord 0x1#4 0#8 0#8 0#8
  | .cfgent t => mkWord 0x2#4 0#8 0#8 (targetByte t)
  | .poll => mkWord 0x3#4 0#8 0#8 0#8
  | .linit => mkWord 0x4#4 0#8 0#8 0#8
  | .wcmd b => mkWord 0x5#4 0#8 0#8 b
  | .wdat b => mkWord 0x6#4 0#8 0#8 b
  | .lclr => mkWord 0x7#4 0#8 0#8 0#8
  | .goto1 => mkWord 0x8#4 0#8 0#8 0x01#8
  | .goto2 => mkWord 0x8#4 0#8 0#8 0x02#8
  | .wtime h m s => mkWord 0x9#4 h m s

/-- The instruction of a word as spec/opcode_table.json numbers its bits: one 32-bit word (R102), bit 0 the
least significant; `nbits` says how many bits are given, the bits above are zero. -/
def decodeTableWord (nbits w : Nat) : Option Instr :=
  match decode (BitVec.ofNat 32 (w % 2 ^ nbits)) with
  | .instr i => some i
  | .reserved _ => none

end Sys2Proof
end

