-- ==== Sys2Proof/Machine/State.lean ====
section
/-! DEFINITION. The state of the core (10_state.md) and the model's own fields beside it, the reasons a step can
stop, and the state after reset. -/

namespace Sys2Proof.Machine

/-- Meridiem (30_encoding.md R95). -/
inductive Meridiem where
  /-- code 0 -/
  | am
  /-- code 1 -/
  | pm
  deriving DecidableEq, Repr

/-- ClockTime, the time of day in packed BCD (10_state.md R21 to R24). -/
structure ClockTime where
  hour : Byte
  minute : Byte
  second : Byte
  mer : Meridiem
  deriving DecidableEq, Repr

/-- AlarmTime, ClockTime without the second (10_state.md R25 to R27). -/
structure AlarmTime where
  hour : Byte
  minute : Byte
  mer : Meridiem
  deriving DecidableEq, Repr

/-- The two buttons (42_input_config.md R200). -/
inductive Button where
  | confirm
  | increment
  deriving DecidableEq, Repr

/-- InputEvent (30_encoding.md R96). -/
inductive InputEvent where
  | none
  | confirm
  | increment
  deriving DecidableEq, Repr

/-- `in_state`, the debounce machine's position (10_state.md R31). -/
inductive InState where
  | idle
  | settle (b : Button)
  | resample (b : Button)
  | hold (b : Button)
  deriving DecidableEq, Repr

/-- `cfg_state` (10_state.md R32, 30_encoding.md R97). -/
inductive Phase where
  | idle
  | setHour
  | setMin
  | setMer
  deriving DecidableEq, Repr

/-- Why a request is refused: the complete list of 60_exceptions.md R242. -/
inductive RefuseReason where
  /-- (a) a reserved encoding -/
  | reserved (r : ReservedWord)
  /-- (b) a display operation with `dd_inited = 0` -/
  | notInitialised
  /-- (c) LINIT with `dd_inited = 1` -/
  | alreadyInitialised
  /-- (d) CFGENT with `cfg_state ≠ IDLE` -/
  | wizardInProgress
  deriving DecidableEq, Repr

/-- `fg`, the foreground engine's position (10_state.md R35). `refusing` is the `FG_BUSY(w, 0)` of a refused
word, whose micro-step list is the single step `done` (20_memory.md R62), with the mark R241 asks for (log 8). -/
inductive Fg where
  | idle
  | busy (w : Word) (k : Nat)
  | refusing (w : Word) (why : RefuseReason)
  deriving DecidableEq, Repr

/-- The state elements of R21 to R35, all of them (R20). -/
structure Regs where
  /-- `CT` -/
  ct : ClockTime
  /-- `AT` -/
  alarm : AlarmTime
  /-- `TICKCNT` (log 12) -/
  tickCnt : Nat
  /-- `tick_en` -/
  tickEn : Bool
  /-- `dd_inited` -/
  ddInited : Bool
  /-- `lcd_rs` -/
  lcdRs : Bool
  /-- `lcd_rw` -/
  lcdRw : Bool
  /-- `lcd_e` -/
  lcdE : Bool
  /-- `lcd_db`, `lcd_db[3]` on DB7 -/
  lcdDb : Nibble
  /-- `in_state` -/
  inState : InState
  /-- `cfg_state` -/
  cfgState : Phase
  /-- `cfg_target` -/
  cfgTarget : Target
  /-- `ev` -/
  ev : InputEvent
  /-- `fg` -/
  fg : Fg
  deriving DecidableEq, Repr

/-- The durations a `wait` micro-step can name (00_scope.md R9, R13). -/
inductive Delay where
  | su
  | ew
  | eh
  | byte
  | deb
  | init1
  | init2
  | init3
  | init4
  deriving DecidableEq, Repr

/-- One record of the pin-level trace (40_display.md R121): `pins`, `e` and `wait` micro-steps in order, each
wait with its minimum duration, and the pins going low at a reset (70_reset_and_hazards.md R272, log 10). -/
inductive PinRec where
  | pins (rs rw : Bool) (d : Nibble)
  | e (v : Bool)
  | wait (d : Delay) (atLeast : Rat)
  | reset
  deriving DecidableEq, Repr

/-- One completed operation: an `op_done` pulse (00_scope.md R8), marked when the request was refused (60_exceptions.md R241). -/
inductive Mark where
  | completed (w : Word)
  | refused (w : Word) (why : RefuseReason)
  deriving DecidableEq, Repr

/-- The machine: the core's registers, and the model's own fields (INVENTORY.md, logs 2, 4, 10). -/
structure State where
  /-- the state elements of 10_state.md -/
  regs : Regs
  /-- the implementation parameters; no step writes them (log 4) -/
  params : Params
  /-- the inputs already chosen for the coming clock edges, the next one first (log 2) -/
  inputs : List EdgeIn
  /-- how many clock edges have passed: the counter of the free inputs (log 2) -/
  cycle : Nat
  /-- the pin-level trace, oldest first (log 10) -/
  trace : List PinRec
  /-- the completed operations, oldest first (log 10) -/
  marks : List Mark
  deriving DecidableEq, Repr

/-- The reset values of 10_state.md R38. -/
def Regs.reset : Regs where
  ct := { hour := 0x12#8, minute := 0x00#8, second := 0x00#8, mer := .am }
  alarm := { hour := 0x12#8, minute := 0x00#8, mer := .am }
  tickCnt := 0
  tickEn := false
  ddInited := false
  lcdRs := false
  lcdRw := false
  lcdE := false
  lcdDb := 0x0#4
  inState := .idle
  cfgState := .idle
  cfgTarget := .clock
  ev := .none
  fg := .idle

/-- The machine right after reset (70_reset_and_hazards.md R271); the model's own fields as logs 2, 4 and 10 say. -/
def State.reset : State where
  regs := Regs.reset
  params := Config.params
  inputs := []
  cycle := 0
  trace := []
  marks := []

/-- Why a step stops. The core itself "raises no exception, trap or fault" (60_exceptions.md R240). -/
inductive Fault where
  /-- Raised by `step` (and by `exec` on a busy core) in a state whose `fg` names no micro-step that can be taken:
  no run from reset reaches one, and U13 says a model refuses any other start. Safe: it stops. -/
  | lostPosition
  deriving DecidableEq, Repr

/-- Why an instruction has no meaning yet. A request the HARDWARE refuses is not one of these: it completes,
and is marked (log 6). -/
inductive Refusal where
  /-- An arm of `exec` without a meaning; no arm raises it in this model. Safe: it stops. -/
  | notModelled (mnemonic : String)
  deriving DecidableEq, Repr

end Sys2Proof.Machine
end

