-- ==== Sys2Proof/Machine/Operands.lean ====
section
/-! DEFINITION. The operand forms (30_encoding.md R91, R99), the record a target names (00_scope.md R12), the
level of a button (42_input_config.md R201) and the numeric codes of the enumerated values (R95 to R97). -/

namespace Sys2Proof.Machine

/-- `b[7:4]` (R11). -/
def hiNibble (b : Byte) : Nibble := b.extractLsb' 4 4

/-- `b[3:0]` (R11). -/
def loNibble (b : Byte) : Nibble := b.extractLsb' 0 4

/-- The ASCII form of a digit nibble, `(0x30 + d) mod 256` (R99, R130); a nibble above 9 is not corrected. -/
def asciiDigit (d : Nibble) : Byte := 0x30#8 + d.setWidth 8

/-- The separator ':' of `write_time`: `0x3A` (R99, R130; PRESUMED by the spec, log 24). -/
def asciiColon : Byte := 0x3A#8

/-- The eight characters of WTIME, in order (R130). -/
def timeText (h m s : Byte) : List Byte :=
  [ asciiDigit (hiNibble h), asciiDigit (loNibble h), asciiColon,
    asciiDigit (hiNibble m), asciiDigit (loNibble m), asciiColon,
    asciiDigit (hiNibble s), asciiDigit (loNibble s) ]

/-- `level(b, (c, i))`, the level of one button's line at an edge; `true` is released (R200, R201). -/
def level (b : Button) (inp : EdgeIn) : Bool :=
  match b with
  | .confirm => inp.btnConfirmN
  | .increment => inp.btnIncrementN

/-- `event(b)` (R202). -/
def eventOf : Button → InputEvent
  | .confirm => .confirm
  | .increment => .increment

/-- `mer xor 1` (R95). -/
def Meridiem.toggle : Meridiem → Meridiem
  | .am => .pm
  | .pm => .am

/-- The code of a meridiem (R95). -/
def Meridiem.code : Meridiem → BitVec 1
  | .am => 0#1
  | .pm => 1#1

/-- The code of an event (R96); `0b11` is never produced. -/
def InputEvent.code : InputEvent → BitVec 2
  | .none => 0b00#2
  | .confirm => 0b01#2
  | .increment => 0b10#2

/-- The code of `cfg_state` (R97). -/
def Phase.code : Phase → BitVec 2
  | .idle => 0b00#2
  | .setHour => 0b01#2
  | .setMin => 0b10#2
  | .setMer => 0b11#2

/-- The code of a target (R97). -/
def targetCode : Target → BitVec 1
  | .clock => 0#1
  | .alarm => 1#1

/-- `T(t).hour` (R12). -/
def Regs.hourOf (t : Target) (r : Regs) : Byte :=
  match t with
  | .clock => r.ct.hour
  | .alarm => r.alarm.hour

/-- `T(t).minute` (R12). -/
def Regs.minuteOf (t : Target) (r : Regs) : Byte :=
  match t with
  | .clock => r.ct.minute
  | .alarm => r.alarm.minute

/-- `T(t).mer` (R12). -/
def Regs.merOf (t : Target) (r : Regs) : Meridiem :=
  match t with
  | .clock => r.ct.mer
  | .alarm => r.alarm.mer

/-- `T(t).hour <- v` (R12). -/
def Regs.setHourOf (t : Target) (v : Byte) (r : Regs) : Regs :=
  match t with
  | .clock => { r with ct := { r.ct with hour := v } }
  | .alarm => { r with alarm := { r.alarm with hour := v } }

/-- `T(t).minute <- v` (R12). -/
def Regs.setMinuteOf (t : Target) (v : Byte) (r : Regs) : Regs :=
  match t with
  | .clock => { r with ct := { r.ct with minute := v } }
  | .alarm => { r with alarm := { r.alarm with minute := v } }

/-- `T(t).mer <- v` (R12). -/
def Regs.setMerOf (t : Target) (v : Meridiem) (r : Regs) : Regs :=
  match t with
  | .clock => { r with ct := { r.ct with mer := v } }
  | .alarm => { r with alarm := { r.alarm with mer := v } }

/-- The minimum duration a `wait` names, in nanoseconds (R9, log 5). -/
def durationOf (p : Params) : Delay → Rat
  | .su => p.tSu
  | .ew => p.tEw
  | .eh => p.tEh
  | .byte => p.tByte
  | .deb => p.tDeb
  | .init1 => p.tInit1
  | .init2 => p.tInit2
  | .init3 => p.tInit3
  | .init4 => p.tInit4

end Sys2Proof.Machine
end

