-- ==== Sys2Proof/Machine/Ops.lean ====
section
/-! DEFINITION. The named operations: the BCD clock engine (41_clock_engine.md), the one interrupt TICK
(60_exceptions.md R243 to R248), the configuration table and the delivery of an event (42_input_config.md R209,
R211), the pin writes (40_display.md R120), reset (70_reset_and_hazards.md R270), acceptance and refusal
(20_memory.md R62, 60_exceptions.md R241). The core has no exceptions (R240): the tick is what is taken, it saves
nothing and has no return (R246, R247; log 20). -/

namespace Sys2Proof.Machine

/-! ## The BCD clock engine -/

/-- `bcd_inc`: increment, then decimal-carry correction on the low nibble (R160). -/
def bcdInc (v : Byte) : Byte :=
  let t := v + 1#8
  if 9#4 < loNibble t then t + 6#8 else t

/-- Step 2 of ADVSEC: the second's rollover carries into the minute (R163). -/
def ClockTime.carrySecond (c : ClockTime) : ClockTime :=
  if 0x59#8 < c.second then { c with second := 0x00#8, minute := bcdInc c.minute } else c

/-- Step 3 of ADVSEC: the minute's rollover carries into the hour (R163). -/
def ClockTime.carryMinute (c : ClockTime) : ClockTime :=
  if 0x59#8 < c.minute then { c with minute := 0x00#8, hour := bcdInc c.hour } else c

/-- Step 4 of ADVSEC: the hour's rollover toggles the meridiem (R163). -/
def ClockTime.carryHour (c : ClockTime) : ClockTime :=
  if 0x12#8 < c.hour then { c with hour := 0x01#8, mer := c.mer.toggle } else c

/-- ADVSEC, the four steps in the source's order (R163, R164). -/
def ClockTime.advsec (c : ClockTime) : ClockTime :=
  { c with second := bcdInc c.second }.carrySecond.carryMinute.carryHour

/-- INCH on one hour byte: wrap from 12 to 1 (R166). -/
def nextHour (h : Byte) : Byte := if 0x12#8 < bcdInc h then 0x01#8 else bcdInc h

/-- INCM on one minute byte: wrap from 59 to 0 (R167). -/
def nextMinute (m : Byte) : Byte := if 0x59#8 < bcdInc m then 0x00#8 else bcdInc m

/-- INCH t (R166): the hour only; the meridiem is not toggled (C3). -/
def Regs.inch (t : Target) (r : Regs) : Regs := r.setHourOf t (nextHour (r.hourOf t))

/-- INCM t (R167): the minute only; nothing is carried into the hour (C3). -/
def Regs.incm (t : Target) (r : Regs) : Regs := r.setMinuteOf t (nextMinute (r.minuteOf t))

/-- TOGM t (R168). -/
def Regs.togm (t : Target) (r : Regs) : Regs := r.setMerOf t (r.merOf t).toggle

/-! ## The tick, the one interrupt -/

/-- TICK (R162): count, and at `TICK_DIV` clear and advance one second. `TICKCNT` has `TICKCNT_W` bits. -/
def Regs.tick (p : Params) (r : Regs) : Regs :=
  let n := (r.tickCnt + 1) % 2 ^ p.tickCntW
  if n = p.tickDiv then { r with tickCnt := 0, ct := r.ct.advsec } else { r with tickCnt := n }

/-- A pulse on `tick`: TICK when `tick_en = 1`, else no effect at all (R29, R162, R244). -/
def Regs.tickPulse (p : Params) (r : Regs) : Regs := if r.tickEn then r.tick p else r

/-! ## The configuration machine -/

/-- CFG's transition table, applied to the current phase with `t = cfg_target` (R211). -/
def Regs.configure (e : InputEvent) (r : Regs) : Regs :=
  match r.cfgState, e with
  | .setHour, .increment => r.inch r.cfgTarget
  | .setHour, .confirm => { r with cfgState := .setMin }
  | .setMin, .increment => r.incm r.cfgTarget
  | .setMin, .confirm => { r with cfgState := .setMer }
  | .setMer, .increment => r.togm r.cfgTarget
  | .setMer, .confirm => { r with cfgState := .idle }
  | .setHour, .none => r
  | .setMin, .none => r
  | .setMer, .none => r
  | .idle, .none => r
  | .idle, .increment => r
  | .idle, .confirm => r

/-- The register part of `deliver(e)` (R209): one atomic micro-step. -/
def Regs.deliver (e : InputEvent) (r : Regs) : Regs :=
  { ({ r with ev := e } : Regs).configure e with inState := .idle, fg := .idle }

/-- CFGENT's micro-step (R210). -/
def Regs.enterWizard (t : Target) (r : Regs) : Regs := { r with cfgTarget := t, cfgState := .setHour }

/-! ## Operations on the whole state -/

/-- The inputs of the coming edge: the first listed, or the environment's free draw (log 2). -/
def nextInput (s : State) : EdgeIn :=
  match s.inputs with
  | inp :: _ => inp
  | [] => Config.env s.cycle

/-- One clock edge has used its inputs. -/
def State.consume (s : State) : State := { s with inputs := s.inputs.tail, cycle := s.cycle + 1 }

/-- `rst = 1` at an edge: every state element takes its reset value (R270); the pins go low (R272). -/
def State.resetRegs (s : State) : State := { s with regs := Regs.reset, trace := s.trace ++ [.reset] }

/-- The tick agent's part of an edge (R162, R244). -/
def State.tickPart (inp : EdgeIn) (s : State) : State :=
  if inp.tick then { s with regs := s.regs.tickPulse s.params } else s

/-- `pins(rs, rw, d)` (R13, R122), recorded (R121). -/
def State.setPins (rs rw : Bool) (d : Nibble) (s : State) : State :=
  { s with regs := { s.regs with lcdRs := rs, lcdRw := rw, lcdDb := d }, trace := s.trace ++ [.pins rs rw d] }

/-- `e(v)` (R13, R122), recorded (R121). -/
def State.setE (v : Bool) (s : State) : State :=
  { s with regs := { s.regs with lcdE := v }, trace := s.trace ++ [.e v] }

/-- `wait(T)`: no register changes; recorded with its minimum duration (R13, R121). -/
def State.recordWait (d : Delay) (s : State) : State :=
  { s with trace := s.trace ++ [.wait d (durationOf s.params d)] }

/-- The foreground engine's next micro-step is number `k` of the word `w` (R35). -/
def State.goTo (w : Word) (k : Nat) (s : State) : State := { s with regs := { s.regs with fg := .busy w k } }

/-- `in_state <- st` (R31). -/
def State.setIn (st : InState) (s : State) : State := { s with regs := { s.regs with inState := st } }

/-- An `op_done` pulse: the completion is recorded (R8, R62). -/
def State.mark (m : Mark) (s : State) : State := { s with marks := s.marks ++ [m] }

/-- `done`: `fg <- FG_IDLE`, with the completion (R35, R62). -/
def State.finish (m : Mark) (s : State) : State := { s with regs := { s.regs with fg := .idle } }.mark m

/-- `deliver(e)`, the last act of every POLL (R209). -/
def State.deliver (w : Word) (e : InputEvent) (s : State) : State :=
  { s with regs := s.regs.deliver e }.mark (.completed w)

/-- Acceptance of the word `w` (R62): its operation begins, or, refused, only completes (R241). -/
def State.accept (w : Word) (refusal : Option RefuseReason) (s : State) : State :=
  { s with regs := { s.regs with fg := match refusal with
      | some why => .refusing w why
      | none => .busy w 0 } }

/-! ## Refusal conditions (60_exceptions.md R242) -/

/-- (b) WCMD, WDAT, LCLR, GOTO and WTIME with `dd_inited = 0` (R124). -/
def displayRefusal (r : Regs) : Option RefuseReason := if r.ddInited then none else some .notInitialised

/-- (c) LINIT with `dd_inited = 1` (R124). -/
def initRefusal (r : Regs) : Option RefuseReason := if r.ddInited then some .alreadyInitialised else none

/-- (d) CFGENT with `cfg_state ≠ IDLE` (R210). -/
def wizardRefusal (r : Regs) : Option RefuseReason := if r.cfgState = .idle then none else some .wizardInProgress

end Sys2Proof.Machine
end

