-- ==== Sys2Proof/Machine/Steps.lean ====
section
/-! DEFINITION. The micro-step lists: one list per operation, as its rule gives it (00_scope.md R13,
40_display.md R122 to R130, 41_clock_engine.md R165, 42_input_config.md R202, R210). -/

namespace Sys2Proof.Machine

/-- A `ce(op)` micro-step that an operation word asks for itself (R13). -/
inductive CeOp where
  /-- `tick_en <- 1` (R165) -/
  | tickOn
  /-- `cfg_target <- t; cfg_state <- SET_HOUR` (R210) -/
  | enter (t : Target)
  /-- `dd_inited <- 1` (R125) -/
  | inited
  deriving DecidableEq, Repr

/-- The micro-steps of R13; those of POLL carry the number R202 gives them. -/
inductive Micro where
  | pins (rs rw : Bool) (d : Nibble)
  | e (v : Bool)
  | wait (d : Delay)
  | ce (op : CeOp)
  /-- R202 step 1: sample both buttons and choose -/
  | sample
  /-- R202 step 2: `wait(T_DEB)` -/
  | debounce
  /-- R202 step 3: sample the chosen button again -/
  | resample
  /-- R202 step 4: wait for the release -/
  | hold
  /-- R202 step 5: `deliver(event(b)); done` -/
  | deliverPress
  /-- `deliver(NONE); done` of R202 steps 1 and 3 -/
  | deliverNone
  | done
  deriving DecidableEq, Repr

/-- Step 2 of `NIB`, `wait(T_SU)`: "`T_SU = 0` removes it" (R122). -/
def setUpSteps (p : Params) : List Micro := if p.tSu = 0 then [] else [.wait .su]

/-- `NIB(rs, n)`: six micro-steps (R122), or five without the set-up. -/
def nibSteps (p : Params) (rs : Bool) (n : Nibble) : List Micro :=
  .pins rs false n :: (setUpSteps p ++ [.e true, .wait .ew, .e false, .wait .eh])

/-- `BYTE(rs, b)`: high nibble, low nibble, settle delay (R123). -/
def byteSteps (p : Params) (rs : Bool) (b : Byte) : List Micro :=
  nibSteps p rs (hiNibble b) ++ (nibSteps p rs (loNibble b) ++ [.wait .byte])

/-- TSTART (R165). -/
def tstartSteps : List Micro := [.ce .tickOn, .done]

/-- CFGENT t (R210). -/
def cfgentSteps (t : Target) : List Micro := [.ce (.enter t), .done]

/-- Where the two ways out of POLL stand in its list. -/
def pollPressAt : Nat := 4
/-- `deliver(NONE)`. -/
def pollNoneAt : Nat := 5
/-- The release loop. -/
def pollHoldAt : Nat := 3

/-- POLL (R202): steps 1 to 5, and the `deliver(NONE)` that steps 1 and 3 branch to (log 7). -/
def pollSteps : List Micro := [.sample, .debounce, .resample, .hold, .deliverPress, .deliverNone]

/-- LINIT (R125). -/
def linitSteps (p : Params) : List Micro :=
  nibSteps p false p.nib8bit ++ [.wait .init1] ++
  nibSteps p false p.nib8bit ++ [.wait .init2] ++
  nibSteps p false p.nib8bit ++ [.wait .init3] ++
  nibSteps p false p.nib4bit ++ [.wait .init4] ++
  byteSteps p false p.cmdFuncset ++
  byteSteps p false p.cmdDispon ++
  byteSteps p false Config.cmdClear ++
  byteSteps p false p.cmdHome ++
  [.ce .inited, .done]

/-- WCMD b (R126). -/
def wcmdSteps (p : Params) (b : Byte) : List Micro := byteSteps p false b ++ [.done]

/-- WDAT b (R127). -/
def wdatSteps (p : Params) (b : Byte) : List Micro := byteSteps p true b ++ [.done]

/-- LCLR (R128). -/
def lclrSteps (p : Params) : List Micro := byteSteps p false Config.cmdClear ++ [.done]

/-- GOTO 1 (R129). -/
def goto1Steps (p : Params) : List Micro := byteSteps p false p.cmdLine1 ++ [.done]

/-- GOTO 2 (R129). -/
def goto2Steps (p : Params) : List Micro := byteSteps p false p.cmdLine2 ++ [.done]

/-- WTIME h, m, s (R130): eight byte transactions. -/
def wtimeSteps (p : Params) (h m s : Byte) : List Micro := (timeText h m s).flatMap (byteSteps p true) ++ [.done]

/-- The micro-step list of each operation. -/
def stepsOf (p : Params) : Instr → List Micro
  | .tstart => tstartSteps
  | .cfgent t => cfgentSteps t
  | .poll => pollSteps
  | .linit => linitSteps p
  | .wcmd b => wcmdSteps p b
  | .wdat b => wdatSteps p b
  | .lclr => lclrSteps p
  | .goto1 => goto1Steps p
  | .goto2 => goto2Steps p
  | .wtime h m s => wtimeSteps p h m s

/-- The micro-step list of the latched word; a reserved word has none of its own (it is refused). -/
def stepsAt (p : Params) (w : Word) : List Micro :=
  match decode w with
  | .instr i => stepsOf p i
  | .reserved _ => []

/-- Whether each operation is refused in a state (R242); TSTART and POLL never are. -/
def refusalOf (i : Instr) (r : Regs) : Option RefuseReason :=
  match i with
  | .tstart => none
  | .cfgent _ => wizardRefusal r
  | .poll => none
  | .linit => initRefusal r
  | .wcmd _ => displayRefusal r
  | .wdat _ => displayRefusal r
  | .lclr => displayRefusal r
  | .goto1 => displayRefusal r
  | .goto2 => displayRefusal r
  | .wtime _ _ _ => displayRefusal r

/-- Whether a presented word is refused: reserved, or its operation is (R242). -/
def wordRefusal (w : Word) (r : Regs) : Option RefuseReason :=
  match decode w with
  | .instr i => refusalOf i r
  | .reserved why => some (.reserved why)

end Sys2Proof.Machine
end

