-- ==== Sys2Proof/Machine/Foreground.lean ====
section
/-! DEFINITION. One clock edge of the core, and an operation's run: the acceptance edge and the edges that
follow until it completes (20_memory.md R62, R70 to R73; 42_input_config.md R202, R208). -/

namespace Sys2Proof.Machine

/-- A `ce(op)` micro-step: one atomic clock-engine or configuration write (R13, R70). -/
def ceStep (op : CeOp) (r : Regs) : Regs :=
  match op with
  | .tickOn => { r with tickEn := true }
  | .enter t => r.enterWizard t
  | .inited => { r with ddInited := true }

/-- R202 step 1: confirm is checked first; neither pressed delivers NONE at once. -/
def sampleStep (w : Word) (inp : EdgeIn) (s : State) : State :=
  if inp.btnConfirmN = false then (s.setIn (.settle .confirm)).goTo w 1
  else if inp.btnIncrementN = false then (s.setIn (.settle .increment)).goTo w 1
  else s.goTo w pollNoneAt

/-- R202 step 2: the settle delay has passed. -/
def debounceStep (w : Word) (s : State) : State :=
  match s.regs.inState with
  | .settle b => ((s.recordWait .deb).setIn (.resample b)).goTo w 2
  | .idle => s
  | .resample _ => s
  | .hold _ => s

/-- R202 step 3: high is a bounce, low a confirmed press. -/
def resampleStep (w : Word) (inp : EdgeIn) (s : State) : State :=
  match s.regs.inState with
  | .resample b => if level b inp then s.goTo w pollNoneAt else (s.setIn (.hold b)).goTo w pollHoldAt
  | .idle => s
  | .settle _ => s
  | .hold _ => s

/-- R202 step 4: repeated until the line reads high (R206). -/
def holdStep (w : Word) (inp : EdgeIn) (s : State) : State :=
  match s.regs.inState with
  | .hold b => if level b inp then s.goTo w pollPressAt else s
  | .idle => s
  | .settle _ => s
  | .resample _ => s

/-- R202 step 5. -/
def deliverPressStep (w : Word) (s : State) : State :=
  match s.regs.inState with
  | .hold b => s.deliver w (eventOf b)
  | .idle => s
  | .settle _ => s
  | .resample _ => s

/-- Micro-step `m`, number `k` of the word `w`, with the buttons of the edge. -/
def microStep (m : Micro) (w : Word) (k : Nat) (inp : EdgeIn) (s : State) : State :=
  match m with
  | .pins rs rw d => (s.setPins rs rw d).goTo w (k + 1)
  | .e v => (s.setE v).goTo w (k + 1)
  | .wait d => (s.recordWait d).goTo w (k + 1)
  | .ce op => { s with regs := ceStep op s.regs }.goTo w (k + 1)
  | .sample => sampleStep w inp s
  | .debounce => debounceStep w s
  | .resample => resampleStep w inp s
  | .hold => holdStep w inp s
  | .deliverPress => deliverPressStep w s
  | .deliverNone => s.deliver w .none
  | .done => s.finish (.completed w)

/-- The foreground engine's part of an edge. -/
def foreground (inp : EdgeIn) (s : State) : State :=
  if inp.fgGo then
    match s.regs.fg with
    | .idle => s
    | .refusing w why => s.finish (.refused w why)
    | .busy w k =>
      match (stepsAt s.params w)[k]? with
      | some m => microStep m w k inp s
      | none => s
  else s

/-- An edge at which no word is accepted: reset, or the tick agent first and the foreground second (R73, R270). -/
def runEdge (s : State) : State :=
  let inp := nextInput s
  if inp.rst then s.consume.resetRegs else foreground inp (s.consume.tickPart inp)

/-- The edge at which the word `w` is accepted (R62); `rst = 1` overrides it (R270). -/
def acceptEdge (w : Word) (refusal : Option RefuseReason) (s : State) : State :=
  let inp := nextInput s
  if inp.rst then s.consume.resetRegs else (s.consume.tickPart inp).accept w refusal

/-- One clock edge, whatever it brings: the core's transition. -/
def clockEdge (s : State) : State :=
  let inp := nextInput s
  if s.regs.fg = .idle ∧ inp.opValid = true then acceptEdge inp.opWord (wordRefusal inp.opWord s.regs) s
  else runEdge s

/-- The edges of the listed inputs, until the foreground engine is idle or the list ends. -/
def settleOn : List EdgeIn → State → State
  | [], s => s
  | _ :: rest, s => if s.regs.fg = .idle then s else settleOn rest (runEdge s)

/-- The operation in progress runs on as far as the listed inputs carry it (log 1). -/
def settle (s : State) : State := settleOn s.inputs s

/-- Whether a micro-step can be taken at this debounce position (R208). -/
def microReady (m : Micro) (st : InState) : Bool :=
  match m, st with
  | .debounce, .settle _ => true
  | .debounce, _ => false
  | .resample, .resample _ => true
  | .resample, _ => false
  | .hold, .hold _ => true
  | .hold, _ => false
  | .deliverPress, .hold _ => true
  | .deliverPress, _ => false
  | _, _ => true

/-- `fg` names no micro-step that can be taken: no run from reset gets here (U13, log 9). -/
def State.lost (s : State) : Bool :=
  match s.regs.fg with
  | .idle => false
  | .refusing _ _ => false
  | .busy w k =>
    match (stepsAt s.params w)[k]? with
    | some m => !microReady m s.regs.inState
    | none => true

/-- The core goes on without accepting a word: idle for one edge, or the operation in progress (U26). -/
def carryOn (s : State) : Host.Outcome State Fault Refusal :=
  if s.lost = true ∧ (nextInput s).rst = false then .fault .lostPosition else .next (settle (runEdge s))

/-- The word `w` is presented at this edge: accepted when the core is idle, ignored when it is busy (R62, log 18). -/
def present (w : Word) (refusal : Option RefuseReason) (s : State) : Host.Outcome State Fault Refusal :=
  if s.regs.fg = .idle then .next (settle (acceptEdge w refusal s)) else carryOn s

end Sys2Proof.Machine
end

