-- ==== Sys2Proof/Machine/Clock.lean ====
section
/-! DEFINITION. The clock engine's operation word, TSTART (41_clock_engine.md R165). -/

namespace Sys2Proof.Machine

/-- TSTART (R165): `tstartSteps`; never refused. -/
def execTstart (s : State) : Host.Outcome State Fault Refusal :=
  present (encode .tstart) none s

end Sys2Proof.Machine
end

