-- ==== Sys2Proof/Machine/Display.lean ====
section
/-! DEFINITION. The display driver's operations (40_display.md R125 to R130). -/

namespace Sys2Proof.Machine

/-- LINIT (R125): `linitSteps`; refused when the display is initialised already. -/
def execLinit (s : State) : Host.Outcome State Fault Refusal :=
  present (encode .linit) (initRefusal s.regs) s

/-- WCMD b (R126): `wcmdSteps`. -/
def execWcmd (b : Byte) (s : State) : Host.Outcome State Fault Refusal :=
  present (encode (.wcmd b)) (displayRefusal s.regs) s

/-- WDAT b (R127): `wdatSteps`. -/
def execWdat (b : Byte) (s : State) : Host.Outcome State Fault Refusal :=
  present (encode (.wdat b)) (displayRefusal s.regs) s

/-- LCLR (R128): `lclrSteps`. -/
def execLclr (s : State) : Host.Outcome State Fault Refusal :=
  present (encode .lclr) (displayRefusal s.regs) s

/-- GOTO 1 (R129): `goto1Steps`. -/
def execGoto1 (s : State) : Host.Outcome State Fault Refusal :=
  present (encode .goto1) (displayRefusal s.regs) s

/-- GOTO 2 (R129): `goto2Steps`. -/
def execGoto2 (s : State) : Host.Outcome State Fault Refusal :=
  present (encode .goto2) (displayRefusal s.regs) s

/-- WTIME h, m, s (R130): `wtimeSteps`, on operands latched with the word; ClockTime is not read. -/
def execWtime (h m sec : Byte) (s : State) : Host.Outcome State Fault Refusal :=
  present (encode (.wtime h m sec)) (displayRefusal s.regs) s

end Sys2Proof.Machine
end

