-- ==== Sys2Proof/Machine/Input.lean ====
section
/-! DEFINITION. The input and configuration operations POLL and CFGENT (42_input_config.md R202, R210). -/

namespace Sys2Proof.Machine

/-- POLL (R202): `pollSteps`; never refused. A button never released leaves the operation in `IN_HOLD` (R206). -/
def execPoll (s : State) : Host.Outcome State Fault Refusal :=
  present (encode .poll) none s

/-- CFGENT t (R210): `cfgentSteps`; refused while a wizard is in progress. -/
def execCfgent (t : Target) (s : State) : Host.Outcome State Fault Refusal :=
  present (encode (.cfgent t)) (wizardRefusal s.regs) s

end Sys2Proof.Machine
end

