-- ==== Sys2Proof/Machine/Dispatch.lean ====
section
/-! DEFINITION. The meaning of each instruction, one arm per constructor of Instr. -/

namespace Sys2Proof.Machine

def exec (i : Instr) (s : State) : Host.Outcome State Fault Refusal :=
  match i with
  | .tstart => Sys2Proof.Machine.execTstart s
  | .cfgent t => Sys2Proof.Machine.execCfgent t s
  | .poll => Sys2Proof.Machine.execPoll s
  | .linit => Sys2Proof.Machine.execLinit s
  | .wcmd b => Sys2Proof.Machine.execWcmd b s
  | .wdat b => Sys2Proof.Machine.execWdat b s
  | .lclr => Sys2Proof.Machine.execLclr s
  | .goto1 => Sys2Proof.Machine.execGoto1 s
  | .goto2 => Sys2Proof.Machine.execGoto2 s
  | .wtime h m sec => Sys2Proof.Machine.execWtime h m sec s

end Sys2Proof.Machine
end

