-- ==== Sys2Proof/Machine/Step.lean ====
section
/-! DEFINITION. One step of the machine: it takes at least one clock edge. With the core idle and a word presented
it runs the decoded operation (`exec`); otherwise the core goes on (log 1). -/

namespace Sys2Proof.Machine

/-- A step (20_memory.md R62, R93; log 1). A reserved word is accepted and refused. -/
def step (s : State) : Host.Outcome State Fault Refusal :=
  if s.regs.fg = .idle ∧ (nextInput s).opValid = true then
    match decode (nextInput s).opWord with
    | .instr i => exec i s
    | .reserved why => present (nextInput s).opWord (some (.reserved why)) s
  else carryOn s

/-- An edge with nothing on it: no reset, no tick, both buttons released, no request; the foreground takes its micro-step. -/
def quietEdge : EdgeIn where
  rst := false
  tick := false
  btnConfirmN := true
  btnIncrementN := true
  opValid := false
  opWord := 0#32
  fgGo := true

/-- The host presents the word `w` at an otherwise quiet edge. -/
def requestEdge (w : Word) : EdgeIn := { quietEdge with opValid := true, opWord := w }

/-- The number of micro-steps of the longest operation, WTIME (40_display.md R134). -/
def longestOperation : Nat := 105

/-- `s` with the core idle, the host presenting the given word at the next edge, and as many quiet edges after
it as the longest operation takes (log 14). -/
def State.withFetchWord (s : State) (nbits w : Nat) : State :=
  { s with
    regs := { s.regs with fg := .idle, inState := .idle }
    inputs := requestEdge (BitVec.ofNat 32 (w % 2 ^ nbits)) :: List.replicate longestOperation quietEdge }

end Sys2Proof.Machine
end

