-- ==== Sys2Proof/Machine/Flags.lean ====
section
/-! DEFINITION. The core has no condition codes (10_state.md R39). Its single-bit status values and the other
status outputs are computed here from the state (20_memory.md R61, R72; 41_clock_engine.md R176). -/

namespace Sys2Proof.Machine

/-- `alarm_match`, the output of CMP; the second is not compared (R176). -/
def Regs.alarmMatch (r : Regs) : Bool :=
  r.ct.hour == r.alarm.hour && r.ct.minute == r.alarm.minute && r.ct.mer == r.alarm.mer

/-- The micro-steps that end an operation: `done`, and POLL's two deliveries (R202, R209). -/
def Micro.ends : Micro → Bool
  | .done => true
  | .deliverPress => true
  | .deliverNone => true
  | .pins _ _ _ => false
  | .e _ => false
  | .wait _ => false
  | .ce _ => false
  | .sample => false
  | .debounce => false
  | .resample => false
  | .hold => false

/-- The micro-step at the foreground engine's position, if it names one that can be taken. -/
def State.currentMicro (s : State) : Option Micro :=
  match s.regs.fg with
  | .idle => none
  | .refusing _ _ => some .done
  | .busy w k =>
    match (stepsAt s.params w)[k]? with
    | some m => if microReady m s.regs.inState then some m else none
    | none => none

/-- `op_ready` (R61): `1` exactly when `fg = FG_IDLE`, and `0` while `rst = 1` (R270). -/
def State.opReady (s : State) : Bool := decide (s.regs.fg = .idle) && !(nextInput s).rst

/-- `op_done` (R61, R62): the cycle in which the `done` micro-step executes; `0` while `rst = 1` (R270; log 13). -/
def State.opDone (s : State) : Bool :=
  !(nextInput s).rst && (nextInput s).fgGo &&
    match s.currentMicro with
    | some m => m.ends
    | none => false

/-- The output ports of 20_memory.md R61. -/
structure Outputs where
  opReady : Bool
  opDone : Bool
  ev : BitVec 2
  ctHour : Byte
  ctMinute : Byte
  ctSecond : Byte
  ctMer : BitVec 1
  atHour : Byte
  atMinute : Byte
  atMer : BitVec 1
  alarmMatch : Bool
  tickEn : Bool
  ddInited : Bool
  cfgState : BitVec 2
  cfgTarget : BitVec 1
  lcdRs : Bool
  lcdRw : Bool
  lcdE : Bool
  lcdDb : Nibble
  deriving DecidableEq, Repr

/-- All outputs in the current cycle, one snapshot (R72). -/
def State.outputs (s : State) : Outputs where
  opReady := s.opReady
  opDone := s.opDone
  ev := s.regs.ev.code
  ctHour := s.regs.ct.hour
  ctMinute := s.regs.ct.minute
  ctSecond := s.regs.ct.second
  ctMer := s.regs.ct.mer.code
  atHour := s.regs.alarm.hour
  atMinute := s.regs.alarm.minute
  atMer := s.regs.alarm.mer.code
  alarmMatch := s.regs.alarmMatch
  tickEn := s.regs.tickEn
  ddInited := s.regs.ddInited
  cfgState := s.regs.cfgState.code
  cfgTarget := targetCode s.regs.cfgTarget
  lcdRs := s.regs.lcdRs
  lcdRw := s.regs.lcdRw
  lcdE := s.regs.lcdE
  lcdDb := s.regs.lcdDb

end Sys2Proof.Machine
end

