-- ==== Sys2Proof/Machine/Pseudo.lean ====
section
/-! DEFINITION. What the host does before and between operations: the pseudo-operations it expands
(30_encoding.md R101, 40_display.md R131, 42_input_config.md R216), the start-up order it owes the core
(70_reset_and_hazards.md R274), and the written form of an operation (30_encoding.md R100). None of it is an
instruction of the core (log 19). -/

namespace Sys2Proof.Machine

/-- `WSTR "text"`: one WDAT per character before the first terminator, which is not sent (R101, R131). -/
def wstr (p : Params) (text : List Byte) : List Instr := (text.takeWhile (fun c => c != p.strTerm)).map .wdat

/-- `WIZARD t`: the operation the host issues first (R101, R216). -/
def wizardFirst (t : Target) : Instr := .cfgent t

/-- `WIZARD t`: after it, POLL again until `cfg_state = IDLE` (R101, R216). -/
def wizardNext (s : State) : Option Instr := if s.regs.cfgState = .idle then none else some .poll

/-- A step of the host's start-up order (R274). -/
inductive HostStep where
  | setUpTimer
  | enableInterrupts
  | issue (i : Instr)
  | defaultTimes
  | wizard (t : Target)
  | foregroundLoop
  deriving DecidableEq, Repr

/-- The start-up order, in the source's order (R274). -/
def startUpOrder : List HostStep :=
  [.setUpTimer, .enableInterrupts, .issue .linit, .defaultTimes, .wizard .clock, .issue .tstart, .wizard .alarm,
   .foregroundLoop]

/-- A hexadecimal digit. -/
def hexDigit (n : Nibble) : Char := ("0123456789ABCDEF".toList).getD n.toNat '0'

/-- A byte as the written form has it: `0x` and two digits (R100, log 22). -/
def hexByte (b : Byte) : String := String.ofList ['0', 'x', hexDigit (hiNibble b), hexDigit (loNibble b)]

/-- The written form of a target (R100). -/
def targetText : Target → String
  | .clock => "CLOCK"
  | .alarm => "ALARM"

/-- The written form of an operation: its mnemonic, then its operands separated by commas (R100). -/
def asmText : Instr → String
  | .tstart => "TSTART"
  | .cfgent t => "CFGENT " ++ targetText t
  | .poll => "POLL"
  | .linit => "LINIT"
  | .wcmd b => "WCMD " ++ hexByte b
  | .wdat b => "WDAT " ++ hexByte b
  | .lclr => "LCLR"
  | .goto1 => "GOTO 1"
  | .goto2 => "GOTO 2"
  | .wtime h m s => "WTIME " ++ hexByte h ++ ", " ++ hexByte m ++ ", " ++ hexByte s

end Sys2Proof.Machine
end

