-- ==== Sys2Proof/Machine/Timing.lean ====
section
/-! DEFINITION. Durations: what the spec says of the hardware's own pace (00_scope.md R13, 40_display.md R134,
70_reset_and_hazards.md R287). No rule of state change depends on this file (log 26). -/

namespace Sys2Proof.Machine

/-- `ceil(T × F_CLK)` clock cycles for a `wait(T)` (R13), with `T` in nanoseconds. -/
def waitCycles (p : Params) (d : Delay) : Nat := (durationOf p d * p.fClk / 1000000000).ceil.toNat

/-- The delay a micro-step waits for, if it is a wait. -/
def Micro.delay : Micro → Option Delay
  | .wait d => some d
  | .debounce => some .deb
  | .pins _ _ _ => none
  | .e _ => none
  | .ce _ => none
  | .sample => none
  | .resample => none
  | .hold => none
  | .deliverPress => none
  | .deliverNone => none
  | .done => none

/-- How many cycles the hardware gives a micro-step: one, and a wait `ceil(T × F_CLK)` (R13). Every wait in an
operation's list has a positive duration (R9, R122), so no micro-step of one has none. -/
def microCycles (p : Params) (m : Micro) : Nat :=
  match m.delay with
  | some d => waitCycles p d
  | none => 1

/-- The hardware's own pace through a list of micro-steps: at which edges `fgGo` holds. -/
def hardwarePace (p : Params) (l : List Micro) : List Bool :=
  l.flatMap (fun m => List.replicate (microCycles p m - 1) false ++ [true])

/-- The least total duration of the waits in a list of micro-steps (R134). -/
def minDuration (p : Params) (l : List Micro) : Rat :=
  (l.map (fun m => match m.delay with
    | some d => durationOf p d
    | none => 0)).sum

/-- How many micro-steps `NIB` is: six (R134), or five where `T_SU = 0` removes its second (R122, log 11). -/
def nibSize (p : Params) : Nat := if p.tSu = 0 then 5 else 6

/-- How many micro-steps `BYTE` is: two `NIB` and the settle delay (R123; 13 in R134). -/
def byteSize (p : Params) : Nat := 2 * nibSize p + 1

/-- WCMD, WDAT, LCLR and GOTO: one byte and `done` (14 in R134). -/
def oneByteSize (p : Params) : Nat := byteSize p + 1

/-- LINIT: four nibbles with a wait each, four bytes, `dd_inited <- 1` and `done` (82 in R134). -/
def linitSize (p : Params) : Nat := 4 * (nibSize p + 1) + 4 * byteSize p + 1 + 1

/-- WTIME: eight bytes and `done` (105 in R134). -/
def wtimeSize (p : Params) : Nat := 8 * byteSize p + 1

/-- The number of strobe pulses in a list of micro-steps (R134). -/
def strobePulses (l : List Micro) : Nat := l.countP (fun m => m == .e true)

end Sys2Proof.Machine
end

