-- ==== Sys2Proof/Machine/Trace.lean ====
section
/-! DEFINITION. The transaction-level trace: what the pin-level trace says the display received (00_scope.md R15,
40_display.md R121, R122), and what a list of micro-steps records. -/

namespace Sys2Proof.Machine

/-- `NT(rs, rw, n)`, one nibble transaction (R15). -/
structure NT where
  rs : Bool
  rw : Bool
  n : Nibble
  deriving DecidableEq, Repr

/-- The port image `{n, 0b0000}` of a transaction (R15, R65). -/
def NT.portImage (t : NT) : Byte := t.n ++ 0#4

/-- The seven display pins. -/
structure Wire where
  rs : Bool
  rw : Bool
  e : Bool
  db : Nibble
  deriving DecidableEq, Repr

/-- All pins low, as after reset (R120). -/
def Wire.low : Wire := { rs := false, rw := false, e := false, db := 0#4 }

/-- The pins after one record of the trace. -/
def Wire.after (x : Wire) : PinRec → Wire
  | .pins rs rw d => { x with rs := rs, rw := rw, db := d }
  | .e v => { x with e := v }
  | .wait _ _ => x
  | .reset => Wire.low

/-- The pins after a trace. -/
def Wire.afterAll (x : Wire) (tr : List PinRec) : Wire := tr.foldl Wire.after x

/-- The transactions of a trace: one per strobe pulse, at its falling edge, with the pin values held across it
(R121, R122). A pulse that a reset cuts short is none (log 10). -/
def transactionsFrom : Wire → List PinRec → List NT
  | _, [] => []
  | x, r :: tr =>
    (if x.e = true ∧ r = .e false then [{ rs := x.rs, rw := x.rw, n := x.db }] else []) ++
      transactionsFrom (x.after r) tr

/-- The display pins of the registers. -/
def Regs.wire (r : Regs) : Wire := { rs := r.lcdRs, rw := r.lcdRw, e := r.lcdE, db := r.lcdDb }

/-- The transactions the core has sent since its start, with all pins low. -/
def State.transactions (s : State) : List NT := transactionsFrom Wire.low s.trace

/-- What one micro-step of a display operation records (R121). -/
def Micro.records (p : Params) : Micro → List PinRec
  | .pins rs rw d => [.pins rs rw d]
  | .e v => [.e v]
  | .wait d => [.wait d (durationOf p d)]
  | .debounce => [.wait .deb (durationOf p .deb)]
  | .ce _ => []
  | .sample => []
  | .resample => []
  | .hold => []
  | .deliverPress => []
  | .deliverNone => []
  | .done => []

/-- What a list of micro-steps records. -/
def recordsOf (p : Params) (l : List Micro) : List PinRec := l.flatMap (Micro.records p)

/-- What step 2 of `NIB` records (R122): the set-up, unless `T_SU = 0` removes it. -/
def setUpRecs (p : Params) : List PinRec := if p.tSu = 0 then [] else [.wait .su p.tSu]

/-- What `NIB(rs, n)` records (R122): data, set-up, strobe up, width, strobe down, hold. -/
def nibRecs (p : Params) (rs : Bool) (n : Nibble) : List PinRec :=
  .pins rs false n :: (setUpRecs p ++ [.e true, .wait .ew p.tEw, .e false, .wait .eh p.tEh])

/-- What `BYTE(rs, b)` records (R123): high nibble, low nibble, settle delay. -/
def byteRecs (p : Params) (rs : Bool) (b : Byte) : List PinRec :=
  nibRecs p rs (hiNibble b) ++ nibRecs p rs (loNibble b) ++ [.wait .byte p.tByte]

/-- What LINIT records (R125). -/
def linitRecs (p : Params) : List PinRec :=
  nibRecs p false p.nib8bit ++ [.wait .init1 p.tInit1] ++ nibRecs p false p.nib8bit ++ [.wait .init2 p.tInit2] ++
  nibRecs p false p.nib8bit ++ [.wait .init3 p.tInit3] ++ nibRecs p false p.nib4bit ++ [.wait .init4 p.tInit4] ++
  byteRecs p false p.cmdFuncset ++ byteRecs p false p.cmdDispon ++ byteRecs p false Config.cmdClear ++
  byteRecs p false p.cmdHome

/-- `NIB(rs, n)` as the display sees it (R122). -/
def nibNT (rs : Bool) (n : Nibble) : NT := { rs := rs, rw := false, n := n }

/-- `BYTE(rs, b)` as the display sees it: high nibble first (R64, R123). -/
def byteNT (rs : Bool) (b : Byte) : List NT := [nibNT rs (hiNibble b), nibNT rs (loNibble b)]

/-- LINIT's twelve transactions (R125). -/
def linitNT (p : Params) : List NT :=
  [nibNT false p.nib8bit, nibNT false p.nib8bit, nibNT false p.nib8bit, nibNT false p.nib4bit] ++
    [p.cmdFuncset, p.cmdDispon, Config.cmdClear, p.cmdHome].flatMap (byteNT false)

end Sys2Proof.Machine
end

