-- ==== Sys2Proof/Safety.lean ====
section
/-! DEFINITION. What a sound state is (00_scope.md R14, 10_state.md R36), and the words the claims are stated in. -/

namespace Sys2Proof.Machine

/-! ## Valid times (R14) -/

/-- `is_bcd(v)`. -/
def isBcd (v : Byte) : Bool := decide (hiNibble v ≤ 9#4) && decide (loNibble v ≤ 9#4)

/-- `bcdval(v)`. -/
def bcdVal (v : Byte) : Nat := 10 * (hiNibble v).toNat + (loNibble v).toNat

/-- `tobcd(d)`, for `d ≤ 99`. -/
def toBcd (d : Nat) : Byte := BitVec.ofNat 4 (d / 10) ++ BitVec.ofNat 4 (d % 10)

/-- A valid hour: packed BCD of 1 to 12. -/
def validHour (h : Byte) : Bool := isBcd h && decide (1 ≤ bcdVal h) && decide (bcdVal h ≤ 12)

/-- A valid minute or second: packed BCD of 0 to 59. -/
def validSixty (v : Byte) : Bool := isBcd v && decide (bcdVal v ≤ 59)

/-- A valid ClockTime. -/
def ClockTime.valid (c : ClockTime) : Bool := validHour c.hour && validSixty c.minute && validSixty c.second

/-- A valid AlarmTime. -/
def AlarmTime.valid (a : AlarmTime) : Bool := validHour a.hour && validSixty a.minute

/-- The record `T(t)` is valid (00_scope.md R12, R14). -/
def Regs.targetValid (t : Target) (r : Regs) : Bool :=
  match t with
  | .clock => r.ct.valid
  | .alarm => r.alarm.valid

/-! ## Ticks -/

/-- How many of the edges carry a pulse on `tick`. -/
def ticksIn (used : List EdgeIn) : Nat := used.countP (fun inp => inp.tick)

/-- `n` pulses on `tick`, one after another. -/
def Regs.pulses (p : Params) (n : Nat) (r : Regs) : Regs := (Regs.tickPulse p)^[n] r

/-! ## Events -/

/-- Events delivered one after another (R209). -/
def Regs.deliverAll (events : List InputEvent) (r : Regs) : Regs := events.foldl (fun q e => q.deliver e) r

/-- The events of the source's set-alarm example (R219): five increments, confirm, three, confirm, one, confirm. -/
def wizardExample : List InputEvent :=
  [.increment, .increment, .increment, .increment, .increment, .confirm,
   .increment, .increment, .increment, .confirm, .increment, .confirm]

/-! ## Schedules -/

/-- The core is idle, at least one edge is listed, no listed edge resets, and after the first the foreground
engine is given at least `n` micro-steps: enough for an operation of `n` micro-steps to complete. -/
def State.givesSteps (n : Nat) (s : State) : Prop :=
  s.regs.fg = .idle ∧ s.inputs ≠ [] ∧ (∀ inp ∈ s.inputs, inp.rst = false) ∧
    n ≤ s.inputs.tail.countP (fun inp => inp.fgGo)

/-- The edges at which the foreground engine takes a micro-step. -/
def goEdges (l : List EdgeIn) : List EdgeIn := l.filter (fun inp => inp.fgGo)

/-- What R202 step 4 and 5 make of the draws from there on: the event once the line has read high and one more
micro-step delivers it; none while the button is held. -/
def heldEvent (b : Button) : List EdgeIn → Option InputEvent
  | [] => none
  | x :: rest => if level b x then (if rest = [] then none else some (eventOf b)) else heldEvent b rest

/-- What R202 steps 2 and 3 make of the draws after the button `b` was chosen. -/
def pressedEvent (b : Button) : List EdgeIn → Option InputEvent
  | _ :: x :: rest => if level b x then (if rest = [] then none else some .none) else heldEvent b rest
  | _ => none

/-- The event POLL reports for the edges at which it takes its micro-steps, `none` while it has not completed
(R202 to R206). -/
def pollEvent : List EdgeIn → Option InputEvent
  | [] => none
  | a :: rest =>
    if a.btnConfirmN = false then pressedEvent .confirm rest
    else if a.btnIncrementN = false then pressedEvent .increment rest
    else if rest = [] then none else some .none

/-- Whether POLL has waited `T_DEB` by the end of the edges at which it takes its micro-steps (R202, R203). -/
def pollWaits : List EdgeIn → Bool
  | a :: _ :: _ => !(a.btnConfirmN && a.btnIncrementN)
  | _ => false

/-! ## What an operation leaves -/

/-- `t` is `s` after a run of listed edges, `used`, that change the registers to `regs`, record `recs` on the
pins, which the display sees as `nts`, and complete the operations `done`. -/
structure State.ranTo (s t : State) (used : List EdgeIn) (regs : Regs) (recs : List PinRec) (nts : List NT)
    (done : List Mark) : Prop where
  inputs : s.inputs = used ++ t.inputs
  cycle : t.cycle = s.cycle + used.length
  params : t.params = s.params
  regs : t.regs = regs
  trace : t.trace = s.trace ++ recs
  transactions : t.transactions = s.transactions ++ nts
  marks : t.marks = s.marks ++ done

/-- `t` is `s` after the operation `i` has completed in `n` micro-steps after its acceptance: the registers are
those the tick agent's pulses alone would leave, changed by `effect`, and by nothing else. -/
def State.completed (s t : State) (i : Instr) (n : Nat) (effect : Regs → Regs) (recs : List PinRec)
    (nts : List NT) : Prop :=
  ∃ used, (goEdges used.tail).length = n ∧
    s.ranTo t used (effect (s.regs.pulses s.params (ticksIn used))) recs nts [.completed (encode i)]

/-- `t` is `s` after a refused word (R241): it is accepted and completes in one micro-step; the registers are those
the tick agent's pulses alone would leave, the pins are not touched, and the refusal is marked. -/
def State.refusedTo (s t : State) (w : Word) (why : RefuseReason) : Prop :=
  ∃ used, (goEdges used.tail).length = 1 ∧
    s.ranTo t used (s.regs.pulses s.params (ticksIn used)) [] [] [.refused w why]

/-- The pins after the last nibble `n` of an operation with register-select `rs`. -/
def pinsLeft (rs : Bool) (n : Nibble) (r : Regs) : Regs :=
  { r with lcdRs := rs, lcdRw := false, lcdE := false, lcdDb := n }

/-- An edge without its tick pulse. -/
def noTickEdge (inp : EdgeIn) : EdgeIn := { inp with tick := false }

/-- The same state with no tick pulse on any listed edge. -/
def State.noTicks (s : State) : State := { s with inputs := s.inputs.map noTickEdge }

/-! ## The invariant -/

/-- The strobe's level after a list of micro-steps that begins with it low. -/
def strobeAfter (l : List Micro) : Bool :=
  l.foldl (fun v m => match m with
    | .e x => x
    | _ => v) false

/-- The strobe's level that the foreground engine's position calls for (R122): low between operations (R120). -/
def State.strobeDue (s : State) : Bool :=
  match s.regs.fg with
  | .idle => false
  | .refusing _ _ => false
  | .busy w k => strobeAfter ((stepsAt s.params w).take k)

/-- The debounce machine's position in POLL's micro-step `k` (R208). -/
def pollFits (k : Nat) (st : InState) : Bool :=
  match k, st with
  | 0, .idle => true
  | 1, .settle _ => true
  | 2, .resample _ => true
  | 3, .hold _ => true
  | 4, .hold _ => true
  | 5, .idle => true
  | 5, .resample _ => true
  | _, _ => false

/-- `in_state` agrees with `fg`: `IN_IDLE` whenever no POLL is in progress (R31), else as R208 has it. -/
def State.inputFits (s : State) : Bool :=
  match s.regs.fg with
  | .idle => s.regs.inState == .idle
  | .refusing _ _ => s.regs.inState == .idle
  | .busy w k => if decode w = .instr .poll then pollFits k s.regs.inState else s.regs.inState == .idle

/-- A micro-step that writes a bit of its own operation. -/
def Micro.isCe : Micro → Bool
  | .ce _ => true
  | _ => false

/-- The operation in progress meets its contract, until it has written its own bit; a refused one does not (R242). -/
def State.contractMet (s : State) : Bool :=
  match s.regs.fg with
  | .idle => true
  | .refusing w why => wordRefusal w s.regs == some why
  | .busy w k => ((stepsAt s.params w).take k).any Micro.isCe || (wordRefusal w s.regs).isNone

/-- The sound states: what holds in every state a run from reset reaches. -/
structure State.Sound (s : State) : Prop where
  /-- the parameters meet R9's constraints -/
  params : s.params.valid = true
  /-- ClockTime is valid (R36) -/
  clock : s.regs.ct.valid = true
  /-- AlarmTime is valid (R36) -/
  alarm : s.regs.alarm.valid = true
  /-- `TICKCNT < TICK_DIV` between events (R36) -/
  count : s.regs.tickCnt < s.params.tickDiv
  /-- before TSTART nothing has been counted (R165) and the second is 0 (R275) -/
  stopped : s.regs.tickEn = false → s.regs.tickCnt = 0 ∧ s.regs.ct.second = 0x00#8
  /-- the driver always writes (R34, R120) -/
  writes : s.regs.lcdRw = false
  /-- the strobe is as the position calls for; low when idle (R120, R122) -/
  strobe : s.regs.lcdE = s.strobeDue
  /-- the position names a micro-step that can be taken (R35) -/
  position : s.lost = false
  /-- `in_state` agrees with the position (R31) -/
  input : s.inputFits = true
  /-- no operation is in progress against its contract (R241, R242) -/
  contract : s.contractMet = true
  /-- the pins hold their last written value: what the trace says (R34, R120, R121) -/
  pins : s.regs.wire = Wire.low.afterAll s.trace

end Sys2Proof.Machine
end

