-- ==== Sys2Proof/Certificates/Slice0/Obligations.lean ====
section
/-! DEFINITION. The statements for the provers, in the order of OBLIGATIONS.json. -/

open Sys2Proof Sys2Proof.Machine

/-! ## Encoding -/

/-- Words written out from R92 and from the spec's vectors V-DEC decode as they say there. -/
def Obligations.WrittenOutWordsDecode : Prop :=
  decode 0x10000000#32 = .instr .tstart ∧
  decode 0x10000001#32 = .reserved .unusedField ∧
  decode 0x20000000#32 = .instr (.cfgent .clock) ∧
  decode 0x20000001#32 = .instr (.cfgent .alarm) ∧
  decode 0x20000002#32 = .reserved .unusedField ∧
  decode 0x30000000#32 = .instr .poll ∧
  decode 0x40000000#32 = .instr .linit ∧
  decode 0x500000FF#32 = .instr (.wcmd 0xFF#8) ∧
  decode 0x50000100#32 = .reserved .unusedField ∧
  decode 0x60000041#32 = .instr (.wdat 0x41#8) ∧
  decode 0x70000000#32 = .instr .lclr ∧
  decode 0x80000001#32 = .instr .goto1 ∧
  decode 0x80000002#32 = .instr .goto2 ∧
  decode 0x80000003#32 = .reserved .lineNumber ∧
  decode 0x90120000#32 = .instr (.wtime 0x12#8 0x00#8 0x00#8) ∧
  decode 0x91000000#32 = .reserved .reservedField ∧
  decode 0x00000000#32 = .reserved .unassignedOpcode ∧
  decode 0xA0000000#32 = .reserved .unassignedOpcode

/-- Decode and encode agree in both directions: every well-formed instruction comes back, with every operand, and
a word that decodes to an instruction is the one word of that instruction. -/
def Obligations.DecodeAndEncodeAgree : Prop :=
  (∀ i : Instr, i.wellFormed = true → decode (encode i) = .instr i) ∧
    ∀ (w : Word) (i : Instr), decode w = .instr i → encode i = w

/-- R92: a word decodes to an instruction exactly when some row of the map selects it, the row then is the one with
that instruction's mnemonic, the operands are the fields the map names, and no two rows select one word. -/
def Obligations.DecodingFollowsTheOperationMap : Prop :=
  (∀ w : Word, (∃ i, decode w = .instr i) ↔ wordWellFormed w = true) ∧
  (∀ (w : Word) (i : Instr), decode w = .instr i →
    ∀ r ∈ operationMap, (r.selects w = true ↔ r.mnemonic = i.mnemonic)) ∧
  (∀ (w : Word) (t : Target), decode w = .instr (.cfgent t) → (t = .alarm ↔ w.getLsbD 0 = true)) ∧
  (∀ (w : Word) (b : Byte), decode w = .instr (.wcmd b) → b = cField w) ∧
  (∀ (w : Word) (b : Byte), decode w = .instr (.wdat b) → b = cField w) ∧
  (∀ (w : Word) (h m s : Byte), decode w = .instr (.wtime h m s) → h = aField w ∧ m = bField w ∧ s = cField w) ∧
  operationMap.Pairwise (fun r q => ∀ w, ¬ (r.selects w = true ∧ q.selects w = true))

/-! ## Reset -/

/-- R38: the reset value of every state element. -/
def Obligations.ResetValuesAreTheTable : Prop :=
  State.reset.regs.ct.hour = 0x12#8 ∧ State.reset.regs.ct.minute = 0x00#8 ∧ State.reset.regs.ct.second = 0x00#8 ∧
  State.reset.regs.ct.mer.code = 0#1 ∧ State.reset.regs.alarm.hour = 0x12#8 ∧
  State.reset.regs.alarm.minute = 0x00#8 ∧ State.reset.regs.alarm.mer.code = 0#1 ∧ State.reset.regs.tickCnt = 0 ∧
  State.reset.regs.tickEn = false ∧ State.reset.regs.ddInited = false ∧ State.reset.regs.lcdRs = false ∧
  State.reset.regs.lcdRw = false ∧ State.reset.regs.lcdE = false ∧ State.reset.regs.lcdDb = 0x0#4 ∧
  State.reset.regs.inState = .idle ∧ State.reset.regs.cfgState = .idle ∧ State.reset.regs.cfgTarget = .clock ∧
  State.reset.regs.ev = .none ∧ State.reset.regs.fg = .idle

/-- R270, R272: at an edge with `rst = 1`, whatever else was due in whatever state, a step and a presented
operation alike leave the reset values; no completion is given, and in that cycle `op_ready` and `op_done` are 0 (that the
model's own records stay, with one more for the pins, is log 10). -/
def Obligations.ResetEdgeOverridesEverything : Prop :=
  ∀ s : State, (nextInput s).rst = true →
    s.opReady = false ∧ s.opDone = false ∧
    step s = .next { s with regs := Regs.reset, inputs := s.inputs.tail, cycle := s.cycle + 1,
                            trace := s.trace ++ [.reset] } ∧
    ∀ i : Instr, exec i s = step s

/-- The state after reset is sound, with `alarm_match = 1` (R271); its parameters are the free ones of log 4. -/
def Obligations.ResetIsSound : Prop := State.reset.Sound ∧ State.reset.regs.alarmMatch = true

/-! ## The step -/

/-- An idle core at which the host presents a word that decodes to an instruction, at an edge without reset, runs
that instruction. -/
def Obligations.StepRunsTheDecodedOperation : Prop :=
  ∀ (s : State) (i : Instr), s.regs.fg = .idle → (nextInput s).opValid = true →
    decode (nextInput s).opWord = .instr i → step s = exec i s

/-- Every step is a run of single clock edges, at least one, and exactly one where no input is listed; it does not
go past an edge that leaves the core idle. So nothing happens in a step but what the edges do (the model's
granularity is log 1). -/
def Obligations.StepIsARunOfClockEdges : Prop :=
  ∀ s t : State, step s = .next t →
    ∃ n, 1 ≤ n ∧ n ≤ max 1 s.inputs.length ∧ t = clockEdge^[n] s ∧
      ∀ m, 1 ≤ m → m < n → (clockEdge^[m] s).regs.fg ≠ .idle

/-- The headline invariant: from every sound state a step answers a next state (it never stops), and that state is
sound: valid times, `TICKCNT` below `TICK_DIV`, the pins as the trace says and never reading, the strobe low
between operations, a position that names a micro-step, no operation in progress against its contract. -/
def Obligations.SoundStatesStepToSoundStates : Prop :=
  ∀ s : State, s.Sound → ∃ t, step s = .next t ∧ t.Sound

/-- The only states a step stops in are those whose position names no micro-step, and there a reset still helps
(the model's choice, log 9). -/
def Obligations.OnlyALostPositionStops : Prop :=
  ∀ s : State,
    ((s.lost = true ∧ (nextInput s).rst = false) → step s = .fault .lostPosition) ∧
    (¬ (s.lost = true ∧ (nextInput s).rst = false) → ∃ t, step s = .next t)

/-- No step changes a parameter, and the model's records only grow (logs 4, 10). -/
def Obligations.StepsKeepParametersAndRecords : Prop :=
  ∀ s t : State, step s = .next t →
    t.params = s.params ∧ s.trace <+: t.trace ∧ s.marks <+: t.marks ∧ s.cycle < t.cycle

/-! ## The operation port -/

/-- A busy core ignores `op_valid` and `op_word` (R62, U26). -/
def Obligations.BusyCoreIgnoresRequests : Prop :=
  ∀ (s : State) (inp : EdgeIn) (rest : List EdgeIn) (v : Bool) (w : Word), s.regs.fg ≠ .idle →
    s.inputs = inp :: rest →
    clockEdge { s with inputs := { inp with opValid := v, opWord := w } :: rest } = clockEdge s

/-- With no request an idle core stays idle; only the tick agent acts (R62). -/
def Obligations.IdleCoreWaitsForARequest : Prop :=
  ∀ s : State, s.regs.fg = .idle → (nextInput s).opValid = false → (nextInput s).rst = false →
    step s = .next { s with
      regs := if (nextInput s).tick then s.regs.tickPulse s.params else s.regs
      inputs := s.inputs.tail
      cycle := s.cycle + 1 }

/-- A completion is recorded at exactly the edges at which `op_done` is 1, one at each, and the core is idle after
them (R62). -/
def Obligations.CompletionsAreOpDonePulses : Prop :=
  ∀ s : State,
    (s.opDone = true → (clockEdge s).regs.fg = .idle ∧ ∃ m, (clockEdge s).marks = s.marks ++ [m]) ∧
    (s.opDone = false → (clockEdge s).marks = s.marks)

/-! ## Refusal -/

/-- A reserved word presented to an idle core is accepted and refused: no register changes but by the tick agent, no
pin moves, and it completes with its mark (R93, R241). -/
def Obligations.ReservedWordsAreRefused : Prop :=
  ∀ (s : State) (why : ReservedWord), s.givesSteps 1 → (nextInput s).opValid = true →
    decode (nextInput s).opWord = .reserved why →
    ∃ t, step s = .next t ∧ s.refusedTo t (nextInput s).opWord (.reserved why)

/-- A request that breaks a contract is refused (R242 (b), (c), (d)): every display operation before LINIT, a
second LINIT, CFGENT inside a wizard. -/
def Obligations.BrokenContractsAreRefused : Prop :=
  ∀ s : State, s.givesSteps 1 →
    (s.regs.ddInited = false →
      (∀ b, ∃ t, exec (.wcmd b) s = .next t ∧ s.refusedTo t (encode (.wcmd b)) .notInitialised) ∧
      (∀ b, ∃ t, exec (.wdat b) s = .next t ∧ s.refusedTo t (encode (.wdat b)) .notInitialised) ∧
      (∃ t, exec .lclr s = .next t ∧ s.refusedTo t (encode .lclr) .notInitialised) ∧
      (∃ t, exec .goto1 s = .next t ∧ s.refusedTo t (encode .goto1) .notInitialised) ∧
      (∃ t, exec .goto2 s = .next t ∧ s.refusedTo t (encode .goto2) .notInitialised) ∧
      (∀ h m c, ∃ t, exec (.wtime h m c) s = .next t ∧ s.refusedTo t (encode (.wtime h m c)) .notInitialised)) ∧
    (s.regs.ddInited = true →
      ∃ t, exec .linit s = .next t ∧ s.refusedTo t (encode .linit) .alreadyInitialised) ∧
    (s.regs.cfgState ≠ .idle →
      ∀ t', ∃ t, exec (.cfgent t') s = .next t ∧ s.refusedTo t (encode (.cfgent t')) .wizardInProgress)

/-- The complete list of refused requests, checked at acceptance against the state at that edge: a word that
matches no row, a display operation when the display is not initialised, LINIT when it is, CFGENT inside a wizard, and
nothing else; TSTART and POLL never are, and nothing but `dd_inited` and `cfg_state` is looked at. Two clauses are the
model's choice and no rule's: that a reserved word is named reserved, and never not initialised, when both apply
(log 21), and that a refused word's position is `Fg.refusing` (log 8). -/
def Obligations.RefusalsAreTheListedOnes : Prop :=
  (∀ (w : Word) (r : Regs),
    ((∃ why, wordRefusal w r = some (.reserved why)) ↔ wordWellFormed w = false) ∧
    (wordRefusal w r = some .notInitialised ↔ r.ddInited = false ∧
      (opField w = 0x5#4 ∨ opField w = 0x6#4 ∨ opField w = 0x7#4 ∨ opField w = 0x8#4 ∨ opField w = 0x9#4) ∧
      wordWellFormed w = true) ∧
    (wordRefusal w r = some .alreadyInitialised ↔ r.ddInited = true ∧ w = 0x40000000#32) ∧
    (wordRefusal w r = some .wizardInProgress ↔ r.cfgState ≠ .idle ∧ (w = 0x20000000#32 ∨ w = 0x20000001#32)) ∧
    wordRefusal 0x10000000#32 r = none ∧ wordRefusal 0x30000000#32 r = none) ∧
  (∀ (w : Word) (r q : Regs), r.ddInited = q.ddInited → r.cfgState = q.cfgState → wordRefusal w r = wordRefusal w q) ∧
  (∀ s : State, s.regs.fg = .idle → (nextInput s).opValid = true → (nextInput s).rst = false →
    (clockEdge s).regs.fg = match wordRefusal (nextInput s).opWord s.regs with
      | some why => .refusing (nextInput s).opWord why
      | none => .busy (nextInput s).opWord 0)

/-! ## The clock engine -/

/-- R160: `bcd_inc` on every byte, its decimal law, and the rule's examples on bytes that are not BCD. -/
def Obligations.BcdIncCorrectsTheLowNibble : Prop :=
  (∀ v : Byte, (bcdInc v).toNat =
    if (v.toNat + 1) % 256 % 16 > 9 then ((v.toNat + 1) % 256 + 6) % 256 else (v.toNat + 1) % 256) ∧
  (∀ v : Byte, isBcd v = true → bcdVal v ≤ 98 → bcdInc v = toBcd (bcdVal v + 1)) ∧
  bcdInc 0x09#8 = 0x10#8 ∧ bcdInc 0x59#8 = 0x60#8 ∧ bcdInc 0x12#8 = 0x13#8 ∧
  bcdInc 0x0A#8 = 0x11#8 ∧ bcdInc 0x0F#8 = 0x10#8 ∧ bcdInc 0xF9#8 = 0x00#8 ∧ bcdInc 0xFF#8 = 0x00#8

/-- R162: a pulse while `tick_en = 0` has no effect; with `tick_en = 1` it counts, and the pulse that would make the
counter `TICK_DIV` clears it and advances the clock one second. -/
def Obligations.TickCountsToTickDiv : Prop :=
  ∀ (p : Params) (r : Regs), p.valid = true → r.tickCnt < p.tickDiv →
    (r.tickEn = false → r.tickPulse p = r) ∧
    (r.tickEn = true → r.tickCnt + 1 < p.tickDiv → r.tickPulse p = { r with tickCnt := r.tickCnt + 1 }) ∧
    (r.tickEn = true → r.tickCnt + 1 = p.tickDiv → r.tickPulse p = { r with tickCnt := 0, ct := r.ct.advsec })

/-- R173, R174: ADVSEC from every valid time, by the fields that roll over, and the rollovers of INCH and INCM. -/
def Obligations.SecondMinuteAndHourRollOver : Prop :=
  (∀ c : ClockTime, c.valid = true →
    (c.second ≠ 0x59#8 → c.advsec = { c with second := toBcd (bcdVal c.second + 1) }) ∧
    (c.second = 0x59#8 → c.minute ≠ 0x59#8 →
      c.advsec = { c with second := 0x00#8, minute := toBcd (bcdVal c.minute + 1) }) ∧
    (c.second = 0x59#8 → c.minute = 0x59#8 → c.hour ≠ 0x12#8 →
      c.advsec = { c with second := 0x00#8, minute := 0x00#8, hour := toBcd (bcdVal c.hour + 1) }) ∧
    (c.second = 0x59#8 → c.minute = 0x59#8 → c.hour = 0x12#8 →
      c.advsec = { hour := 0x01#8, minute := 0x00#8, second := 0x00#8, mer := c.mer.toggle })) ∧
  (∀ (r : Regs) (t : Target), validHour (r.hourOf t) = true →
    r.inch t = r.setHourOf t (if r.hourOf t = 0x12#8 then 0x01#8 else toBcd (bcdVal (r.hourOf t) + 1)) ∧
    (r.inch t).merOf t = r.merOf t) ∧
  (∀ (r : Regs) (t : Target), validSixty (r.minuteOf t) = true →
    r.incm t = r.setMinuteOf t (if r.minuteOf t = 0x59#8 then 0x00#8 else toBcd (bcdVal (r.minuteOf t) + 1)) ∧
    (r.incm t).hourOf t = r.hourOf t)

/-- R170: ADVSEC keeps ClockTime valid, and INCH, INCM and TOGM keep their target valid. -/
def Obligations.ValidTimesStayValid : Prop :=
  (∀ c : ClockTime, c.valid = true → c.advsec.valid = true) ∧
  (∀ (r : Regs) (t : Target), r.targetValid t = true →
    (r.inch t).targetValid t = true ∧ (r.incm t).targetValid t = true ∧ (r.togm t).targetValid t = true)

/-- R171: ADVSEC permutes the valid ClockTime values in a single cycle of 86,400; half-way round only the meridiem
differs. -/
def Obligations.AdvsecIsOneCycleOf86400 : Prop :=
  (∀ c : ClockTime, c.valid = true →
    c.advsec.valid = true ∧
    ClockTime.advsec^[86400] c = c ∧
    ClockTime.advsec^[43200] c = { c with mer := c.mer.toggle } ∧
    ∀ n, 0 < n → n < 86400 → ClockTime.advsec^[n] c ≠ c) ∧
  ∀ c d : ClockTime, c.valid = true → d.valid = true → ∃ n, n < 86400 ∧ ClockTime.advsec^[n] c = d

/-- R172: with the tick enabled, any `TICK_DIV` consecutive TICK events contain exactly one ADVSEC and leave the
counter where it was; the second changes by 1 modulo 60, with its carry into the minute and the minute's into the
hour. -/
def Obligations.TickDivTicksAreOneSecond : Prop :=
  ∀ (p : Params) (r : Regs), p.valid = true → r.tickEn = true → r.tickCnt < p.tickDiv →
    r.pulses p p.tickDiv = { r with ct := r.ct.advsec } ∧
    (r.ct.valid = true →
      bcdVal r.ct.advsec.second = (bcdVal r.ct.second + 1) % 60 ∧
      bcdVal r.ct.advsec.minute = (bcdVal r.ct.minute + (bcdVal r.ct.second + 1) / 60) % 60 ∧
      bcdVal r.ct.advsec.hour =
        (bcdVal r.ct.hour + (bcdVal r.ct.minute + (bcdVal r.ct.second + 1) / 60) / 60 - 1) % 12 + 1)

/-- R73: the TICK event of an edge is applied first, at every edge; the rule's two orders from `12:59:59`, and its
TSTART at the edge of a pulse, which is ignored. -/
def Obligations.TickComesFirstAtASharedEdge : Prop :=
  (∀ (s : State) (inp : EdgeIn) (rest : List EdgeIn), s.inputs = inp :: rest → inp.rst = false → inp.tick = true →
    clockEdge s = clockEdge { s with regs := s.regs.tickPulse s.params, inputs := noTickEdge inp :: rest }) ∧
  (∀ (r : Regs) (mer : Meridiem),
    r.ct = { hour := 0x12#8, minute := 0x59#8, second := 0x59#8, mer := mer } →
    ({ r with ct := r.ct.advsec }.incm .clock).ct =
      { hour := 0x01#8, minute := 0x01#8, second := 0x00#8, mer := mer.toggle } ∧
    (r.incm .clock).ct.advsec = { hour := 0x12#8, minute := 0x01#8, second := 0x00#8, mer := mer }) ∧
  (∀ s : State, s.regs.fg = .busy (encode .tstart) 0 → s.regs.tickEn = false → (nextInput s).rst = false →
    (nextInput s).fgGo = true →
    (clockEdge s).regs = { s.regs with tickEn := true, fg := .busy (encode .tstart) 1 })

/-- R248: a pulse changes only `TICKCNT` and the ClockTime registers; and a whole step with the pulses left out
differs from the step with them in nothing else, so the outcome of a display operation and of a POLL's
debouncing is independent of ticks. -/
def Obligations.TicksChangeOnlyTheClock : Prop :=
  (∀ (p : Params) (r : Regs),
    r.tickPulse p = { r with tickCnt := (r.tickPulse p).tickCnt, ct := (r.tickPulse p).ct }) ∧
  ∀ s t : State, s.inputs ≠ [] → step s = .next t →
    ∃ t', step s.noTicks = .next t' ∧
      t' = { t.noTicks with regs := { t.regs with ct := t'.regs.ct, tickCnt := t'.regs.tickCnt } }

/-! ## Alarm -/

/-- R176: `alarm_match` is 1 exactly when hour, minute and meridiem agree, on the port in every state; it does not
look at the second; at reset it is 1. -/
def Obligations.AlarmMatchComparesHourMinuteMeridiem : Prop :=
  (∀ s : State, s.outputs.alarmMatch = true ↔
    s.regs.ct.hour = s.regs.alarm.hour ∧ s.regs.ct.minute = s.regs.alarm.minute ∧
      s.regs.ct.mer = s.regs.alarm.mer) ∧
  (∀ (r : Regs) (v : Byte), ({ r with ct := { r.ct with second := v } } : Regs).alarmMatch = r.alarmMatch) ∧
  State.reset.outputs.alarmMatch = true

/-- R177: a match does not depend on the second; from the ADVSEC that produces second 0 of the matching minute, `alarm_match` stays 1 for 60 seconds, and
the 60th ADVSEC after it ends it. -/
def Obligations.AlarmStaysForTheWholeMinute : Prop :=
  ∀ r : Regs, r.ct.valid = true → r.ct.second = 0x00#8 → r.alarmMatch = true →
    (∀ v, ({ r with ct := { r.ct with second := v } } : Regs).alarmMatch = true) ∧
    (∀ n, n < 60 → ({ r with ct := ClockTime.advsec^[n] r.ct } : Regs).alarmMatch = true) ∧
    ({ r with ct := ClockTime.advsec^[60] r.ct } : Regs).alarmMatch = false

/-! ## What each operation does -/

/-- TSTART (R165): with room for its two micro-steps it completes from every idle state, never refused. Pulses up to
and at the edge of its first micro-step meet the old `tick_en`, the later ones find it set; nothing else changes. -/
def Obligations.TstartStartsTheTick : Prop :=
  ∀ s : State, s.givesSteps 2 →
    ∃ t before after, exec .tstart s = .next t ∧
      (goEdges before.tail).length = 1 ∧ (before.tail.getLast?.map (fun inp => inp.fgGo)) = some true ∧
      (goEdges after).length = 1 ∧
      s.ranTo t (before ++ after)
        ({ s.regs.pulses s.params (ticksIn before) with tickEn := true }.pulses s.params (ticksIn after))
        [] [] [.completed (encode .tstart)]

/-- CFGENT t (R210): outside a wizard it enters the hour phase for `t` and changes no time register but by ticks. -/
def Obligations.CfgentEntersTheHourPhase : Prop :=
  ∀ (s : State) (target : Target), s.givesSteps 2 → s.regs.cfgState = .idle →
    ∃ t, exec (.cfgent target) s = .next t ∧
      s.completed t (.cfgent target) 2 (fun r => { r with cfgTarget := target, cfgState := .setHour }) [] []

/-- POLL (R202, R204 to R206, R209), from every idle state and for every list of draws without a reset. When the
draws bring it to an event `e`, it completes with exactly `deliver(e)` applied to the registers the pulses leave;
when they do not, every draw is used and it is still in progress, with nothing changed but its own position. The
settle wait is recorded exactly when a button was selected. -/
def Obligations.PollDeliversTheDebouncedEvent : Prop :=
  ∀ s : State, s.regs.fg = .idle → s.inputs ≠ [] → (∀ inp ∈ s.inputs, inp.rst = false) →
    let draws := goEdges s.inputs.tail
    let recs := if pollWaits draws then [PinRec.wait .deb s.params.tDeb] else []
    (∀ e, pollEvent draws = some e →
      ∃ t used, exec .poll s = .next t ∧ pollEvent (goEdges used.tail) = some e ∧
        s.ranTo t used ((s.regs.pulses s.params (ticksIn used)).deliver e) recs [] [.completed (encode .poll)]) ∧
    (pollEvent draws = none →
      ∃ t k st, exec .poll s = .next t ∧
        s.ranTo t s.inputs
          { s.regs.pulses s.params (ticksIn s.inputs) with fg := .busy (encode .poll) k, inState := st } recs [] [])

/-- R203: with both lines high at its first draw, POLL is two micro-steps, reports NONE and contains no wait. -/
def Obligations.PollWithNothingPressedIsImmediate : Prop :=
  ∀ (s : State) (a : EdgeIn) (more : List EdgeIn), s.givesSteps 2 →
    goEdges s.inputs.tail = a :: more → a.btnConfirmN = true → a.btnIncrementN = true →
    ∃ t, exec .poll s = .next t ∧
      s.completed t .poll 2 (fun r => { r with ev := .none, inState := .idle }) [] []

/-- R206: in the release wait, as long as every draw of the button is low, a step leaves the foreground where it is
(only the tick agent acts); once a draw is high and one more micro-step follows, it delivers the event once. -/
def Obligations.HeldButtonBlocksUntilRelease : Prop :=
  ∀ (s : State) (b : Button), s.regs.fg = .busy (encode .poll) 3 → s.regs.inState = .hold b → s.inputs ≠ [] →
    (∀ inp ∈ s.inputs, inp.rst = false) →
    ((∀ inp ∈ goEdges s.inputs, level b inp = false) →
      ∃ t, step s = .next t ∧
        s.ranTo t s.inputs (s.regs.pulses s.params (ticksIn s.inputs)) [] [] []) ∧
    (∀ e, heldEvent b (goEdges s.inputs) = some e →
      e = eventOf b ∧
      ∃ t used, step s = .next t ∧ s.ranTo t used ((s.regs.pulses s.params (ticksIn used)).deliver e) [] []
        [.completed (encode .poll)])

/-- WCMD, WDAT, LCLR, GOTO 1, GOTO 2 (R126 to R129): with the display initialised, 14 micro-steps (12
where `T_SU = 0` removes the set-ups, R122, log 11) that send one byte, high nibble first, with register-select low
for a command and high for data; only the pins change. -/
def Obligations.OneByteOperationsSendTheirByte : Prop :=
  ∀ (s : State) (b : Byte), s.givesSteps (oneByteSize s.params) → s.regs.ddInited = true →
    (∃ t, exec (.wcmd b) s = .next t ∧
      s.completed t (.wcmd b) (oneByteSize s.params) (pinsLeft false (loNibble b)) (byteRecs s.params false b)
        [nibNT false (hiNibble b), nibNT false (loNibble b)]) ∧
    (∃ t, exec (.wdat b) s = .next t ∧
      s.completed t (.wdat b) (oneByteSize s.params) (pinsLeft true (loNibble b)) (byteRecs s.params true b)
        [nibNT true (hiNibble b), nibNT true (loNibble b)]) ∧
    (∃ t, exec .lclr s = .next t ∧
      s.completed t .lclr (oneByteSize s.params) (pinsLeft false 0x1#4) (byteRecs s.params false 0x01#8)
        [nibNT false 0x0#4, nibNT false 0x1#4]) ∧
    (∃ t, exec .goto1 s = .next t ∧
      s.completed t .goto1 (oneByteSize s.params) (pinsLeft false (loNibble s.params.cmdLine1))
        (byteRecs s.params false s.params.cmdLine1)
        [nibNT false (hiNibble s.params.cmdLine1), nibNT false (loNibble s.params.cmdLine1)]) ∧
    (∃ t, exec .goto2 s = .next t ∧
      s.completed t .goto2 (oneByteSize s.params) (pinsLeft false (loNibble s.params.cmdLine2))
        (byteRecs s.params false s.params.cmdLine2)
        [nibNT false (hiNibble s.params.cmdLine2), nibNT false (loNibble s.params.cmdLine2)])

/-- LINIT (R125): with the display not yet initialised, 82 micro-steps (70 where `T_SU = 0`, log 11): the twelve
transactions in the rule's order with its waits, then `dd_inited <- 1`; only the pins and `dd_inited` change. -/
def Obligations.LinitSendsTheResetSequence : Prop :=
  ∀ s : State, s.givesSteps (linitSize s.params) → s.regs.ddInited = false →
    ∃ t, exec .linit s = .next t ∧
      s.completed t .linit (linitSize s.params)
        (fun r => { pinsLeft false (loNibble s.params.cmdHome) r with ddInited := true }) (linitRecs s.params) (linitNT s.params)

/-- WTIME h, m, s (R130): with the display initialised, 105 micro-steps (89 where `T_SU = 0`, log 11) that send the
eight characters as data, whatever the operands are; only the pins change, and ClockTime is not read. -/
def Obligations.WtimeSendsTheText : Prop :=
  ∀ (s : State) (h m c : Byte), s.givesSteps (wtimeSize s.params) → s.regs.ddInited = true →
    let text := [0x30#8 + (hiNibble h).setWidth 8, 0x30#8 + (loNibble h).setWidth 8, 0x3A#8,
      0x30#8 + (hiNibble m).setWidth 8, 0x30#8 + (loNibble m).setWidth 8, 0x3A#8,
      0x30#8 + (hiNibble c).setWidth 8, 0x30#8 + (loNibble c).setWidth 8]
    ∃ t, exec (.wtime h m c) s = .next t ∧
      s.completed t (.wtime h m c) (wtimeSize s.params)
        (pinsLeft true (loNibble (0x30#8 + (loNibble c).setWidth 8))) (text.flatMap (byteRecs s.params true)) (text.flatMap (byteNT true))

/-- R134: strobe pulses and micro-steps of every display operation, the primitives' sizes, the pulses of a `WSTR` of
`k` characters, and the least duration of `BYTE` with its six single-cycle steps. The rule's counts of micro-steps are
with the set-up step; that they are one less for each nibble where `T_SU = 0` removes it (R122) is an inference, log 11. -/
def Obligations.DisplayOperationSizes : Prop :=
  ∀ (p : Params) (rs : Bool) (n : Nibble) (b h m c : Byte) (text : List Byte),
    (strobePulses (linitSteps p) = 12 ∧ strobePulses (wcmdSteps p b) = 2 ∧ strobePulses (wdatSteps p b) = 2 ∧
      strobePulses (lclrSteps p) = 2 ∧ strobePulses (goto1Steps p) = 2 ∧ strobePulses (goto2Steps p) = 2 ∧
      strobePulses (wtimeSteps p h m c) = 16 ∧
      ((wstr p text).map (fun i => strobePulses (stepsOf p i))).sum =
        2 * (text.takeWhile (fun x => x != p.strTerm)).length) ∧
    ((nibSteps p rs n).length = nibSize p ∧ (byteSteps p rs b).length = byteSize p ∧
      (wcmdSteps p b).length = oneByteSize p ∧ (wdatSteps p b).length = oneByteSize p ∧
      (lclrSteps p).length = oneByteSize p ∧ (goto1Steps p).length = oneByteSize p ∧
      (goto2Steps p).length = oneByteSize p ∧ (wtimeSteps p h m c).length = wtimeSize p ∧
      (linitSteps p).length = linitSize p) ∧
    (p.tSu ≠ 0 →
      nibSize p = 6 ∧ byteSize p = 13 ∧ oneByteSize p = 14 ∧ wtimeSize p = 105 ∧ linitSize p = 82) ∧
    (p.tSu = 0 → nibSize p = 5 ∧ byteSize p = 11 ∧ oneByteSize p = 12 ∧ wtimeSize p = 89 ∧ linitSize p = 70) ∧
    minDuration p (byteSteps p rs b) = 2 * (p.tSu + p.tEw + p.tEh) + p.tByte ∧
    (byteSteps p rs b).countP (fun x => x.delay == none) = 6 ∧
    (byteSteps p rs b).countP (fun x => x == .e true) = 2 ∧ (byteSteps p rs b).countP (fun x => x == .e false) = 2

/-- The driver never reads the display (R120): every transaction it ever sends has `rw = 0`. -/
def Obligations.EveryTransactionIsAWrite : Prop :=
  ∀ s t : State, s.Sound → (∀ x ∈ s.transactions, x.rw = false) → step s = .next t →
    ∀ x ∈ t.transactions, x.rw = false

/-! ## The configuration machine -/

/-- R211: the transition table, every cell, with the clock-engine operation it names on the wizard's target; a
delivery applies it once, to the current phase. -/
def Obligations.ConfigurationTable : Prop :=
  ∀ r : Regs,
    (∀ e, r.deliver e = { r.configure e with ev := e, inState := .idle, fg := .idle }) ∧
    (r.cfgState = .idle → ∀ e, r.configure e = r) ∧
    r.configure .none = r ∧
    (r.cfgState = .setHour → r.configure .increment = r.inch r.cfgTarget ∧
      r.configure .confirm = { r with cfgState := .setMin }) ∧
    (r.cfgState = .setMin → r.configure .increment = r.incm r.cfgTarget ∧
      r.configure .confirm = { r with cfgState := .setMer }) ∧
    (r.cfgState = .setMer → r.configure .increment = r.togm r.cfgTarget ∧
      r.configure .confirm = { r with cfgState := .idle })

/-- R215: from the hour phase, after any events delivered one after another, the phase is the one the number of
CONFIRM events among them says; three of them end the wizard, and no number of others does. -/
def Obligations.ThreeConfirmsEndAWizard : Prop :=
  ∀ (events : List InputEvent) (r : Regs), r.cfgState = .setHour →
    (r.deliverAll events).cfgState =
      match events.count .confirm with
      | 0 => .setHour
      | 1 => .setMin
      | 2 => .setMer
      | _ => .idle

/-- R215, R32: from a sound state, at any edge without reset, `cfg_state` leaves a phase only to the next one, and only as a POLL's
own delivery of a press delivers CONFIRM; and it leaves IDLE only to the hour phase, as a CFGENT in progress enters it. -/
def Obligations.PhasesChangeOnlyByConfirm : Prop :=
  ∀ s : State, s.Sound → (nextInput s).rst = false → (clockEdge s).regs.cfgState ≠ s.regs.cfgState →
    match s.regs.cfgState with
    | .idle => (clockEdge s).regs.cfgState = .setHour ∧
        ∃ w k t, s.regs.fg = .busy w k ∧ decode w = .instr (.cfgent t) ∧ (clockEdge s).regs.cfgTarget = t
    | .setHour => (clockEdge s).regs.cfgState = .setMin ∧ (clockEdge s).regs.ev = .confirm ∧ s.opDone = true ∧
        s.currentMicro = some .deliverPress
    | .setMin => (clockEdge s).regs.cfgState = .setMer ∧ (clockEdge s).regs.ev = .confirm ∧ s.opDone = true ∧
        s.currentMicro = some .deliverPress
    | .setMer => (clockEdge s).regs.cfgState = .idle ∧ (clockEdge s).regs.ev = .confirm ∧ s.opDone = true ∧
        s.currentMicro = some .deliverPress

/-- The source's end-to-end wizard (R219): alarm 12:00 AM, five increments, confirm, three, confirm, one, confirm
give 05:03 PM and an idle machine, with ClockTime unchanged. -/
def Obligations.WizardExampleSetsTheAlarm : Prop :=
  ∀ r : Regs, r.alarm = { hour := 0x12#8, minute := 0x00#8, mer := .am } →
    let r' := (r.enterWizard .alarm).deliverAll wizardExample
    r'.alarm = { hour := 0x05#8, minute := 0x03#8, mer := .pm } ∧ r'.cfgState = .idle ∧ r'.ct = r.ct

/-! ## Who writes what -/

/-- R37, R218, R249: at an edge without reset, AlarmTime changes only as a POLL delivers INCREMENT inside a set-alarm
wizard; ClockTime changes, at an edge without a tick pulse, only so inside a set-time wizard, and never its second;
`TICKCNT` changes only by the tick. -/
def Obligations.TimesAreWrittenOnlyByTheirOwners : Prop :=
  ∀ s : State, (nextInput s).rst = false →
    ((clockEdge s).regs.alarm ≠ s.regs.alarm →
      s.regs.cfgTarget = .alarm ∧ s.regs.cfgState ≠ .idle ∧ s.currentMicro = some .deliverPress ∧
        s.opDone = true ∧ (clockEdge s).regs.ev = .increment) ∧
    ((nextInput s).tick = false → (clockEdge s).regs.ct ≠ s.regs.ct →
      s.regs.cfgTarget = .clock ∧ s.regs.cfgState ≠ .idle ∧ s.currentMicro = some .deliverPress ∧
        s.opDone = true ∧ (clockEdge s).regs.ev = .increment) ∧
    ((nextInput s).tick = false →
      (clockEdge s).regs.ct.second = s.regs.ct.second ∧ (clockEdge s).regs.tickCnt = s.regs.tickCnt)

/-- R29, R30: at an edge without reset `tick_en` and `dd_inited` are never cleared, and each is set only by the
operation that owns it. -/
def Obligations.EnableBitsAreSetOnlyByTheirOperations : Prop :=
  ∀ s : State, (nextInput s).rst = false →
    (s.regs.tickEn = true → (clockEdge s).regs.tickEn = true) ∧
    (s.regs.tickEn = false → (clockEdge s).regs.tickEn = true →
      ∃ k, s.regs.fg = .busy (encode .tstart) k) ∧
    (s.regs.ddInited = true → (clockEdge s).regs.ddInited = true) ∧
    (s.regs.ddInited = false → (clockEdge s).regs.ddInited = true →
      ∃ k, s.regs.fg = .busy (encode .linit) k)

/-- R120: at an edge without reset the pins, and the trace of them, change only while a display operation is in
progress (POLL's wait is recorded too, and moves no pin). -/
def Obligations.PinsBelongToDisplayOperations : Prop :=
  ∀ s : State, (nextInput s).rst = false →
    (∀ w k i, s.regs.fg = .busy w k → decode w = .instr i → i = .tstart ∨ (∃ t, i = .cfgent t) ∨ i = .poll) →
    (clockEdge s).regs.wire = s.regs.wire ∧ (clockEdge s).transactions = s.transactions

/-- R95, R96, R97: every code on its output port, in every state, and no other value there (`ev` never shows `0b11`);
the toggle is `mer xor 1`; and CFGENT's operand has the codes of `cfg_target`. -/
def Obligations.OutputCodes : Prop :=
  (∀ s : State,
    ((s.outputs.ctMer = 0#1 ↔ s.regs.ct.mer = .am) ∧ (s.outputs.ctMer = 1#1 ↔ s.regs.ct.mer = .pm)) ∧
    ((s.outputs.atMer = 0#1 ↔ s.regs.alarm.mer = .am) ∧ (s.outputs.atMer = 1#1 ↔ s.regs.alarm.mer = .pm)) ∧
    ((s.outputs.ev = 0b00#2 ↔ s.regs.ev = .none) ∧ (s.outputs.ev = 0b01#2 ↔ s.regs.ev = .confirm) ∧
      (s.outputs.ev = 0b10#2 ↔ s.regs.ev = .increment) ∧ s.outputs.ev ≠ 0b11#2) ∧
    ((s.outputs.cfgState = 0b00#2 ↔ s.regs.cfgState = .idle) ∧
      (s.outputs.cfgState = 0b01#2 ↔ s.regs.cfgState = .setHour) ∧
      (s.outputs.cfgState = 0b10#2 ↔ s.regs.cfgState = .setMin) ∧
      (s.outputs.cfgState = 0b11#2 ↔ s.regs.cfgState = .setMer)) ∧
    ((s.outputs.cfgTarget = 0#1 ↔ s.regs.cfgTarget = .clock) ∧
      (s.outputs.cfgTarget = 1#1 ↔ s.regs.cfgTarget = .alarm))) ∧
  (∀ m : Meridiem, m.toggle.code = m.code ^^^ 1#1) ∧
  decode (0x2#4 ++ 0#4 ++ 0x00#8 ++ 0x00#8 ++ 0#7 ++ 0#1) = .instr (.cfgent .clock) ∧
  decode (0x2#4 ++ 0#4 ++ 0x00#8 ++ 0x00#8 ++ 0#7 ++ 1#1) = .instr (.cfgent .alarm)

/-- R122: the micro-steps of `NIB`, without the second where `T_SU = 0` removes it; whatever the pins were, they are one
transaction `NT(rs, 0, n)`; its strobe and its hold are as long as the rule says; no micro-step of it writes a register
other than the pins' (and the position), after the first only the strobe moves, `e(v)` writes `v` to it, and a wait moves
no pin. -/
def Obligations.NibbleTransaction : Prop :=
  ∀ (p : Params) (rs : Bool) (n : Nibble),
    (p.tSu ≠ 0 → nibSteps p rs n = [.pins rs false n, .wait .su, .e true, .wait .ew, .e false, .wait .eh]) ∧
    (p.tSu = 0 → nibSteps p rs n = [.pins rs false n, .e true, .wait .ew, .e false, .wait .eh]) ∧
    (∀ x : Wire, transactionsFrom x (recordsOf p (nibSteps p rs n)) = [{ rs := rs, rw := false, n := n }]) ∧
    (p.valid = true → 230 ≤ durationOf p .ew ∧ 10 ≤ durationOf p .eh) ∧
    ∀ m ∈ nibSteps p rs n, ∀ (w : Word) (k : Nat) (inp : EdgeIn) (s : State),
      let r := (microStep m w k inp s).regs
      r = { s.regs with lcdRs := r.lcdRs, lcdRw := r.lcdRw, lcdE := r.lcdE, lcdDb := r.lcdDb, fg := .busy w (k + 1) } ∧
      (m = .pins rs false n → r.lcdRs = rs ∧ r.lcdRw = false ∧ r.lcdDb = n ∧ r.lcdE = s.regs.lcdE) ∧
      (m ≠ .pins rs false n → r.lcdRs = s.regs.lcdRs ∧ r.lcdRw = s.regs.lcdRw ∧ r.lcdDb = s.regs.lcdDb) ∧
      (∀ v, m = .e v → r.lcdE = v) ∧ (∀ d, m = .wait d → r.lcdE = s.regs.lcdE)
end

