-- ==== Sys2Proof/Laws/Decode.lean ====
section
/-! SUPPORT. The fields of a word put together, and a word as its fields (30_encoding.md R90, R91). -/

namespace Sys2Proof

@[simp] theorem opField_mkWord (o : Nibble) (a b c : Byte) : opField (mkWord o a b c) = o := by
  unfold opField mkWord
  ext i hi
  interval_cases i <;> simp

@[simp] theorem zField_mkWord (o : Nibble) (a b c : Byte) : zField (mkWord o a b c) = 0#4 := by
  unfold zField mkWord
  ext i hi
  interval_cases i <;> simp

@[simp] theorem aField_mkWord (o : Nibble) (a b c : Byte) : aField (mkWord o a b c) = a := by
  unfold aField mkWord
  ext i hi
  interval_cases i <;> simp

@[simp] theorem bField_mkWord (o : Nibble) (a b c : Byte) : bField (mkWord o a b c) = b := by
  unfold bField mkWord
  ext i hi
  interval_cases i <;> simp

@[simp] theorem cField_mkWord (o : Nibble) (a b c : Byte) : cField (mkWord o a b c) = c := by
  unfold cField mkWord
  ext i hi
  interval_cases i <;> simp

/-- A word whose field `z` is zero is made of its four other fields. -/
theorem mkWord_fields (w : Word) (h : zField w = 0#4) :
    mkWord (opField w) (aField w) (bField w) (cField w) = w := by
  have hz (j : Nat) (hj : j < 4) : w.getLsbD (24 + j) = false := by
    have := congrArg (fun v => BitVec.getLsbD v j) h
    simpa [zField, hj] using this
  have h0 := hz 0 (by omega)
  have h1 := hz 1 (by omega)
  have h2 := hz 2 (by omega)
  have h3 := hz 3 (by omega)
  unfold opField aField bField cField mkWord
  ext i hi
  interval_cases i <;> simp_all

/-- Two words with the same five fields are the same word. -/
theorem word_ext {v w : Word} (ho : opField v = opField w) (hz : zField v = zField w) (ha : aField v = aField w)
    (hb : bField v = bField w) (hc : cField v = cField w) : v = w := by
  have bits {k n : Nat} (h : v.extractLsb' k n = w.extractLsb' k n) (j : Nat) (hj : j < n) :
      v.getLsbD (k + j) = w.getLsbD (k + j) := by
    have := congrArg (fun x => BitVec.getLsbD x j) h
    simpa [hj] using this
  apply BitVec.eq_of_getLsbD_eq
  intro i hi
  by_cases h8 : i < 8
  · simpa using bits hc i h8
  by_cases h16 : i < 16
  · simpa [show 8 + (i - 8) = i by omega] using bits hb (i - 8) (by omega)
  by_cases h24 : i < 24
  · simpa [show 16 + (i - 16) = i by omega] using bits ha (i - 16) (by omega)
  by_cases h28 : i < 28
  · simpa [show 24 + (i - 24) = i by omega] using bits hz (i - 24) (by omega)
  · simpa [show 28 + (i - 28) = i by omega] using bits ho (i - 28) (by omega)

/-- The fields of a masked word are the masked fields. -/
theorem fields_and (v m : Word) :
    opField (v &&& m) = (opField v &&& opField m) ∧ zField (v &&& m) = (zField v &&& zField m) ∧
      aField (v &&& m) = (aField v &&& aField m) ∧ bField (v &&& m) = (bField v &&& bField m) ∧
      cField (v &&& m) = (cField v &&& cField m) := by
  refine ⟨?_, ?_, ?_, ?_, ?_⟩ <;> (ext i hi; simp [opField, zField, aField, bField, cField])

/-- A row selects a word field by field. -/
theorem selects_iff (r : TableRow) (w : Word) :
    r.selects w = true ↔ (opField w &&& opField r.mask) = opField r.pattern ∧
      (zField w &&& zField r.mask) = zField r.pattern ∧ (aField w &&& aField r.mask) = aField r.pattern ∧
      (bField w &&& bField r.mask) = bField r.pattern ∧ (cField w &&& cField r.mask) = cField r.pattern := by
  obtain ⟨ho, hz, ha, hb, hc⟩ := fields_and w r.mask
  rw [TableRow.selects, beq_iff_eq]
  constructor
  · intro h
    rw [← ho, ← hz, ← ha, ← hb, ← hc, h]
    exact ⟨rfl, rfl, rfl, rfl, rfl⟩
  · rintro ⟨h1, h2, h3, h4, h5⟩
    exact word_ext (ho.trans h1) (hz.trans h2) (ha.trans h3) (hb.trans h4) (hc.trans h5)

@[simp] theorem targetOf_targetByte (t : Target) : targetOf ((targetByte t).getLsbD 0) = t := by
  cases t <;> rfl

/-- The one bit of `C` that CFGENT uses is its target (R91). -/
theorem targetByte_targetOf (c : Byte) (h : c.extractLsb' 1 7 = 0#7) : targetByte (targetOf (c.getLsbD 0)) = c := by
  revert h
  revert c
  decide

end Sys2Proof
end

