-- ==== Sys2Proof/Laws/State.lean ====
section
/-! SUPPORT. What each update of the state leaves in each field: one lemma per field per update. -/

namespace Sys2Proof.Machine

/-! ### `State.consume` -/

@[simp] theorem consume_regs (s : State) : s.consume.regs = s.regs := rfl
@[simp] theorem consume_params (s : State) : s.consume.params = s.params := rfl
@[simp] theorem consume_inputs (s : State) : s.consume.inputs = s.inputs.tail := rfl
@[simp] theorem consume_cycle (s : State) : s.consume.cycle = s.cycle + 1 := rfl
@[simp] theorem consume_trace (s : State) : s.consume.trace = s.trace := rfl
@[simp] theorem consume_marks (s : State) : s.consume.marks = s.marks := rfl

/-! ### `State.resetRegs` -/

@[simp] theorem resetRegs_regs (s : State) : s.resetRegs.regs = Regs.reset := rfl
@[simp] theorem resetRegs_params (s : State) : s.resetRegs.params = s.params := rfl
@[simp] theorem resetRegs_inputs (s : State) : s.resetRegs.inputs = s.inputs := rfl
@[simp] theorem resetRegs_cycle (s : State) : s.resetRegs.cycle = s.cycle := rfl
@[simp] theorem resetRegs_trace (s : State) : s.resetRegs.trace = s.trace ++ [.reset] := rfl
@[simp] theorem resetRegs_marks (s : State) : s.resetRegs.marks = s.marks := rfl

/-! ### `State.setPins` -/

@[simp] theorem setPins_regs (s : State) (rs rw : Bool) (d : Nibble) : (s.setPins rs rw d).regs = { s.regs with lcdRs := rs, lcdRw := rw, lcdDb := d } := rfl
@[simp] theorem setPins_params (s : State) (rs rw : Bool) (d : Nibble) : (s.setPins rs rw d).params = s.params := rfl
@[simp] theorem setPins_inputs (s : State) (rs rw : Bool) (d : Nibble) : (s.setPins rs rw d).inputs = s.inputs := rfl
@[simp] theorem setPins_cycle (s : State) (rs rw : Bool) (d : Nibble) : (s.setPins rs rw d).cycle = s.cycle := rfl
@[simp] theorem setPins_trace (s : State) (rs rw : Bool) (d : Nibble) : (s.setPins rs rw d).trace = s.trace ++ [.pins rs rw d] := rfl
@[simp] theorem setPins_marks (s : State) (rs rw : Bool) (d : Nibble) : (s.setPins rs rw d).marks = s.marks := rfl

/-! ### `State.setE` -/

@[simp] theorem setE_regs (s : State) (v : Bool) : (s.setE v).regs = { s.regs with lcdE := v } := rfl
@[simp] theorem setE_params (s : State) (v : Bool) : (s.setE v).params = s.params := rfl
@[simp] theorem setE_inputs (s : State) (v : Bool) : (s.setE v).inputs = s.inputs := rfl
@[simp] theorem setE_cycle (s : State) (v : Bool) : (s.setE v).cycle = s.cycle := rfl
@[simp] theorem setE_trace (s : State) (v : Bool) : (s.setE v).trace = s.trace ++ [.e v] := rfl
@[simp] theorem setE_marks (s : State) (v : Bool) : (s.setE v).marks = s.marks := rfl

/-! ### `State.recordWait` -/

@[simp] theorem recordWait_regs (s : State) (d : Delay) : (s.recordWait d).regs = s.regs := rfl
@[simp] theorem recordWait_params (s : State) (d : Delay) : (s.recordWait d).params = s.params := rfl
@[simp] theorem recordWait_inputs (s : State) (d : Delay) : (s.recordWait d).inputs = s.inputs := rfl
@[simp] theorem recordWait_cycle (s : State) (d : Delay) : (s.recordWait d).cycle = s.cycle := rfl
@[simp] theorem recordWait_trace (s : State) (d : Delay) : (s.recordWait d).trace = s.trace ++ [.wait d (durationOf s.params d)] := rfl
@[simp] theorem recordWait_marks (s : State) (d : Delay) : (s.recordWait d).marks = s.marks := rfl

/-! ### `State.goTo` -/

@[simp] theorem goTo_regs (s : State) (w : Word) (k : Nat) : (s.goTo w k).regs = { s.regs with fg := .busy w k } := rfl
@[simp] theorem goTo_params (s : State) (w : Word) (k : Nat) : (s.goTo w k).params = s.params := rfl
@[simp] theorem goTo_inputs (s : State) (w : Word) (k : Nat) : (s.goTo w k).inputs = s.inputs := rfl
@[simp] theorem goTo_cycle (s : State) (w : Word) (k : Nat) : (s.goTo w k).cycle = s.cycle := rfl
@[simp] theorem goTo_trace (s : State) (w : Word) (k : Nat) : (s.goTo w k).trace = s.trace := rfl
@[simp] theorem goTo_marks (s : State) (w : Word) (k : Nat) : (s.goTo w k).marks = s.marks := rfl

/-! ### `State.setIn` -/

@[simp] theorem setIn_regs (s : State) (st : InState) : (s.setIn st).regs = { s.regs with inState := st } := rfl
@[simp] theorem setIn_params (s : State) (st : InState) : (s.setIn st).params = s.params := rfl
@[simp] theorem setIn_inputs (s : State) (st : InState) : (s.setIn st).inputs = s.inputs := rfl
@[simp] theorem setIn_cycle (s : State) (st : InState) : (s.setIn st).cycle = s.cycle := rfl
@[simp] theorem setIn_trace (s : State) (st : InState) : (s.setIn st).trace = s.trace := rfl
@[simp] theorem setIn_marks (s : State) (st : InState) : (s.setIn st).marks = s.marks := rfl

/-! ### `State.mark` -/

@[simp] theorem mark_regs (s : State) (m : Mark) : (s.mark m).regs = s.regs := rfl
@[simp] theorem mark_params (s : State) (m : Mark) : (s.mark m).params = s.params := rfl
@[simp] theorem mark_inputs (s : State) (m : Mark) : (s.mark m).inputs = s.inputs := rfl
@[simp] theorem mark_cycle (s : State) (m : Mark) : (s.mark m).cycle = s.cycle := rfl
@[simp] theorem mark_trace (s : State) (m : Mark) : (s.mark m).trace = s.trace := rfl
@[simp] theorem mark_marks (s : State) (m : Mark) : (s.mark m).marks = s.marks ++ [m] := rfl

/-! ### `State.finish` -/

@[simp] theorem finish_regs (s : State) (m : Mark) : (s.finish m).regs = { s.regs with fg := .idle } := rfl
@[simp] theorem finish_params (s : State) (m : Mark) : (s.finish m).params = s.params := rfl
@[simp] theorem finish_inputs (s : State) (m : Mark) : (s.finish m).inputs = s.inputs := rfl
@[simp] theorem finish_cycle (s : State) (m : Mark) : (s.finish m).cycle = s.cycle := rfl
@[simp] theorem finish_trace (s : State) (m : Mark) : (s.finish m).trace = s.trace := rfl
@[simp] theorem finish_marks (s : State) (m : Mark) : (s.finish m).marks = s.marks ++ [m] := rfl

/-! ### `State.deliver` -/

@[simp] theorem deliver_regs (s : State) (w : Word) (e : InputEvent) : (s.deliver w e).regs = s.regs.deliver e := rfl
@[simp] theorem deliver_params (s : State) (w : Word) (e : InputEvent) : (s.deliver w e).params = s.params := rfl
@[simp] theorem deliver_inputs (s : State) (w : Word) (e : InputEvent) : (s.deliver w e).inputs = s.inputs := rfl
@[simp] theorem deliver_cycle (s : State) (w : Word) (e : InputEvent) : (s.deliver w e).cycle = s.cycle := rfl
@[simp] theorem deliver_trace (s : State) (w : Word) (e : InputEvent) : (s.deliver w e).trace = s.trace := rfl
@[simp] theorem deliver_marks (s : State) (w : Word) (e : InputEvent) : (s.deliver w e).marks = s.marks ++ [.completed w] := rfl

/-! ### `State.accept` -/

@[simp] theorem accept_params (s : State) (w : Word) (o : Option RefuseReason) : (s.accept w o).params = s.params := rfl
@[simp] theorem accept_inputs (s : State) (w : Word) (o : Option RefuseReason) : (s.accept w o).inputs = s.inputs := rfl
@[simp] theorem accept_cycle (s : State) (w : Word) (o : Option RefuseReason) : (s.accept w o).cycle = s.cycle := rfl
@[simp] theorem accept_trace (s : State) (w : Word) (o : Option RefuseReason) : (s.accept w o).trace = s.trace := rfl
@[simp] theorem accept_marks (s : State) (w : Word) (o : Option RefuseReason) : (s.accept w o).marks = s.marks := rfl
@[simp] theorem accept_regs_some (s : State) (w : Word) (why : RefuseReason) :
    (s.accept w (some why)).regs = { s.regs with fg := .refusing w why } := rfl
@[simp] theorem accept_regs_none (s : State) (w : Word) :
    (s.accept w none).regs = { s.regs with fg := .busy w 0 } := rfl

/-! ### `State.tickPart` -/

@[simp] theorem tickPart_regs (s : State) (inp : EdgeIn) :
    (s.tickPart inp).regs = if inp.tick then s.regs.tickPulse s.params else s.regs := by
  unfold State.tickPart; split <;> rfl
@[simp] theorem tickPart_params (s : State) (inp : EdgeIn) : (s.tickPart inp).params = s.params := by
  unfold State.tickPart; split <;> rfl
@[simp] theorem tickPart_inputs (s : State) (inp : EdgeIn) : (s.tickPart inp).inputs = s.inputs := by
  unfold State.tickPart; split <;> rfl
@[simp] theorem tickPart_cycle (s : State) (inp : EdgeIn) : (s.tickPart inp).cycle = s.cycle := by
  unfold State.tickPart; split <;> rfl
@[simp] theorem tickPart_trace (s : State) (inp : EdgeIn) : (s.tickPart inp).trace = s.trace := by
  unfold State.tickPart; split <;> rfl
@[simp] theorem tickPart_marks (s : State) (inp : EdgeIn) : (s.tickPart inp).marks = s.marks := by
  unfold State.tickPart; split <;> rfl

/-! ### `nextInput` -/

theorem nextInput_cons {s : State} {inp : EdgeIn} {rest : List EdgeIn} (h : s.inputs = inp :: rest) :
    nextInput s = inp := by
  simp [nextInput, h]

theorem nextInput_nil {s : State} (h : s.inputs = []) : nextInput s = Config.env s.cycle := by
  simp [nextInput, h]

end Sys2Proof.Machine
end

