-- ==== Sys2Proof/Laws/Ops.lean ====
section
/-! SUPPORT. What a tick pulse and the other register operations leave alone, and the arithmetic of one packed BCD
byte (41_clock_engine.md R160 to R174, 60_exceptions.md R248). -/

namespace Sys2Proof.Machine

/-! ## A pulse on `tick` changes only `TICKCNT` and `CT` (R248) -/

theorem tickPulse_eq (p : Params) (r : Regs) :
    r.tickPulse p = { r with ct := (r.tickPulse p).ct, tickCnt := (r.tickPulse p).tickCnt } := by
  unfold Regs.tickPulse Regs.tick
  split
  · dsimp only
    split <;> rfl
  · rfl

@[simp] theorem tickPulse_alarm (p : Params) (r : Regs) : (r.tickPulse p).alarm = r.alarm := by rw [tickPulse_eq]
@[simp] theorem tickPulse_tickEn (p : Params) (r : Regs) : (r.tickPulse p).tickEn = r.tickEn := by rw [tickPulse_eq]
@[simp] theorem tickPulse_ddInited (p : Params) (r : Regs) : (r.tickPulse p).ddInited = r.ddInited := by
  rw [tickPulse_eq]
@[simp] theorem tickPulse_lcdRs (p : Params) (r : Regs) : (r.tickPulse p).lcdRs = r.lcdRs := by rw [tickPulse_eq]
@[simp] theorem tickPulse_lcdRw (p : Params) (r : Regs) : (r.tickPulse p).lcdRw = r.lcdRw := by rw [tickPulse_eq]
@[simp] theorem tickPulse_lcdE (p : Params) (r : Regs) : (r.tickPulse p).lcdE = r.lcdE := by rw [tickPulse_eq]
@[simp] theorem tickPulse_lcdDb (p : Params) (r : Regs) : (r.tickPulse p).lcdDb = r.lcdDb := by rw [tickPulse_eq]
@[simp] theorem tickPulse_inState (p : Params) (r : Regs) : (r.tickPulse p).inState = r.inState := by
  rw [tickPulse_eq]
@[simp] theorem tickPulse_cfgState (p : Params) (r : Regs) : (r.tickPulse p).cfgState = r.cfgState := by
  rw [tickPulse_eq]
@[simp] theorem tickPulse_cfgTarget (p : Params) (r : Regs) : (r.tickPulse p).cfgTarget = r.cfgTarget := by
  rw [tickPulse_eq]
@[simp] theorem tickPulse_ev (p : Params) (r : Regs) : (r.tickPulse p).ev = r.ev := by rw [tickPulse_eq]
@[simp] theorem tickPulse_fg (p : Params) (r : Regs) : (r.tickPulse p).fg = r.fg := by rw [tickPulse_eq]

/-- With the tick disabled a pulse has no effect at all (R162). -/
theorem tickPulse_off (p : Params) {r : Regs} (h : r.tickEn = false) : r.tickPulse p = r := by
  simp [Regs.tickPulse, h]

/-- The tick reads and writes only `CT`, `TICKCNT` and `tick_en`: any other update may come first or last. -/
theorem tickPulse_comm (p : Params) (r : Regs) (f : Regs → Regs)
    (hen : (f r).tickEn = r.tickEn) (hct : (f r).ct = r.ct) (hcnt : (f r).tickCnt = r.tickCnt)
    (hf : ∀ c n, f { r with ct := c, tickCnt := n } = { f r with ct := c, tickCnt := n }) :
    f (r.tickPulse p) = (f r).tickPulse p := by
  rw [tickPulse_eq p r, hf, tickPulse_eq p (f r)]
  have hc : (r.tickPulse p).ct = ((f r).tickPulse p).ct := by
    unfold Regs.tickPulse Regs.tick
    rw [hen]
    split
    · simp only [hcnt, hct]
      split
      · rfl
      · simp
    · exact hct.symm
  have hn : (r.tickPulse p).tickCnt = ((f r).tickPulse p).tickCnt := by
    unfold Regs.tickPulse Regs.tick
    rw [hen]
    split
    · simp only [hcnt]
      split <;> rfl
    · exact hcnt.symm
  rw [hc, hn]

/-! ## Several pulses -/

@[simp] theorem pulses_zero (p : Params) (r : Regs) : r.pulses p 0 = r := rfl

theorem pulses_succ (p : Params) (n : Nat) (r : Regs) : r.pulses p (n + 1) = (r.tickPulse p).pulses p n := rfl

theorem pulses_add (p : Params) (m n : Nat) (r : Regs) : r.pulses p (m + n) = (r.pulses p m).pulses p n := by
  unfold Regs.pulses
  rw [Nat.add_comm, Function.iterate_add_apply]

theorem pulses_eq (p : Params) (n : Nat) (r : Regs) :
    r.pulses p n = { r with ct := (r.pulses p n).ct, tickCnt := (r.pulses p n).tickCnt } := by
  induction n generalizing r with
  | zero => rfl
  | succ n ih =>
    have h := ih (r.tickPulse p)
    rw [pulses_succ, h]
    simp

@[simp] theorem pulses_alarm (p : Params) (n : Nat) (r : Regs) : (r.pulses p n).alarm = r.alarm := by rw [pulses_eq]
@[simp] theorem pulses_tickEn (p : Params) (n : Nat) (r : Regs) : (r.pulses p n).tickEn = r.tickEn := by
  rw [pulses_eq]
@[simp] theorem pulses_ddInited (p : Params) (n : Nat) (r : Regs) : (r.pulses p n).ddInited = r.ddInited := by
  rw [pulses_eq]
@[simp] theorem pulses_lcdRs (p : Params) (n : Nat) (r : Regs) : (r.pulses p n).lcdRs = r.lcdRs := by rw [pulses_eq]
@[simp] theorem pulses_lcdRw (p : Params) (n : Nat) (r : Regs) : (r.pulses p n).lcdRw = r.lcdRw := by rw [pulses_eq]
@[simp] theorem pulses_lcdE (p : Params) (n : Nat) (r : Regs) : (r.pulses p n).lcdE = r.lcdE := by rw [pulses_eq]
@[simp] theorem pulses_lcdDb (p : Params) (n : Nat) (r : Regs) : (r.pulses p n).lcdDb = r.lcdDb := by rw [pulses_eq]
@[simp] theorem pulses_inState (p : Params) (n : Nat) (r : Regs) : (r.pulses p n).inState = r.inState := by
  rw [pulses_eq]
@[simp] theorem pulses_cfgState (p : Params) (n : Nat) (r : Regs) : (r.pulses p n).cfgState = r.cfgState := by
  rw [pulses_eq]
@[simp] theorem pulses_cfgTarget (p : Params) (n : Nat) (r : Regs) : (r.pulses p n).cfgTarget = r.cfgTarget := by
  rw [pulses_eq]
@[simp] theorem pulses_ev (p : Params) (n : Nat) (r : Regs) : (r.pulses p n).ev = r.ev := by rw [pulses_eq]
@[simp] theorem pulses_fg (p : Params) (n : Nat) (r : Regs) : (r.pulses p n).fg = r.fg := by rw [pulses_eq]

theorem pulses_off (p : Params) (n : Nat) {r : Regs} (h : r.tickEn = false) : r.pulses p n = r := by
  induction n with
  | zero => rfl
  | succ n ih => rw [pulses_succ, tickPulse_off p h, ih]

/-- Pulses and an update that commutes with each of them may come in either order. -/
theorem pulses_comm (p : Params) (f : Regs → Regs) (hf : ∀ r, f (r.tickPulse p) = (f r).tickPulse p) (n : Nat)
    (r : Regs) : f (r.pulses p n) = (f r).pulses p n := by
  induction n generalizing r with
  | zero => rfl
  | succ n ih => rw [pulses_succ, pulses_succ, ih, hf]

theorem pulses_setFg (p : Params) (n : Nat) (r : Regs) (x : Fg) :
    ({ r with fg := x } : Regs).pulses p n = { r.pulses p n with fg := x } :=
  (pulses_comm p (fun r => { r with fg := x })
    (fun r => tickPulse_comm p r (fun r => { r with fg := x }) rfl rfl rfl (fun _ _ => rfl)) n r).symm

theorem setFg_self {r : Regs} {x : Fg} (h : r.fg = x) : { r with fg := x } = r := by
  subst h; rfl

/-- Pulses before and after a position is taken up and left again are pulses. -/
theorem pulses_accepted (p : Params) (m n : Nat) {r : Regs} (x : Fg) (h : r.fg = .idle) :
    { ({ r.pulses p m with fg := x } : Regs).pulses p n with fg := .idle } = r.pulses p (m + n) := by
  rw [pulses_setFg, ← pulses_add]
  exact setFg_self (r := r.pulses p (m + n)) (by rw [pulses_fg, h])

theorem pulses_setIn (p : Params) (n : Nat) (r : Regs) (x : InState) :
    ({ r with inState := x } : Regs).pulses p n = { r.pulses p n with inState := x } :=
  (pulses_comm p (fun r => { r with inState := x })
    (fun r => tickPulse_comm p r (fun r => { r with inState := x }) rfl rfl rfl (fun _ _ => rfl)) n r).symm

/-- A tick pulse on a `tick` input of an edge, counted. -/
theorem tickPart_pulses (inp : EdgeIn) (s : State) :
    s.tickPart inp = { s with regs := s.regs.pulses s.params (ticksIn [inp]) } := by
  cases h : inp.tick <;> simp [State.tickPart, ticksIn, h, pulses_succ]

theorem ticksIn_append (l m : List EdgeIn) : ticksIn (l ++ m) = ticksIn l + ticksIn m := by
  simp [ticksIn]

@[simp] theorem ticksIn_nil : ticksIn [] = 0 := rfl

theorem ticksIn_cons (x : EdgeIn) (l : List EdgeIn) : ticksIn (x :: l) = ticksIn [x] + ticksIn l := by
  rw [← ticksIn_append]; rfl

/-! ## One packed BCD byte -/

/-- A valid minute or second is incremented decimally, or rolls over from 59 (R170, R174). -/
theorem validSixty_bcdInc : ∀ v : Byte, validSixty v = true →
    (0x59#8 < bcdInc v ↔ v = 0x59#8) ∧
      (v ≠ 0x59#8 → validSixty (bcdInc v) = true ∧ bcdVal (bcdInc v) = bcdVal v + 1) := by
  decide +kernel

/-- A valid hour is incremented decimally, or rolls over from 12 (R170, R173). -/
theorem validHour_bcdInc : ∀ h : Byte, validHour h = true →
    (0x12#8 < bcdInc h ↔ h = 0x12#8) ∧
      (h ≠ 0x12#8 → validHour (bcdInc h) = true ∧ bcdVal (bcdInc h) = bcdVal h + 1) := by
  decide +kernel

theorem validSixty_not_over : ∀ v : Byte, validSixty v = true → ¬ 0x59#8 < v := by decide +kernel

theorem validHour_not_over : ∀ h : Byte, validHour h = true → ¬ 0x12#8 < h := by decide +kernel

/-- INCM keeps a minute valid (R170). -/
theorem validSixty_nextMinute : ∀ v : Byte, validSixty v = true → validSixty (nextMinute v) = true := by
  decide +kernel

/-- INCH keeps an hour valid (R170). -/
theorem validHour_nextHour : ∀ h : Byte, validHour h = true → validHour (nextHour h) = true := by
  decide +kernel

end Sys2Proof.Machine
end

