-- ==== Sys2Proof/Laws/Foreground.lean ====
section
/-! SUPPORT. What an edge and a run of edges do, said once: one stalled stretch up to the next micro-step, and a whole
list of micro-steps that only write pins, wait or write a bit. -/

namespace Sys2Proof.Machine

/-! ## One edge -/

theorem runEdge_rst {s : State} (h : (nextInput s).rst = true) : runEdge s = s.consume.resetRegs := by
  simp [runEdge, h]

theorem runEdge_noRst {s : State} (h : (nextInput s).rst = false) :
    runEdge s = foreground (nextInput s) (s.consume.tickPart (nextInput s)) := by
  simp [runEdge, h]

theorem foreground_stall {inp : EdgeIn} (h : inp.fgGo = false) (s : State) : foreground inp s = s := by
  simp [foreground, h]

theorem foreground_idle (inp : EdgeIn) {s : State} (h : s.regs.fg = .idle) : foreground inp s = s := by
  unfold foreground; split
  · rw [h]
  · rfl

theorem foreground_refusing {inp : EdgeIn} (hgo : inp.fgGo = true) {s : State} {w : Word} {why : RefuseReason}
    (h : s.regs.fg = .refusing w why) : foreground inp s = s.finish (.refused w why) := by
  simp [foreground, hgo, h]

theorem foreground_busy {inp : EdgeIn} (hgo : inp.fgGo = true) {s : State} {w : Word} {k : Nat} {m : Micro}
    (h : s.regs.fg = .busy w k) (hm : (stepsAt s.params w)[k]? = some m) :
    foreground inp s = microStep m w k inp s := by
  simp [foreground, hgo, h, hm]

/-! ## Fields a micro-step never writes -/

@[simp] theorem microStep_inputs (m : Micro) (w : Word) (k : Nat) (inp : EdgeIn) (s : State) :
    (microStep m w k inp s).inputs = s.inputs := by
  cases m <;> simp [microStep, sampleStep, debounceStep, resampleStep, holdStep, deliverPressStep] <;>
    (repeat' split) <;> simp

@[simp] theorem microStep_params (m : Micro) (w : Word) (k : Nat) (inp : EdgeIn) (s : State) :
    (microStep m w k inp s).params = s.params := by
  cases m <;> simp [microStep, sampleStep, debounceStep, resampleStep, holdStep, deliverPressStep] <;>
    (repeat' split) <;> simp

@[simp] theorem microStep_cycle (m : Micro) (w : Word) (k : Nat) (inp : EdgeIn) (s : State) :
    (microStep m w k inp s).cycle = s.cycle := by
  cases m <;> simp [microStep, sampleStep, debounceStep, resampleStep, holdStep, deliverPressStep] <;>
    (repeat' split) <;> simp

theorem foreground_frame (inp : EdgeIn) (s : State) :
    (foreground inp s).inputs = s.inputs ∧ (foreground inp s).params = s.params ∧
      (foreground inp s).cycle = s.cycle := by
  unfold foreground
  split
  · split
    · exact ⟨rfl, rfl, rfl⟩
    · exact ⟨rfl, rfl, rfl⟩
    · split <;> simp
  · exact ⟨rfl, rfl, rfl⟩

/-- Every edge uses up one listed input and keeps the parameters. -/
theorem runEdge_frame (s : State) :
    (runEdge s).inputs = s.inputs.tail ∧ (runEdge s).params = s.params ∧ (runEdge s).cycle = s.cycle + 1 := by
  by_cases h : (nextInput s).rst = true
  · rw [runEdge_rst h]; simp
  · rw [runEdge_noRst (by simpa using h)]
    obtain ⟨h1, h2, h3⟩ := foreground_frame (nextInput s) (s.consume.tickPart (nextInput s))
    exact ⟨by simpa using h1, by simpa using h2, by simpa using h3⟩

/-! ## Running on -/

theorem settleOn_idle (l : List EdgeIn) {s : State} (h : s.regs.fg = .idle) : settleOn l s = s := by
  cases l <;> simp [settleOn, h]

theorem settleOn_cons (x : EdgeIn) (l : List EdgeIn) {s : State} (h : s.regs.fg ≠ .idle) :
    settleOn (x :: l) s = settleOn l (runEdge s) := by
  simp [settleOn, h]

/-- `s` after edges at which only the tick agent acts. -/
def State.stalled (s : State) (used : List EdgeIn) : State :=
  { s with
    regs := s.regs.pulses s.params (ticksIn used)
    inputs := s.inputs.drop used.length
    cycle := s.cycle + used.length }

@[simp] theorem stalled_regs (s : State) (used : List EdgeIn) :
    (s.stalled used).regs = s.regs.pulses s.params (ticksIn used) := rfl
@[simp] theorem stalled_params (s : State) (used : List EdgeIn) : (s.stalled used).params = s.params := rfl
@[simp] theorem stalled_inputs (s : State) (used : List EdgeIn) :
    (s.stalled used).inputs = s.inputs.drop used.length := rfl
@[simp] theorem stalled_cycle (s : State) (used : List EdgeIn) : (s.stalled used).cycle = s.cycle + used.length := rfl
@[simp] theorem stalled_trace (s : State) (used : List EdgeIn) : (s.stalled used).trace = s.trace := rfl
@[simp] theorem stalled_marks (s : State) (used : List EdgeIn) : (s.stalled used).marks = s.marks := rfl

theorem stalled_nil (s : State) : s.stalled [] = s := by
  simp [State.stalled]

theorem stalled_stalled (s : State) (a b : List EdgeIn) : (s.stalled a).stalled b = s.stalled (a ++ b) := by
  simp [State.stalled, ticksIn_append, pulses_add, Nat.add_assoc]

/-- The tick agent's part of one listed edge. -/
theorem consume_tickPart {s : State} {x : EdgeIn} {l : List EdgeIn} (h : s.inputs = x :: l) :
    s.consume.tickPart x = s.stalled [x] := by
  rw [tickPart_pulses]
  simp [State.stalled, State.consume, h]

/-- With no micro-step left in the list, only the tick agent acts on it. -/
theorem settleOn_noGo (l : List EdgeIn) (s : State) (hl : s.inputs = l) (hrst : ∀ x ∈ l, x.rst = false)
    (hgo : ∀ x ∈ l, x.fgGo = false) (hfg : s.regs.fg ≠ .idle) : settleOn l s = s.stalled l := by
  induction l generalizing s with
  | nil => simp [settleOn, stalled_nil]
  | cons x l ih =>
    have hn := nextInput_cons hl
    rw [settleOn_cons x l hfg, runEdge_noRst (by rw [hn]; exact hrst x (by simp)), hn,
      foreground_stall (hgo x (by simp)), consume_tickPart hl,
      ih (s.stalled [x]) (by simp [hl]) (fun y hy => hrst y (by simp [hy])) (fun y hy => hgo y (by simp [hy]))
        (by simpa using hfg), stalled_stalled]
    rfl

/-- Up to the next micro-step only the tick agent acts; then the foreground engine takes it. -/
theorem settleOn_go (before : List EdgeIn) (x : EdgeIn) (rest : List EdgeIn) (s : State)
    (hl : s.inputs = before ++ x :: rest) (hrst : ∀ y ∈ before ++ [x], y.rst = false)
    (hstall : ∀ y ∈ before, y.fgGo = false) (hfg : s.regs.fg ≠ .idle) :
    settleOn (before ++ x :: rest) s = settleOn rest (foreground x (s.stalled (before ++ [x]))) := by
  induction before generalizing s with
  | nil =>
    have hl' : s.inputs = x :: rest := by simpa using hl
    have hn := nextInput_cons hl'
    rw [List.nil_append, settleOn_cons x rest hfg, runEdge_noRst (by rw [hn]; exact hrst x (by simp)), hn,
      consume_tickPart hl']
    rfl
  | cons y before ih =>
    have hl' : s.inputs = y :: (before ++ x :: rest) := by simpa using hl
    have hn := nextInput_cons hl'
    rw [List.cons_append, settleOn_cons y _ hfg, runEdge_noRst (by rw [hn]; exact hrst y (by simp)), hn,
      foreground_stall (hstall y (by simp)), consume_tickPart hl',
      ih (s.stalled [y]) (by simp [hl']) (fun z hz => hrst z (List.mem_cons_of_mem _ hz))
        (fun z hz => hstall z (by simp [hz])) (by simpa using hfg), stalled_stalled]
    rfl

/-- A list with a micro-step in it splits at the first. -/
theorem split_at_go (l : List EdgeIn) (h : 1 ≤ l.countP (fun x => x.fgGo)) :
    ∃ before x rest, l = before ++ x :: rest ∧ (∀ y ∈ before, y.fgGo = false) ∧ x.fgGo = true := by
  induction l with
  | nil => simp at h
  | cons y l ih =>
    by_cases hy : y.fgGo = true
    · exact ⟨[], y, l, rfl, by simp, hy⟩
    · have hy' : y.fgGo = false := by simpa using hy
      obtain ⟨b, x, r, rfl, hb, hx⟩ := ih (by simpa [hy'] using h)
      exact ⟨y :: b, x, r, rfl, by simpa [hy'] using hb, hx⟩

/-- The edges of the foreground engine in a list split at its first micro-step. -/
theorem goEdges_split {before : List EdgeIn} {x : EdgeIn} (rest : List EdgeIn) (hb : ∀ y ∈ before, y.fgGo = false)
    (hx : x.fgGo = true) : goEdges (before ++ x :: rest) = x :: goEdges rest := by
  have : before.filter (fun y => y.fgGo) = [] := by
    rw [List.filter_eq_nil_iff]; intro y hy; simp [hb y hy]
  simp [goEdges, this, hx]

/-! ## Lists of plain micro-steps -/

/-- A micro-step that goes on to the next number and does not touch what the tick uses. -/
def Micro.plain : Micro → Bool
  | .pins _ _ _ => true
  | .e _ => true
  | .wait _ => true
  | .ce .tickOn => false
  | .ce (.enter _) => true
  | .ce .inited => true
  | .sample => false
  | .debounce => false
  | .resample => false
  | .hold => false
  | .deliverPress => false
  | .deliverNone => false
  | .done => false

/-- What a plain micro-step writes. -/
def Micro.effect (m : Micro) (r : Regs) : Regs :=
  match m with
  | .pins rs rw d => { r with lcdRs := rs, lcdRw := rw, lcdDb := d }
  | .e v => { r with lcdE := v }
  | .ce op => ceStep op r
  | _ => r

/-- What a list of plain micro-steps writes. -/
def effectOf (l : List Micro) (r : Regs) : Regs := l.foldl (fun r m => m.effect r) r

theorem microStep_plain {m : Micro} (h : m.plain = true) (w : Word) (k : Nat) (inp : EdgeIn) (s : State) :
    microStep m w k inp s = { s with
      regs := { m.effect s.regs with fg := .busy w (k + 1) }
      trace := s.trace ++ m.records s.params } := by
  cases m with
  | ce op => cases op <;> simp [microStep, Micro.effect, Micro.records, State.goTo, ceStep, Regs.enterWizard]
  | _ => simp_all [Micro.plain, microStep, Micro.effect, Micro.records, State.goTo, State.setPins, State.setE,
      State.recordWait]

theorem effect_pulses {m : Micro} (h : m.plain = true) (p : Params) (n : Nat) (r : Regs) :
    m.effect (r.pulses p n) = (m.effect r).pulses p n := by
  apply pulses_comm
  intro r
  cases m with
  | ce op =>
    cases op with
    | tickOn => simp [Micro.plain] at h
    | enter t => exact tickPulse_comm p r (Micro.effect (.ce (.enter t))) rfl rfl rfl (fun _ _ => rfl)
    | inited => exact tickPulse_comm p r (Micro.effect (.ce .inited)) rfl rfl rfl (fun _ _ => rfl)
  | pins a b d => exact tickPulse_comm p r (Micro.effect (.pins a b d)) rfl rfl rfl (fun _ _ => rfl)
  | e v => exact tickPulse_comm p r (Micro.effect (.e v)) rfl rfl rfl (fun _ _ => rfl)
  | _ => rfl

theorem effect_setFg {m : Micro} (h : m.plain = true) (r : Regs) (x : Fg) :
    m.effect { r with fg := x } = { m.effect r with fg := x } := by
  cases m with
  | ce op => cases op <;> rfl
  | _ => rfl

theorem effectOf_pulses {l : List Micro} (h : ∀ m ∈ l, m.plain = true) (p : Params) (n : Nat) (r : Regs) :
    effectOf l (r.pulses p n) = (effectOf l r).pulses p n := by
  induction l generalizing r with
  | nil => rfl
  | cons m l ih =>
    simp only [effectOf, List.foldl_cons] at ih ⊢
    rw [effect_pulses (h m (by simp)), ih (fun x hx => h x (by simp [hx]))]

theorem effectOf_setFg {l : List Micro} (h : ∀ m ∈ l, m.plain = true) (r : Regs) (x : Fg) :
    effectOf l { r with fg := x } = { effectOf l r with fg := x } := by
  induction l generalizing r with
  | nil => rfl
  | cons m l ih =>
    simp only [effectOf, List.foldl_cons] at ih ⊢
    rw [effect_setFg (h m (by simp)), ih (fun y hy => h y (by simp [hy]))]

theorem effectOf_append (l m : List Micro) (r : Regs) : effectOf (l ++ m) r = effectOf m (effectOf l r) := by
  simp [effectOf]

theorem recordsOf_append (p : Params) (l m : List Micro) : recordsOf p (l ++ m) = recordsOf p l ++ recordsOf p m := by
  simp [recordsOf]

/-- A list of plain micro-steps and its `done`, given enough edges, runs to the end: it writes what its micro-steps
write, records what they record, and marks the completion; meanwhile the tick agent takes every pulse. -/
theorem settleOn_plain (L : List Micro) (hL : ∀ m ∈ L, m.plain = true) (w : Word) :
    ∀ (k : Nat) (l : List EdgeIn) (s : State), s.inputs = l → s.regs.fg = .busy w k →
      (stepsAt s.params w).drop k = L ++ [.done] → (∀ x ∈ l, x.rst = false) →
      L.length + 1 ≤ l.countP (fun x => x.fgGo) →
      ∃ used rest, l = used ++ rest ∧ (goEdges used).length = L.length + 1 ∧ settleOn l s =
        { regs := { effectOf L (s.regs.pulses s.params (ticksIn used)) with fg := .idle }
          params := s.params
          inputs := rest
          cycle := s.cycle + used.length
          trace := s.trace ++ recordsOf s.params L
          marks := s.marks ++ [.completed w] } := by
  induction L with
  | nil =>
    intro k l s hl hfg hsteps hrst hcount
    obtain ⟨before, x, rest, rfl, hb, hx⟩ := split_at_go l (by simpa using hcount)
    have hk : (stepsAt s.params w)[k]? = some .done := by
      have := congrArg (fun q => q[0]?) hsteps
      simpa using this
    refine ⟨before ++ [x], rest, by simp, by rw [goEdges_split [] hb hx]; rfl, ?_⟩
    rw [settleOn_go before x rest s hl (fun y hy => hrst y (by simp at hy ⊢; tauto)) hb (by simp [hfg]),
      foreground_busy hx (w := w) (k := k) (m := .done) (by simpa using hfg) (by simpa using hk)]
    rw [settleOn_idle rest (by simp [microStep])]
    simp [microStep, State.finish, State.mark, effectOf, recordsOf, hl]
  | cons m L ih =>
    intro k l s hl hfg hsteps hrst hcount
    obtain ⟨before, x, rest, rfl, hb, hx⟩ := split_at_go l (by rw [List.length_cons] at hcount; omega)
    have hk : (stepsAt s.params w)[k]? = some m := by
      have := congrArg (fun q => q[0]?) hsteps
      simpa using this
    have hdrop : (stepsAt s.params w).drop (k + 1) = L ++ [.done] := by
      have := congrArg (fun q => q.drop 1) hsteps
      simpa [List.drop_drop] using this
    have hb0 : before.countP (fun x => x.fgGo) = 0 := by
      rw [List.countP_eq_zero]; intro y hy; simp [hb y hy]
    rw [settleOn_go before x rest s hl (fun y hy => hrst y (by simp at hy ⊢; tauto)) hb (by simp [hfg]),
      foreground_busy hx (w := w) (k := k) (m := m) (by simpa using hfg) (by simpa using hk),
      microStep_plain (hL m (by simp))]
    obtain ⟨used, rest', rfl, hgo, h⟩ := ih (fun y hy => hL y (by simp [hy])) (k + 1) rest
      { s.stalled (before ++ [x]) with
        regs := { m.effect (s.stalled (before ++ [x])).regs with fg := .busy w (k + 1) }
        trace := (s.stalled (before ++ [x])).trace ++ m.records (s.stalled (before ++ [x])).params }
      (by simp [hl]) rfl (by simpa using hdrop) (fun y hy => hrst y (by simp at hy ⊢; tauto))
      (by simp [List.countP_append, hb0, hx] at hcount; omega)
    refine ⟨before ++ [x] ++ used, rest', by simp, ?_, ?_⟩
    · rw [List.append_assoc, List.singleton_append, goEdges_split used hb hx, List.length_cons, hgo, List.length_cons]
    rw [h]
    have hplain := hL m (by simp)
    have hrestPlain : ∀ y ∈ L, y.plain = true := fun y hy => hL y (by simp [hy])
    simp only [stalled_regs, stalled_params, stalled_cycle, stalled_trace, stalled_marks]
    congr 1
    · rw [pulses_setFg, effectOf_setFg hrestPlain, ← effect_pulses hplain, ← pulses_add, ← ticksIn_append]
      rfl
    · simp [Nat.add_assoc, Nat.add_comm 1]
    · simp [recordsOf]

end Sys2Proof.Machine
end

