-- ==== Sys2Proof/Laws/PerInstr.lean ====
section
/-! SUPPORT. For every instruction: the row of R92's table with its mnemonic selects its word, and no row before
it in the table does. -/

namespace Sys2Proof.Laws.FirstRow

/-- The first row that selects the word of `i` is the one with the mnemonic of `i` (30_encoding.md R92). -/
def Statement (i : Instr) : Prop :=
  (operationMap.find? (fun r => r.selects (encode i))).map TableRow.mnemonic = some i.mnemonic

/-- Whether a row selects a word put together from its fields, computed on the fields. -/
theorem selects_mkWord (r : TableRow) (o : Nibble) (a b c : Byte) :
    r.selects (mkWord o a b c) =
      (o &&& opField r.mask == opField r.pattern && 0#4 == zField r.pattern && a &&& aField r.mask == aField r.pattern
        && b &&& bField r.mask == bField r.pattern && c &&& cField r.mask == cField r.pattern) := by
  rw [Bool.eq_iff_iff, selects_iff]
  simp only [opField_mkWord, zField_mkWord, aField_mkWord, bField_mkWord, cField_mkWord, BitVec.zero_and,
    Bool.and_eq_true, beq_iff_eq, and_assoc]

theorem tstart : Statement .tstart := by unfold Statement; decide
theorem cfgent (t : Target) : Statement (.cfgent t) := by cases t <;> (unfold Statement; decide)
theorem poll : Statement .poll := by unfold Statement; decide
theorem linit : Statement .linit := by unfold Statement; decide
theorem wcmd (b : Byte) : Statement (.wcmd b) := by
  simp [Statement, encode, operationMap, selects_mkWord, opField, zField, aField, bField, cField, Instr.mnemonic]
theorem wdat (b : Byte) : Statement (.wdat b) := by
  simp [Statement, encode, operationMap, selects_mkWord, opField, zField, aField, bField, cField, Instr.mnemonic]
theorem lclr : Statement .lclr := by unfold Statement; decide
theorem goto1 : Statement .goto1 := by unfold Statement; decide
theorem goto2 : Statement .goto2 := by unfold Statement; decide
theorem wtime (h m s : Byte) : Statement (.wtime h m s) := by
  simp [Statement, encode, operationMap, selects_mkWord, opField, zField, aField, bField, cField, Instr.mnemonic]

end Sys2Proof.Laws.FirstRow
end

