-- ==== Sys2Proof/Laws/Trace.lean ====
section
/-! SUPPORT. The transactions in a pin-level trace, and what the micro-step lists record (40_display.md R121 to
R123). -/

namespace Sys2Proof.Machine

theorem afterAll_append (x : Wire) (a b : List PinRec) : x.afterAll (a ++ b) = (x.afterAll a).afterAll b := by
  simp [Wire.afterAll]

theorem transactionsFrom_append (x : Wire) (a b : List PinRec) :
    transactionsFrom x (a ++ b) = transactionsFrom x a ++ transactionsFrom (x.afterAll a) b := by
  induction a generalizing x with
  | nil => rfl
  | cons r a ih =>
    simp only [List.cons_append, transactionsFrom, ih, List.append_assoc]
    rfl

/-- `NIB` is one of two lists (R122), whichever `T_SU` says; what holds of both holds of it. -/
theorem nib_cases {P : List Micro → List PinRec → Prop} (p : Params) (rs : Bool) (n : Nibble)
    (short : P [.pins rs false n, .e true, .wait .ew, .e false, .wait .eh]
      [.pins rs false n, .e true, .wait .ew p.tEw, .e false, .wait .eh p.tEh])
    (full : P [.pins rs false n, .wait .su, .e true, .wait .ew, .e false, .wait .eh]
      [.pins rs false n, .wait .su p.tSu, .e true, .wait .ew p.tEw, .e false, .wait .eh p.tEh]) :
    P (nibSteps p rs n) (nibRecs p rs n) := by
  unfold nibSteps nibRecs setUpSteps setUpRecs
  split
  · exact short
  · exact full

/-- One nibble transaction is one `NT`, whatever the pins were before. -/
theorem transactionsFrom_nibRecs (x : Wire) (p : Params) (rs : Bool) (n : Nibble) :
    transactionsFrom x (nibRecs p rs n) = [nibNT rs n] :=
  nib_cases (P := fun _ l => transactionsFrom x l = [nibNT rs n]) p rs n
    (by simp [transactionsFrom, Wire.after, nibNT]) (by simp [transactionsFrom, Wire.after, nibNT])

theorem transactionsFrom_wait (x : Wire) (d : Delay) (n : Rat) (l : List PinRec) :
    transactionsFrom x (.wait d n :: l) = transactionsFrom x l := by
  simp [transactionsFrom, Wire.after]

theorem transactionsFrom_nil (x : Wire) : transactionsFrom x [] = [] := rfl

/-- One byte transaction is two, the high nibble first (R64, R123). -/
theorem transactionsFrom_byteRecs (x : Wire) (p : Params) (rs : Bool) (b : Byte) :
    transactionsFrom x (byteRecs p rs b) = byteNT rs b := by
  simp [byteRecs, transactionsFrom_append, transactionsFrom_nibRecs, transactionsFrom_wait,
    transactionsFrom_nil, byteNT]

/-- Several byte transactions. -/
theorem transactionsFrom_flatMap_byteRecs (x : Wire) (p : Params) (rs : Bool) (l : List Byte) :
    transactionsFrom x (l.flatMap (byteRecs p rs)) = l.flatMap (byteNT rs) := by
  induction l generalizing x with
  | nil => rfl
  | cons b l ih =>
    simp only [List.flatMap_cons, transactionsFrom_append, transactionsFrom_byteRecs, ih]

theorem transactionsFrom_linitRecs (x : Wire) (p : Params) : transactionsFrom x (linitRecs p) = linitNT p := by
  simp [linitRecs, transactionsFrom_append, transactionsFrom_nibRecs, transactionsFrom_wait,
    transactionsFrom_byteRecs, linitNT]

theorem recordsOf_nibSteps (p : Params) (rs : Bool) (n : Nibble) :
    recordsOf p (nibSteps p rs n) = nibRecs p rs n :=
  nib_cases (P := fun l l' => recordsOf p l = l') p rs n rfl rfl

theorem recordsOf_byteSteps (p : Params) (rs : Bool) (b : Byte) :
    recordsOf p (byteSteps p rs b) = byteRecs p rs b := by
  have wait : recordsOf p [.wait .byte] = [.wait .byte p.tByte] := rfl
  rw [byteSteps, byteRecs, recordsOf_append, recordsOf_append, recordsOf_nibSteps, recordsOf_nibSteps, wait,
    List.append_assoc]

theorem recordsOf_flatMap_byteSteps (p : Params) (rs : Bool) (l : List Byte) :
    recordsOf p (l.flatMap (byteSteps p rs)) = l.flatMap (byteRecs p rs) := by
  induction l with
  | nil => rfl
  | cons b l ih => rw [List.flatMap_cons, recordsOf_append, ih, recordsOf_byteSteps, List.flatMap_cons]

theorem effectOf_nibSteps (p : Params) (rs : Bool) (n : Nibble) (r : Regs) :
    effectOf (nibSteps p rs n) r = pinsLeft rs n r :=
  nib_cases (P := fun l _ => effectOf l r = pinsLeft rs n r) p rs n
    (by simp only [effectOf, List.foldl, Micro.effect, pinsLeft])
    (by simp only [effectOf, List.foldl, Micro.effect, pinsLeft])

@[simp] theorem pinsLeft_pinsLeft (a b : Bool) (m n : Nibble) (r : Regs) :
    pinsLeft a m (pinsLeft b n r) = pinsLeft a m r := by
  simp only [pinsLeft]

theorem effectOf_byteSteps (p : Params) (rs : Bool) (b : Byte) (r : Regs) :
    effectOf (byteSteps p rs b) r = pinsLeft rs (loNibble b) r := by
  have wait (r : Regs) : effectOf [.wait .byte] r = r := rfl
  rw [byteSteps, effectOf_append, effectOf_append, effectOf_nibSteps, effectOf_nibSteps, wait, pinsLeft_pinsLeft]

theorem nibSteps_plain (p : Params) (rs : Bool) (n : Nibble) : ∀ m ∈ nibSteps p rs n, m.plain = true :=
  nib_cases (P := fun l _ => ∀ m ∈ l, m.plain = true) p rs n (by simp [Micro.plain]) (by simp [Micro.plain])

theorem byteSteps_plain (p : Params) (rs : Bool) (b : Byte) : ∀ m ∈ byteSteps p rs b, m.plain = true := by
  have wait : ∀ m ∈ [Micro.wait .byte], m.plain = true := by simp [Micro.plain]
  simp only [byteSteps, List.forall_mem_append]
  exact ⟨nibSteps_plain _ _ _, nibSteps_plain _ _ _, wait⟩

theorem flatMap_byteSteps_plain (p : Params) (rs : Bool) (l : List Byte) :
    ∀ m ∈ l.flatMap (byteSteps p rs), m.plain = true := by
  intro m hm
  obtain ⟨b, _, hb⟩ := List.mem_flatMap.mp hm
  exact byteSteps_plain p rs b m hb

/-- Several byte transactions leave the pins as the last one does. -/
theorem effectOf_flatMap_byteSteps (p : Params) (rs : Bool) (l : List Byte) (b : Byte) (r : Regs) :
    effectOf ((l ++ [b]).flatMap (byteSteps p rs)) r = pinsLeft rs (loNibble b) r := by
  induction l generalizing r with
  | nil => rw [List.nil_append, List.flatMap_singleton, effectOf_byteSteps]
  | cons c l ih =>
    rw [List.cons_append, List.flatMap_cons, effectOf_append, ih, effectOf_byteSteps, pinsLeft_pinsLeft]

/-! ## Sizes (R134) -/

theorem length_nibSteps (p : Params) (rs : Bool) (n : Nibble) : (nibSteps p rs n).length = nibSize p := by
  unfold nibSteps setUpSteps nibSize
  split <;> rfl

theorem length_byteSteps (p : Params) (rs : Bool) (b : Byte) : (byteSteps p rs b).length = byteSize p := by
  simp only [byteSteps, List.length_append, length_nibSteps, byteSize, List.length_singleton]
  omega

theorem length_flatMap_byteSteps (p : Params) (rs : Bool) (l : List Byte) :
    (l.flatMap (byteSteps p rs)).length = l.length * byteSize p := by
  induction l with
  | nil => simp
  | cons b l ih => rw [List.flatMap_cons, List.length_append, ih, length_byteSteps, List.length_cons]; ring

/-! ## LINIT -/

/-- LINIT's micro-steps before its `done`. -/
def linitPlain (p : Params) : List Micro :=
  nibSteps p false p.nib8bit ++ [.wait .init1] ++ nibSteps p false p.nib8bit ++ [.wait .init2] ++
  nibSteps p false p.nib8bit ++ [.wait .init3] ++ nibSteps p false p.nib4bit ++ [.wait .init4] ++
  byteSteps p false p.cmdFuncset ++ byteSteps p false p.cmdDispon ++ byteSteps p false Config.cmdClear ++
  byteSteps p false p.cmdHome ++ [.ce .inited]

theorem linitSteps_eq (p : Params) : linitSteps p = linitPlain p ++ [.done] := by
  simp only [linitSteps, linitPlain, List.append_assoc, List.cons_append, List.nil_append]

theorem linitPlain_plain (p : Params) : ∀ m ∈ linitPlain p, m.plain = true := by
  have wait (d : Delay) : ∀ m ∈ [Micro.wait d], m.plain = true := by simp [Micro.plain]
  have set : ∀ m ∈ [Micro.ce .inited], m.plain = true := by simp [Micro.plain]
  simp only [linitPlain, List.forall_mem_append]
  exact ⟨⟨⟨⟨⟨⟨⟨⟨⟨⟨⟨⟨nibSteps_plain _ _ _, wait _⟩, nibSteps_plain _ _ _⟩, wait _⟩, nibSteps_plain _ _ _⟩, wait _⟩,
    nibSteps_plain _ _ _⟩, wait _⟩, byteSteps_plain _ _ _⟩, byteSteps_plain _ _ _⟩, byteSteps_plain _ _ _⟩,
    byteSteps_plain _ _ _⟩, set⟩

theorem effectOf_linitPlain (p : Params) (r : Regs) :
    effectOf (linitPlain p) r = { pinsLeft false (loNibble p.cmdHome) r with ddInited := true } := by
  have wait (d : Delay) (r : Regs) : effectOf [.wait d] r = r := rfl
  have set (r : Regs) : effectOf [.ce .inited] r = { r with ddInited := true } := rfl
  simp only [linitPlain, effectOf_append, effectOf_nibSteps, effectOf_byteSteps, wait, set, pinsLeft_pinsLeft]

theorem recordsOf_linitPlain (p : Params) : recordsOf p (linitPlain p) = linitRecs p := by
  have wait (d : Delay) : recordsOf p [.wait d] = [.wait d (durationOf p d)] := rfl
  have set : recordsOf p [.ce .inited] = [] := rfl
  simp only [linitPlain, linitRecs, recordsOf_append, recordsOf_nibSteps, recordsOf_byteSteps, wait, set,
    List.append_nil, durationOf]

theorem length_linitSteps (p : Params) : (linitSteps p).length = linitSize p := by
  simp only [linitSteps, List.length_append, length_nibSteps, length_byteSteps, linitSize, List.length_cons, List.length_nil]
  omega

/-! ## The shape of every list but POLL's -/

/-- A micro-step that writes pins (never reading), waits or writes a bit, and goes on to the next number. -/
def Micro.onward : Micro → Bool
  | .pins _ rw _ => !rw
  | .e _ => true
  | .wait _ => true
  | .ce _ => true
  | .sample => false
  | .debounce => false
  | .resample => false
  | .hold => false
  | .deliverPress => false
  | .deliverNone => false
  | .done => false

/-- A list before a `done`: its micro-steps go on, and it leaves the strobe low. -/
def Onward (L : List Micro) : Prop := (∀ m ∈ L, m.onward = true) ∧ strobeAfter L = false

theorem strobeAfter_append {L : List Micro} (h : strobeAfter L = false) (M : List Micro) :
    strobeAfter (L ++ M) = strobeAfter M := by
  unfold strobeAfter at *
  rw [List.foldl_append, h]

/-- One micro-step more. -/
theorem strobeAfter_snoc (L : List Micro) (m : Micro) :
    strobeAfter (L ++ [m]) = match m with
      | .e x => x
      | _ => strobeAfter L := by
  unfold strobeAfter
  rw [List.foldl_append]
  cases m <;> rfl

theorem onward_append {L M : List Micro} (hL : Onward L) (hM : Onward M) : Onward (L ++ M) :=
  ⟨List.forall_mem_append.mpr ⟨hL.1, hM.1⟩, by rw [strobeAfter_append hL.2, hM.2]⟩

theorem onward_wait (d : Delay) : Onward [.wait d] := ⟨by simp [Micro.onward], rfl⟩

theorem onward_ce (op : CeOp) : Onward [.ce op] := ⟨by simp [Micro.onward], rfl⟩

theorem onward_nibSteps (p : Params) (rs : Bool) (n : Nibble) : Onward (nibSteps p rs n) :=
  nib_cases (P := fun l _ => Onward l) p rs n ⟨by simp [Micro.onward], rfl⟩ ⟨by simp [Micro.onward], rfl⟩

theorem onward_byteSteps (p : Params) (rs : Bool) (b : Byte) : Onward (byteSteps p rs b) :=
  onward_append (onward_nibSteps _ _ _) (onward_append (onward_nibSteps _ _ _) (onward_wait _))

theorem onward_flatMap_byteSteps (p : Params) (rs : Bool) (l : List Byte) : Onward (l.flatMap (byteSteps p rs)) := by
  induction l with
  | nil => exact ⟨by simp, rfl⟩
  | cons b l ih => rw [List.flatMap_cons]; exact onward_append (onward_byteSteps _ _ _) ih

theorem onward_linitPlain (p : Params) : Onward (linitPlain p) := by
  unfold linitPlain
  exact onward_append (onward_append (onward_append (onward_append (onward_append (onward_append (onward_append
    (onward_append (onward_append (onward_append (onward_append (onward_append
      (onward_nibSteps _ _ _) (onward_wait _)) (onward_nibSteps _ _ _)) (onward_wait _)) (onward_nibSteps _ _ _))
      (onward_wait _)) (onward_nibSteps _ _ _)) (onward_wait _)) (onward_byteSteps _ _ _)) (onward_byteSteps _ _ _))
      (onward_byteSteps _ _ _)) (onward_byteSteps _ _ _)) (onward_ce _)

/-- Every operation but POLL is a list of such micro-steps, then `done`. -/
theorem stepsOf_shape (p : Params) {i : Instr} (h : i ≠ .poll) :
    ∃ L, stepsOf p i = L ++ [.done] ∧ Onward L := by
  cases i with
  | tstart => exact ⟨[.ce .tickOn], rfl, onward_ce _⟩
  | cfgent t => exact ⟨[.ce (.enter t)], rfl, onward_ce _⟩
  | poll => exact absurd rfl h
  | linit => exact ⟨linitPlain p, linitSteps_eq p, onward_linitPlain p⟩
  | wcmd b => exact ⟨_, rfl, onward_byteSteps _ _ _⟩
  | wdat b => exact ⟨_, rfl, onward_byteSteps _ _ _⟩
  | lclr => exact ⟨_, rfl, onward_byteSteps _ _ _⟩
  | goto1 => exact ⟨_, rfl, onward_byteSteps _ _ _⟩
  | goto2 => exact ⟨_, rfl, onward_byteSteps _ _ _⟩
  | wtime a b c => exact ⟨_, rfl, onward_flatMap_byteSteps _ _ _⟩

/-- A position before the `done` of such a list has a next one. -/
theorem shape_next {S L : List Micro} {k : Nat} {m : Micro} (hS : S = L ++ [.done]) (hL : Onward L)
    (hm : S[k]? = some m) :
    (m = .done ∧ S.take k = L) ∨ (m.onward = true ∧ S.take (k + 1) = S.take k ++ [m] ∧
      ∃ m', S[k + 1]? = some m' ∧ (m' = .done ∨ m'.onward = true)) := by
  obtain ⟨hk, hget⟩ := List.getElem?_eq_some_iff.mp hm
  have hlen : S.length = L.length + 1 := by simp [hS]
  by_cases h : k = L.length
  · subst h
    refine .inl ⟨?_, by simp [hS]⟩
    subst hS
    simpa using hget.symm
  · have hk' : k < L.length := by omega
    have mem (j : Nat) (hj : j < L.length) : S[j]? = some L[j] := by
      subst hS; rw [List.getElem?_append_left hj, List.getElem?_eq_getElem hj]
    refine .inr ⟨?_, ?_, ?_⟩
    · have := mem k hk'
      rw [hm] at this
      rw [Option.some.inj this]
      exact hL.1 _ (List.getElem_mem hk')
    · rw [List.take_add_one, hm]; rfl
    · by_cases h' : k + 1 = L.length
      · exact ⟨.done, by subst hS; simp [h'], .inl rfl⟩
      · exact ⟨L[k + 1], mem (k + 1) (by omega), .inr (hL.1 _ (List.getElem_mem _))⟩

end Sys2Proof.Machine
end

