-- ==== Sys2Proof/Laws/Step.lean ====
section
/-! SUPPORT. Presenting a word and stepping, said once: what exec is for every instruction, what an edge is in each
position, and what a run of edges keeps. -/

namespace Sys2Proof.Machine

/-- Every meaning presents the instruction's word with its refusal condition. -/
theorem exec_present (i : Instr) (s : State) : exec i s = present (encode i) (refusalOf i s.regs) s := by
  cases i <;> rfl

theorem settle_idle {s : State} (h : s.regs.fg = .idle) : settle s = s := settleOn_idle _ h

/-! ## Reset -/

theorem acceptEdge_rst (w : Word) (o : Option RefuseReason) {s : State} (h : (nextInput s).rst = true) :
    acceptEdge w o s = s.consume.resetRegs := by
  simp [acceptEdge, h]

theorem carryOn_rst {s : State} (h : (nextInput s).rst = true) : carryOn s = .next s.consume.resetRegs := by
  rw [carryOn, runEdge_rst h, settle_idle rfl]
  simp [h]

theorem present_rst (w : Word) (o : Option RefuseReason) {s : State} (h : (nextInput s).rst = true) :
    present w o s = .next s.consume.resetRegs := by
  unfold present; split
  · rw [acceptEdge_rst _ _ h, settle_idle rfl]
  · exact carryOn_rst h

/-! ## Edges -/

theorem acceptEdge_noRst (w : Word) (o : Option RefuseReason) {s : State} (h : (nextInput s).rst = false) :
    acceptEdge w o s = (s.consume.tickPart (nextInput s)).accept w o := by
  simp [acceptEdge, h]

theorem acceptEdge_frame (w : Word) (o : Option RefuseReason) (s : State) :
    (acceptEdge w o s).inputs = s.inputs.tail ∧ (acceptEdge w o s).params = s.params ∧
      (acceptEdge w o s).cycle = s.cycle + 1 := by
  unfold acceptEdge; dsimp only; split <;> simp

theorem runEdge_clockEdge {s : State} (h : ¬ (s.regs.fg = .idle ∧ (nextInput s).opValid = true)) :
    clockEdge s = runEdge s := by
  simp [clockEdge, h]

theorem acceptEdge_clockEdge {s : State} (h : s.regs.fg = .idle) (hv : (nextInput s).opValid = true) :
    clockEdge s = acceptEdge (nextInput s).opWord (wordRefusal (nextInput s).opWord s.regs) s := by
  simp [clockEdge, h, hv]

theorem clockEdge_frame (s : State) :
    (clockEdge s).inputs = s.inputs.tail ∧ (clockEdge s).params = s.params ∧ (clockEdge s).cycle = s.cycle + 1 := by
  unfold clockEdge; dsimp only; split
  · exact acceptEdge_frame _ _ s
  · exact runEdge_frame s

/-- A foreground busy edge without reset is the foreground's part after the tick's. -/
theorem clockEdge_busy {s : State} (hf : s.regs.fg ≠ .idle) (hr : (nextInput s).rst = false) :
    clockEdge s = foreground (nextInput s) (s.consume.tickPart (nextInput s)) := by
  rw [runEdge_clockEdge (by simp [hf]), runEdge_noRst hr]

/-- The micro-step at a busy position. -/
theorem currentMicro_busy {s : State} {w : Word} {k : Nat} {m : Micro} (hf : s.regs.fg = .busy w k)
    (hm : (stepsAt s.params w)[k]? = some m) :
    s.currentMicro = if microReady m s.regs.inState then some m else none := by
  simp [State.currentMicro, hf, hm]

theorem lost_busy {s : State} {w : Word} {k : Nat} {m : Micro} (hf : s.regs.fg = .busy w k)
    (hm : (stepsAt s.params w)[k]? = some m) : s.lost = !microReady m s.regs.inState := by
  simp [State.lost, hf, hm]

/-- Everything an edge without reset can be. The tick agent acts first; then a word is accepted, or nothing else
happens, or a refused word completes, or the operation in progress takes its micro-step. -/
theorem clockEdge_cases {s : State} (hr : (nextInput s).rst = false) :
    (s.regs.fg = .idle ∧ (nextInput s).opValid = true ∧
      clockEdge s = (s.consume.tickPart (nextInput s)).accept (nextInput s).opWord
        (wordRefusal (nextInput s).opWord s.regs)) ∨
    (((s.regs.fg = .idle ∧ (nextInput s).opValid = false) ∨ (nextInput s).fgGo = false ∨
        ∃ w k, s.regs.fg = .busy w k ∧ (stepsAt s.params w)[k]? = none) ∧
      clockEdge s = s.consume.tickPart (nextInput s)) ∨
    (∃ w why, s.regs.fg = .refusing w why ∧ (nextInput s).fgGo = true ∧
      clockEdge s = (s.consume.tickPart (nextInput s)).finish (.refused w why)) ∨
    (∃ w k m, s.regs.fg = .busy w k ∧ (stepsAt s.params w)[k]? = some m ∧ (nextInput s).fgGo = true ∧
      clockEdge s = microStep m w k (nextInput s) (s.consume.tickPart (nextInput s))) := by
  have hfg : (s.consume.tickPart (nextInput s)).regs.fg = s.regs.fg := by
    rw [tickPart_regs]; split <;> simp
  cases hf : s.regs.fg with
  | idle =>
    cases hv : (nextInput s).opValid with
    | true =>
      exact .inl ⟨rfl, rfl, by rw [acceptEdge_clockEdge hf hv, acceptEdge_noRst _ _ hr]⟩
    | false =>
      refine .inr (.inl ⟨.inl ⟨rfl, rfl⟩, ?_⟩)
      rw [runEdge_clockEdge (by simp [hv]), runEdge_noRst hr, foreground_idle _ (by rw [hfg, hf])]
  | refusing w why =>
    rw [clockEdge_busy (by simp [hf]) hr]
    cases hg : (nextInput s).fgGo with
    | false => exact .inr (.inl ⟨.inr (.inl rfl), foreground_stall hg _⟩)
    | true => exact .inr (.inr (.inl ⟨w, why, rfl, rfl, foreground_refusing hg (by rw [hfg, hf])⟩))
  | busy w k =>
    rw [clockEdge_busy (by simp [hf]) hr]
    cases hg : (nextInput s).fgGo with
    | false => exact .inr (.inl ⟨.inr (.inl rfl), foreground_stall hg _⟩)
    | true =>
      cases hm : (stepsAt s.params w)[k]? with
      | none =>
        refine .inr (.inl ⟨.inr (.inr ⟨w, k, rfl, hm⟩), ?_⟩)
        unfold foreground
        rw [hfg, hf, tickPart_params, consume_params]
        simp [hm]
      | some m =>
        exact .inr (.inr (.inr ⟨w, k, m, rfl, hm, rfl, foreground_busy hg (by rw [hfg, hf]) (by simpa using hm)⟩))

/-! ## Runs of edges -/

/-- What one edge keeps, a run of edges keeps. -/
theorem iterate_clockEdge_keeps {P : State → Prop} (h : ∀ s, P s → P (clockEdge s)) (n : Nat) {s : State} (hs : P s) :
    P (clockEdge^[n] s) := by
  induction n generalizing s with
  | zero => exact hs
  | succ n ih => exact ih (h s hs)

/-- The listed edges an operation runs on are a run of single edges that leave it in progress up to the last. -/
theorem settleOn_iterate (l : List EdgeIn) (s : State) (hl : s.inputs = l) :
    ∃ n, n ≤ l.length ∧ settleOn l s = clockEdge^[n] s ∧ ∀ m, m < n → (clockEdge^[m] s).regs.fg ≠ .idle := by
  induction l generalizing s with
  | nil => exact ⟨0, by simp, rfl, by simp⟩
  | cons x l ih =>
    by_cases h : s.regs.fg = .idle
    · exact ⟨0, by simp, by simp [settleOn, h], by simp⟩
    · obtain ⟨n, hn, h1, h2⟩ := ih (runEdge s) (by rw [(runEdge_frame s).1, hl]; rfl)
      have e : clockEdge s = runEdge s := runEdge_clockEdge (by simp [h])
      refine ⟨n + 1, by simp; omega, ?_, ?_⟩
      · rw [settleOn_cons x l h, h1, Function.iterate_succ_apply, e]
      · intro m hm
        cases m with
        | zero => exact h
        | succ m => rw [Function.iterate_succ_apply, e]; exact h2 m (by omega)

/-! ## A presented word, from its acceptance to its completion -/

/-- A schedule with micro-steps in it: its acceptance edge and the edges after it. -/
theorem givesSteps_cons {s : State} {n : Nat} (h : s.givesSteps n) :
    ∃ a l, s.inputs = a :: l ∧ nextInput s = a ∧ a.rst = false ∧ (∀ x ∈ l, x.rst = false) ∧
      n ≤ l.countP (fun x => x.fgGo) := by
  obtain ⟨-, h2, h3, h4⟩ := h
  cases hi : s.inputs with
  | nil => exact absurd hi h2
  | cons a l =>
    rw [hi] at h3 h4
    exact ⟨a, l, rfl, nextInput_cons hi, h3 a (by simp), fun x hx => h3 x (by simp [hx]), h4⟩

/-- A refused word completes in one micro-step, and only the tick agent acts meanwhile (R241). -/
theorem present_refused {s : State} (h : s.givesSteps 1) (w : Word) (why : RefuseReason) :
    ∃ t, present w (some why) s = .next t ∧ s.refusedTo t w why := by
  obtain ⟨a, l, hl, hn, ha, hr, hc⟩ := givesSteps_cons h
  obtain ⟨before, x, rest, rfl, hb, hx⟩ := split_at_go l hc
  refine ⟨_, by rw [present, if_pos h.1], ?_⟩
  rw [acceptEdge_noRst _ _ (by rw [hn, ha]), hn, consume_tickPart hl, settle]
  have e : ((s.stalled [a]).accept w (some why)).inputs = before ++ x :: rest := by simp [hl]
  rw [e, settleOn_go before x rest _ e (fun y hy => hr y (by simp at hy ⊢; tauto)) hb (by simp),
    foreground_refusing hx (w := w) (why := why) (by simp), settleOn_idle _ (by simp)]
  refine ⟨a :: (before ++ [x]), ?_, ⟨by simp [hl], by simp; omega, by simp, ?_, by simp, ?_, by simp⟩⟩
  · rw [List.tail_cons, goEdges_split [] hb hx]; rfl
  · rw [ticksIn_cons]
    exact pulses_accepted s.params (ticksIn [a]) (ticksIn (before ++ [x])) (.refusing w why) h.1
  · simp [State.transactions]

/-- A word whose operation is a list of plain micro-steps runs to its completion: it leaves what its micro-steps
write on what the pulses leave, and records what they record. -/
theorem present_plain {s : State} (w : Word) (L : List Micro) (hL : ∀ m ∈ L, m.plain = true)
    (hst : stepsAt s.params w = L ++ [.done]) (hg : s.givesSteps (L.length + 1)) :
    ∃ t used, present w none s = .next t ∧ (goEdges used.tail).length = L.length + 1 ∧
      s.ranTo t used { effectOf L (s.regs.pulses s.params (ticksIn used)) with fg := .idle } (recordsOf s.params L)
        (transactionsFrom (Wire.low.afterAll s.trace) (recordsOf s.params L)) [.completed w] := by
  obtain ⟨a, l, hl, hn, ha, hrst, hc⟩ := givesSteps_cons hg
  obtain ⟨used, rest, rfl, hgo, h⟩ := settleOn_plain L hL w 0 l ((s.stalled [a]).accept w none)
    (by simp [hl]) (by simp) (by simp [hst]) hrst hc
  refine ⟨_, a :: used, by rw [present, if_pos hg.1], by simpa using hgo, ?_⟩
  rw [acceptEdge_noRst _ _ (by rw [hn, ha]), hn, consume_tickPart hl, settle]
  have e : ((s.stalled [a]).accept w none).inputs = used ++ rest := by simp [hl]
  rw [e, h]
  refine ⟨by simp [hl], by simp; omega, rfl, ?_, rfl, ?_, rfl⟩
  · simp only [accept_regs_none, stalled_regs, accept_params, stalled_params]
    rw [pulses_setFg, effectOf_setFg hL, ← pulses_add, ← ticksIn_append, List.singleton_append]
  · exact transactionsFrom_append _ _ _

end Sys2Proof.Machine
end

