-- ==== Sys2Proof/Laws/Timing.lean ====
section
/-! SUPPORT. The hardware's own pace (00_scope.md R13): no wait that stands in an operation's list has no cycle. -/

namespace Sys2Proof.Machine

/-- Every duration but `T_SU` is positive, and that one is where the set-up stands (R9, R122). -/
theorem durationOf_pos {p : Params} (h : p.valid = true) {d : Delay} (hd : d = .su → p.tSu ≠ 0) :
    0 < durationOf p d := by
  obtain ⟨-, -, -, hEw, hEh, hSu, hByte, hDeb, h1, h2, h3, h4⟩ := of_decide_eq_true h
  cases d with
  | su => exact lt_of_le_of_ne hSu (Ne.symm (hd rfl))
  | ew => simp only [durationOf]; linarith
  | eh => simp only [durationOf]; linarith
  | byte => exact hByte
  | deb => exact hDeb
  | init1 => simp only [durationOf]; linarith
  | init2 => simp only [durationOf]; linarith
  | init3 => exact h3
  | init4 => exact h4

theorem waitCycles_pos {p : Params} (h : p.valid = true) {d : Delay} (hd : d = .su → p.tSu ≠ 0) :
    1 ≤ waitCycles p d := by
  have hf : 0 < p.fClk := (of_decide_eq_true h).1
  have hx : 0 < durationOf p d * p.fClk / 1000000000 := by
    have := mul_pos (durationOf_pos h hd) hf
    positivity
  have : (0 : Int) < (durationOf p d * p.fClk / 1000000000).ceil := Rat.lt_ceil_iff.mpr (by simpa using hx)
  unfold waitCycles
  omega

/-- Every micro-step of every operation takes at least one cycle: `hardwarePace` lists its edges rightly. -/
theorem microCycles_pos {p : Params} (h : p.valid = true) (i : Instr) : ∀ m ∈ stepsOf p i, 1 ≤ microCycles p m := by
  have one (m : Micro) (hm : m = .wait .su → p.tSu ≠ 0) : 1 ≤ microCycles p m := by
    unfold microCycles
    cases m <;> simp only [Micro.delay] <;> try exact le_refl 1
    · exact waitCycles_pos h (fun e => hm (by rw [e]))
    · exact waitCycles_pos h (by simp)
  have nib (rs n) : ∀ m ∈ nibSteps p rs n, m = .wait .su → p.tSu ≠ 0 := by
    intro m hm e; subst e
    unfold nibSteps setUpSteps at hm
    intro h0
    simp [h0] at hm
  have byte (rs b) : ∀ m ∈ byteSteps p rs b, m = .wait .su → p.tSu ≠ 0 := by
    simp only [byteSteps, List.forall_mem_append]
    exact ⟨nib _ _, nib _ _, by simp⟩
  intro m hm
  refine one m ?_
  revert m
  cases i with
  | tstart => simp [stepsOf, tstartSteps]
  | cfgent t => simp [stepsOf, cfgentSteps]
  | poll => simp [stepsOf, pollSteps]
  | linit =>
    simp only [stepsOf, linitSteps, List.forall_mem_append]
    simp
    exact ⟨⟨⟨⟨⟨nib _ _, nib _ _⟩, byte _ _⟩, byte _ _⟩, byte _ _⟩, byte _ _⟩
  | wcmd b => simp only [stepsOf, wcmdSteps, List.forall_mem_append]; exact ⟨byte _ _, by simp⟩
  | wdat b => simp only [stepsOf, wdatSteps, List.forall_mem_append]; exact ⟨byte _ _, by simp⟩
  | lclr => simp only [stepsOf, lclrSteps, List.forall_mem_append]; exact ⟨byte _ _, by simp⟩
  | goto1 => simp only [stepsOf, goto1Steps, List.forall_mem_append]; exact ⟨byte _ _, by simp⟩
  | goto2 => simp only [stepsOf, goto2Steps, List.forall_mem_append]; exact ⟨byte _ _, by simp⟩
  | wtime a b c =>
    simp only [stepsOf, wtimeSteps, List.forall_mem_append]
    refine ⟨fun m hm => ?_, by simp⟩
    obtain ⟨x, -, hx⟩ := List.mem_flatMap.mp hm
    exact byte _ _ m hx

end Sys2Proof.Machine
end

