-- ==== Sys2Proof/Tests/Slice0.lean ====
section
/-! SUPPORT. Tests of one step or one operation each, with the results of 95_test_vectors.md or of the rule named, and
one witness for the hypotheses of every obligation that has some. -/

namespace Sys2Proof.Tests

open Sys2Proof.Machine

/-! ## Small states -/

/-- The recommended parameters at `F_CLK` = 1 MHz and this `TICK_DIV`, with the quotient in `T_SU` worked out
(`test_default_set_up`). -/
def atOneMegahertz (tickDiv : Nat) : Params := { Config.defaults 1000000 tickDiv with tSu := 1000 }

/-- Reset, with the recommended parameters, `F_CLK` = 1 MHz and `TICK_DIV = 4`. -/
def base : State := { State.reset with params := atOneMegahertz 4 }

/-- The same with other registers. -/
def withRegs (f : Regs → Regs) : State := { base with regs := f base.regs }

/-- The same state with `T_SU = 0`. -/
def noSetUp (s : State) : State := { s with params := { s.params with tSu := 0 } }

/-- The display initialised. -/
def ready : State := withRegs (fun r => { r with ddInited := true })

/-- The word `w` presented, and `n` quiet edges after it. -/
def offer (s : State) (w : Word) (n : Nat) : State :=
  { s with inputs := requestEdge w :: List.replicate n quietEdge }

/-- An edge with these button levels; `false` is pressed. -/
def draw (c i : Bool) : EdgeIn := { quietEdge with btnConfirmN := c, btnIncrementN := i }

/-- POLL presented, and the edges after it. -/
def pollOn (s : State) (edges : List EdgeIn) : State := { s with inputs := requestEdge 0x30000000#32 :: edges }

/-- The state after one step, or the same state where the step stops. -/
def after (s : State) : State :=
  match step s with
  | .next t => t
  | .fault _ => s
  | .refused _ => s

def time (h m s : Byte) (mer : Meridiem) : ClockTime := { hour := h, minute := m, second := s, mer := mer }

/-- `NT(rs, 0, n)`. -/
def nt (rs : Bool) (n : Nibble) : NT := { rs := rs, rw := false, n := n }

/-! ## Words (V-DEC, R90 to R93) -/

/-- Ill-formed words, one for each class of R93. -/
theorem test_wellformed_refuses_unassigned_opcode : wordWellFormed 0xA0000000#32 = false := by decide
theorem test_wellformed_refuses_zero_opcode : wordWellFormed 0x00000000#32 = false := by decide
theorem test_wellformed_refuses_reserved_field : wordWellFormed 0x91000000#32 = false := by decide
theorem test_wellformed_refuses_unused_a : wordWellFormed 0x50010001#32 = false := by decide
theorem test_wellformed_refuses_unused_b : wordWellFormed 0x50000100#32 = false := by decide
theorem test_wellformed_refuses_unused_c : wordWellFormed 0x70000001#32 = false := by decide
theorem test_wellformed_refuses_unused_target_bits : wordWellFormed 0x20000002#32 = false := by decide
theorem test_wellformed_refuses_line_zero : wordWellFormed 0x80000000#32 = false := by decide
theorem test_wellformed_accepts_any_operand_bytes : wordWellFormed 0x90FFFFFF#32 = true := by decide

/-- The reserved rows of V-DEC that no obligation names. -/
theorem test_decode_reserved_rows :
    [0x50010001#32, 0x70000001#32, 0x80000000#32, 0x80000005#32, 0xFFFFFFFF#32].map decode =
      [.reserved .unusedField, .reserved .unusedField, .reserved .lineNumber, .reserved .lineNumber,
       .reserved .reservedField] := by decide

/-- One word of each constructor put together field by field from R90 and R92: `opc`, `z`, `A`, `B`, `C`. -/
theorem test_decode_tstart : decode (0x1#4 ++ 0#4 ++ 0x00#8 ++ 0x00#8 ++ 0x00#8) = .instr .tstart := by decide
theorem test_decode_cfgent : decode (0x2#4 ++ 0#4 ++ 0x00#8 ++ 0x00#8 ++ 0x01#8) = .instr (.cfgent .alarm) := by decide
theorem test_decode_poll : decode (0x3#4 ++ 0#4 ++ 0x00#8 ++ 0x00#8 ++ 0x00#8) = .instr .poll := by decide
theorem test_decode_linit : decode (0x4#4 ++ 0#4 ++ 0x00#8 ++ 0x00#8 ++ 0x00#8) = .instr .linit := by decide
theorem test_decode_wcmd : decode (0x5#4 ++ 0#4 ++ 0x00#8 ++ 0x00#8 ++ 0xA5#8) = .instr (.wcmd 0xA5#8) := by decide
theorem test_decode_wdat : decode (0x6#4 ++ 0#4 ++ 0x00#8 ++ 0x00#8 ++ 0x3A#8) = .instr (.wdat 0x3A#8) := by decide
theorem test_decode_lclr : decode (0x7#4 ++ 0#4 ++ 0x00#8 ++ 0x00#8 ++ 0x00#8) = .instr .lclr := by decide
theorem test_decode_goto1 : decode (0x8#4 ++ 0#4 ++ 0x00#8 ++ 0x00#8 ++ 0x01#8) = .instr .goto1 := by decide
theorem test_decode_goto2 : decode (0x8#4 ++ 0#4 ++ 0x00#8 ++ 0x00#8 ++ 0x02#8) = .instr .goto2 := by decide
theorem test_decode_wtime :
    decode (0x9#4 ++ 0#4 ++ 0x0C#8 ++ 0x3B#8 ++ 0xFF#8) = .instr (.wtime 0x0C#8 0x3B#8 0xFF#8) := by decide

/-- The table's numbering of the bits; bits above the given ones are dropped. -/
theorem test_table_word :
    decodeTableWord 32 0x90115959 = some (.wtime 0x11#8 0x59#8 0x59#8) ∧
    decodeTableWord 32 0x1FFFFFFFF = none ∧ decodeTableWord 32 0x20000002 = none := by decide

/-- The written form (R100). -/
theorem test_written_form :
    asmText (.wtime 0x05#8 0x03#8 0x00#8) = "WTIME 0x05, 0x03, 0x00" ∧ asmText (.cfgent .alarm) = "CFGENT ALARM" ∧
      asmText .goto2 = "GOTO 2" := by decide

/-! ## Parameters (R9) -/

theorem test_params_defaults : (atOneMegahertz 4).valid = true := by decide
theorem test_params_refuse_clock_zero : { atOneMegahertz 4 with fClk := 0 }.valid = false := by decide
theorem test_params_refuse_div_zero : { atOneMegahertz 4 with tickDiv := 0 }.valid = false := by decide
theorem test_params_refuse_narrow_counter : { atOneMegahertz 4 with tickCntW := 2 }.valid = false := by decide
theorem test_params_refuse_short_strobe : { atOneMegahertz 4 with tEw := 229 }.valid = false := by decide
theorem test_params_refuse_short_hold : { atOneMegahertz 4 with tEh := 9 }.valid = false := by decide
theorem test_params_refuse_negative_set_up : { atOneMegahertz 4 with tSu := -1 }.valid = false := by decide
theorem test_params_accept_no_set_up : (noSetUp base).params.valid = true := by decide
theorem test_params_refuse_no_settle : { atOneMegahertz 4 with tByte := 0 }.valid = false := by decide
theorem test_params_refuse_no_debounce : { atOneMegahertz 4 with tDeb := 0 }.valid = false := by decide
theorem test_params_refuse_rising_wait1 : { atOneMegahertz 4 with tInit1 := 100000 }.valid = false := by decide
theorem test_params_refuse_rising_wait2 : { atOneMegahertz 4 with tInit2 := 40000 }.valid = false := by decide
theorem test_params_refuse_no_wait3 : { atOneMegahertz 4 with tInit3 := 0 }.valid = false := by decide
theorem test_params_refuse_no_wait4 : { atOneMegahertz 4 with tInit4 := 0 }.valid = false := by decide

/-! ## The clock engine -/

/-- V-CE1: bytes that are not BCD, or are out of range. -/
theorem test_bcd_inc_total :
    [0x0B#8, 0x0E#8, 0x1A#8, 0x5A#8, 0x5F#8, 0x7F#8, 0x99#8, 0x9A#8, 0x9F#8, 0xFA#8, 0xFE#8].map bcdInc =
      [0x12#8, 0x15#8, 0x21#8, 0x61#8, 0x60#8, 0x80#8, 0xA0#8, 0xA1#8, 0xA0#8, 0x01#8, 0x05#8] := by decide

/-- V-CE2: the carries. -/
theorem test_advsec_valid :
    (time 0x12#8 0x00#8 0x09#8 .am).advsec = time 0x12#8 0x00#8 0x10#8 .am ∧
    (time 0x12#8 0x09#8 0x59#8 .am).advsec = time 0x12#8 0x10#8 0x00#8 .am ∧
    (time 0x09#8 0x59#8 0x59#8 .pm).advsec = time 0x10#8 0x00#8 0x00#8 .pm ∧
    (time 0x11#8 0x59#8 0x59#8 .am).advsec = time 0x12#8 0x00#8 0x00#8 .am ∧
    (time 0x12#8 0x59#8 0x59#8 .pm).advsec = time 0x01#8 0x00#8 0x00#8 .am := by decide

/-- V-CE3: states no run reaches. -/
theorem test_advsec_invalid :
    (time 0x12#8 0x75#8 0x10#8 .am).advsec = time 0x01#8 0x00#8 0x11#8 .pm ∧
    (time 0x13#8 0x00#8 0x00#8 .am).advsec = time 0x01#8 0x00#8 0x01#8 .pm ∧
    (time 0x12#8 0x00#8 0x7F#8 .am).advsec = time 0x12#8 0x01#8 0x00#8 .am ∧
    (time 0x0F#8 0x59#8 0x59#8 .am).advsec = time 0x10#8 0x00#8 0x00#8 .am ∧
    (time 0x0C#8 0x59#8 0x59#8 .am).advsec = time 0x01#8 0x00#8 0x00#8 .pm := by decide

/-- V-CE6, V-CE7: bytes outside the invariant, and the wraps. -/
theorem test_wizard_increments :
    [0x12#8, 0x09#8, 0x11#8, 0x00#8, 0x0C#8, 0x13#8, 0x0A#8].map nextHour =
      [0x01#8, 0x10#8, 0x12#8, 0x01#8, 0x01#8, 0x01#8, 0x11#8] ∧
    [0x09#8, 0x58#8, 0x59#8].map nextMinute = [0x10#8, 0x59#8, 0x00#8] := by decide

/-- V-CE4: `TICK_DIV = 4`; the fourth pulse clears the counter and advances the second; disabled, no effect. -/
theorem test_tick :
    (((withRegs (fun r => { r with tickEn := true })).regs.pulses base.params 3).tickCnt = 3) ∧
    ((withRegs (fun r => { r with tickEn := true, tickCnt := 3 })).regs.tickPulse base.params).ct =
      time 0x12#8 0x00#8 0x01#8 .am ∧
    base.regs.tickPulse base.params = base.regs := by decide

/-- TSTART on an idle core: two micro-steps; the pulse at the edge of the first is ignored (R73), the next is taken. -/
theorem test_tstart :
    let s := { base with inputs := [requestEdge 0x10000000#32, { quietEdge with tick := true },
      { quietEdge with tick := true }] }
    (after s).regs.tickEn = true ∧ (after s).regs.tickCnt = 1 ∧ (after s).marks = [.completed 0x10000000#32] := by decide

/-- V-CE9: the meridiem is compared, the second is not. -/
theorem test_alarm_match :
    (withRegs (fun r => { r with ct := time 0x12#8 0x00#8 0x37#8 .am })).outputs.alarmMatch = true ∧
    (withRegs (fun r => { r with ct := time 0x12#8 0x00#8 0x00#8 .pm })).outputs.alarmMatch = false := by decide

/-! ## Input and configuration -/

/-- V-POLL rows 1, 2, 4, 5 and 8: the edges between the draws are the wait and the delivery. -/
theorem test_poll_rows :
    (after (pollOn base [draw true true, quietEdge])).regs.ev = .none ∧
    (after (pollOn base [draw false true, quietEdge, draw false true, draw true true, quietEdge])).regs.ev = .confirm ∧
    (after (pollOn base [draw false false, quietEdge, draw false false, draw true false, quietEdge])).regs.ev =
      .confirm ∧
    (after (pollOn base [draw false true, quietEdge, draw true true, quietEdge])).regs.ev = .none ∧
    (after (pollOn base [draw true false, quietEdge, draw false false, draw false true, quietEdge])).regs.ev =
      .increment := by decide

/-- V-POLL row 9: held, it does not complete; one settle wait is recorded. -/
theorem test_poll_held :
    let t := after (pollOn base [draw false true, quietEdge, draw false true, draw false true, draw false true])
    t.regs.inState = .hold .confirm ∧ t.marks = [] ∧ t.trace = [.wait .deb 50000000] := by decide

/-- P5: one pulse in the last POLL of a set-time wizard, `TICK_DIV = 1`; at the same edge as the delivery, and after. -/
theorem test_two_placements :
    let s := { base with
      params := atOneMegahertz 1
      regs := { base.regs with
        ct := time 0x12#8 0x59#8 0x59#8 .am, tickEn := true, cfgState := .setMin, cfgTarget := .clock } }
    let press := [draw true false, quietEdge, draw true false, draw true true]
    let a := after (pollOn s (press ++ [{ quietEdge with tick := true }]))
    let b := after { after (pollOn s (press ++ [quietEdge])) with inputs := [{ quietEdge with tick := true }] }
    a.regs.ct = time 0x01#8 0x01#8 0x00#8 .pm ∧ b.regs.ct = time 0x12#8 0x01#8 0x00#8 .am ∧
      b.regs.alarmMatch = false := by decide

/-- CFGENT enters the hour phase; inside a wizard it is refused and changes neither register (P4). -/
theorem test_cfgent :
    (after (offer base 0x20000001#32 2)).regs.cfgState = .setHour ∧
    (after (offer base 0x20000001#32 2)).regs.cfgTarget = .alarm ∧
    after (offer (withRegs (fun r => { r with cfgState := .setMin, cfgTarget := .alarm })) 0x20000000#32 1) =
      { withRegs (fun r => { r with cfgState := .setMin, cfgTarget := .alarm }) with
        cycle := 2, marks := [.refused 0x20000000#32 .wizardInProgress] } := by decide

/-! ## Display -/

/-- V-DD1: the pin-level trace of WCMD 0x01, and the pins it leaves. -/
theorem test_wcmd_trace :
    let t := after (offer ready 0x50000001#32 14)
    t.trace = [.pins false false 0x0#4, .wait .su 1000, .e true, .wait .ew 1000, .e false, .wait .eh 100,
      .pins false false 0x1#4, .wait .su 1000, .e true, .wait .ew 1000, .e false, .wait .eh 100,
      .wait .byte 2000000] ∧
    t.regs.wire = { rs := false, rw := false, e := false, db := 0x1#4 } := by decide

/-- R122: `T_SU = 0` removes the set-up; twelve micro-steps are then enough. -/
theorem test_wcmd_trace_no_set_up :
    let t := after (offer (noSetUp ready) 0x50000001#32 12)
    t.trace = [.pins false false 0x0#4, .e true, .wait .ew 1000, .e false, .wait .eh 100,
      .pins false false 0x1#4, .e true, .wait .ew 1000, .e false, .wait .eh 100, .wait .byte 2000000] ∧
    t.transactions = [nt false 0x0#4, nt false 0x1#4] ∧ t.marks = [.completed 0x50000001#32] := by decide

/-- V-DD2. -/
theorem test_wcmd : (after (offer ready 0x500000A5#32 14)).transactions = [nt false 0xA#4, nt false 0x5#4] := by decide
theorem test_wdat : (after (offer ready 0x60000041#32 14)).transactions = [nt true 0x4#4, nt true 0x1#4] := by decide
theorem test_lclr : (after (offer ready 0x70000000#32 14)).transactions = [nt false 0x0#4, nt false 0x1#4] := by decide
theorem test_goto1 : (after (offer ready 0x80000001#32 14)).transactions = [nt false 0x8#4, nt false 0x0#4] := by decide
theorem test_goto2 : (after (offer ready 0x80000002#32 14)).transactions = [nt false 0xC#4, nt false 0x0#4] := by decide

/-- V-DD2: the twelve transactions of LINIT. -/
theorem test_linit :
    let t := after (offer base 0x40000000#32 82)
    t.transactions = [0x3#4, 0x3#4, 0x3#4, 0x2#4, 0x2#4, 0x8#4, 0x0#4, 0xE#4, 0x0#4, 0x1#4, 0x0#4, 0x2#4].map (nt false) ∧
    t.regs.ddInited = true := by decide +kernel

/-- V-DD3: digits that are not decimal are sent as they come. -/
theorem test_wtime :
    (after (offer ready 0x900C3BFF#32 105)).transactions =
      [0x30#8, 0x3C#8, 0x3A#8, 0x33#8, 0x3B#8, 0x3A#8, 0x3F#8, 0x3F#8].flatMap (fun b =>
        [nt true (b.extractLsb' 4 4), nt true (b.extractLsb' 0 4)]) := by decide +kernel

/-- V-DD4: before LINIT a display operation is refused; nothing moves. -/
theorem test_wdat_refused :
    after (offer base 0x60000041#32 1) =
      { base with cycle := 2, marks := [.refused 0x60000041#32 .notInitialised] } := by decide

/-- V-DD4: a second LINIT. -/
theorem test_linit_refused :
    after (offer ready 0x40000000#32 1) =
      { ready with cycle := 2, marks := [.refused 0x40000000#32 .alreadyInitialised] } := by decide

/-- The port images of V-DD1. -/
theorem test_port_image : (nt false 0x1#4).portImage = 0x10#8 := by decide

/-- V-DD5: the terminator ends the text and is not sent. -/
theorem test_wstr :
    (wstr base.params [0x41#8, 0x4D#8]).map encode = [0x60000041#32, 0x6000004D#32] ∧
      wstr base.params [] = [] ∧ wstr base.params [0x41#8, 0x00#8, 0x42#8] = [.wdat 0x41#8] := by decide

/-- R101, R216: after CFGENT the host polls until the wizard is idle again. -/
theorem test_wizard_expansion :
    wizardFirst .alarm = .cfgent .alarm ∧ wizardNext (withRegs (fun r => { r with cfgState := .setMer })) = some .poll ∧
      wizardNext base = none := by decide

/-- R9: the default `T_SU` is one `clk` period, also where that is no whole number of nanoseconds: one cycle (R13). -/
theorem test_default_set_up :
    Config.defaults 1000000 4 = atOneMegahertz 4 ∧ (Config.defaults 16000000 4).tSu = 125 / 2 ∧
      [1000000, 16000000, 3000000, 2500000000].map (fun f => waitCycles (Config.defaults f 4) .su) = [1, 1, 1, 1] := by
  decide +kernel

/-- R13: at 1 MHz the hardware gives `T_EW` of 1 microsecond one cycle, and `T_INIT1` 4100. -/
theorem test_wait_cycles : waitCycles base.params .ew = 1 ∧ waitCycles base.params .init1 = 4100 := by decide +kernel

/-! ## Reset, and the first operation -/

/-- V-RST: reset in the middle of an operation, with a pulse and a request at the same edge. -/
theorem test_reset_edge :
    let s := { after (offer ready 0x50000001#32 3) with
      inputs := [{ requestEdge 0x10000000#32 with rst := true, tick := true }] }
    (after s).regs = Regs.reset ∧ (after s).marks = [] ∧ (after s).transactions = [] := by decide

/-- `withFetchWord` on the state after reset: the next step runs the operation to its end. Of LINIT under the free
parameters only that the step goes on can be evaluated, so its end is shown under given ones. -/
theorem test_first_operation :
    ((after (base.withFetchWord 32 0x40000000)).regs.ddInited = true) ∧
    ((after ((noSetUp base).withFetchWord 32 0x40000000)).regs.ddInited = true) ∧
    ((after (State.reset.withFetchWord 32 0x20000001)).regs.cfgTarget = .alarm) ∧
    ((after (State.reset.withFetchWord 32 0x90120000)).marks = [.refused 0x90120000#32 .notInitialised]) := by
  decide +kernel

theorem test_first_linit : ∃ t, step (State.reset.withFetchWord 32 0x40000000) = .next t := ⟨_, rfl⟩

/-- A reserved word is accepted and refused (P4). -/
theorem test_reserved_word :
    after (offer base 0x80000003#32 1) =
      { base with cycle := 2, marks := [.refused 0x80000003#32 (.reserved .lineNumber)] } := by decide

/-! ## Witnesses: for each obligation with hypotheses, states and operands that meet them together -/

theorem test_witness_DecodeAndEncodeAgree :
    (Instr.wtime 0x12#8 0x00#8 0x00#8).wellFormed = true ∧ decode 0x500000FF#32 = .instr (.wcmd 0xFF#8) := by decide

theorem test_witness_DecodingFollowsTheOperationMap :
    decode 0x20000001#32 = .instr (.cfgent .alarm) ∧ decode 0x500000FF#32 = .instr (.wcmd 0xFF#8) ∧
    decode 0x60000000#32 = .instr (.wdat 0x00#8) ∧ decode 0x90FFFFFF#32 = .instr (.wtime 0xFF#8 0xFF#8 0xFF#8) := by
  decide

/-- A busy core at the edge of a reset, with a pulse and a request. -/
def resetting : State :=
  { after (offer ready 0x50000001#32 3) with inputs := [{ requestEdge 0x10000000#32 with rst := true, tick := true }] }

theorem test_witness_ResetEdgeOverridesEverything :
    (nextInput resetting).rst = true ∧ resetting.regs.fg = .busy 0x50000001#32 3 := by decide

theorem test_witness_StepRunsTheDecodedOperation :
    let s := offer ready 0x60000041#32 14
    s.regs.fg = .idle ∧ (nextInput s).opValid = true ∧ decode (nextInput s).opWord = .instr (.wdat 0x41#8) := by decide

theorem test_witness_StepIsARunOfClockEdges :
    step (offer base 0x10000000#32 2) = .next (after (offer base 0x10000000#32 2)) ∧
      (offer base 0x10000000#32 2).inputs.length = 3 := ⟨rfl, rfl⟩

/-- WCMD 0x01 with the strobe of its first nibble high. -/
def midStrobe : State := { after (offer ready 0x50000001#32 3) with inputs := [quietEdge] }

theorem test_midStrobe : midStrobe.regs.fg = .busy 0x50000001#32 3 ∧ midStrobe.regs.lcdE = true := by decide

theorem test_witness_SoundStatesStepToSoundStates : base.Sound ∧ midStrobe.Sound :=
  ⟨by constructor <;> decide, by constructor <;> decide⟩

/-- A position that names no micro-step (U13). -/
def lostState : State := { withRegs (fun r => { r with fg := .busy 0x10000000#32 2 }) with inputs := [quietEdge] }

theorem test_witness_OnlyALostPositionStops :
    (lostState.lost = true ∧ (nextInput lostState).rst = false) ∧
    ¬ (resetting.lost = true ∧ (nextInput resetting).rst = false) ∧
    ¬ (midStrobe.lost = true ∧ (nextInput midStrobe).rst = false) := by decide

theorem test_witness_StepsKeepParametersAndRecords : step midStrobe = .next (after midStrobe) := rfl

theorem test_witness_BusyCoreIgnoresRequests :
    midStrobe.regs.fg ≠ .idle ∧ midStrobe.inputs = quietEdge :: [] := by decide

/-- An idle core at an edge with nothing on it but a pulse. -/
def idleTicking : State := { base with inputs := [{ quietEdge with tick := true }] }

theorem test_witness_IdleCoreWaitsForARequest :
    idleTicking.regs.fg = .idle ∧ (nextInput idleTicking).opValid = false ∧ (nextInput idleTicking).rst = false := by
  decide

/-- A refused word about to complete. -/
def refusing : State :=
  { withRegs (fun r => { r with fg := .refusing 0x80000003#32 (.reserved .lineNumber) }) with inputs := [quietEdge] }

theorem test_witness_CompletionsAreOpDonePulses : refusing.opDone = true ∧ midStrobe.opDone = false := by decide

theorem test_witness_ReservedWordsAreRefused :
    let s := offer base 0x80000003#32 1
    s.givesSteps 1 ∧ (nextInput s).opValid = true ∧ decode (nextInput s).opWord = .reserved .lineNumber := by
  unfold State.givesSteps; decide

theorem test_witness_BrokenContractsAreRefused :
    ((offer base 0x60000041#32 1).givesSteps 1 ∧ (offer base 0x60000041#32 1).regs.ddInited = false) ∧
    ((offer ready 0x40000000#32 1).givesSteps 1 ∧ (offer ready 0x40000000#32 1).regs.ddInited = true) ∧
    (let s := offer (withRegs (fun r => { r with cfgState := .setMer })) 0x20000000#32 1;
      s.givesSteps 1 ∧ s.regs.cfgState ≠ .idle) := by
  unfold State.givesSteps; decide

theorem test_witness_RefusalsAreTheListedOnes :
    (withRegs (fun r => { r with tickEn := true })).regs.ddInited = base.regs.ddInited ∧
    (withRegs (fun r => { r with tickEn := true })).regs.cfgState = base.regs.cfgState ∧
    (let s := offer base 0x50000001#32 14;
      s.regs.fg = .idle ∧ (nextInput s).opValid = true ∧ (nextInput s).rst = false) := by decide

theorem test_witness_BcdIncCorrectsTheLowNibble : isBcd 0x98#8 = true ∧ bcdVal 0x98#8 ≤ 98 := by decide

theorem test_witness_TickCountsToTickDiv :
    base.params.valid = true ∧ base.regs.tickCnt < base.params.tickDiv ∧ base.regs.tickEn = false ∧
    (let r := { base.regs with tickEn := true, tickCnt := 2 };
      r.tickCnt < base.params.tickDiv ∧ r.tickEn = true ∧ r.tickCnt + 1 < base.params.tickDiv) ∧
    (let r := { base.regs with tickEn := true, tickCnt := 3 };
      r.tickCnt < base.params.tickDiv ∧ r.tickEn = true ∧ r.tickCnt + 1 = base.params.tickDiv) := by decide

/-- Each clause at its boundary: seconds 58 and 59, minutes 58 and 59, hours 11 and 12. -/
theorem test_witness_SecondMinuteAndHourRollOver :
    ((time 0x12#8 0x59#8 0x58#8 .am).valid = true ∧ (time 0x12#8 0x59#8 0x58#8 .am).second ≠ 0x59#8) ∧
    ((time 0x12#8 0x58#8 0x59#8 .am).valid = true ∧ (time 0x12#8 0x58#8 0x59#8 .am).minute ≠ 0x59#8) ∧
    ((time 0x11#8 0x59#8 0x59#8 .am).valid = true ∧ (time 0x11#8 0x59#8 0x59#8 .am).hour ≠ 0x12#8) ∧
    (time 0x12#8 0x59#8 0x59#8 .pm).valid = true ∧
    validHour (base.regs.hourOf .alarm) = true ∧ validSixty (base.regs.minuteOf .clock) = true := by decide

theorem test_witness_ValidTimesStayValid :
    (time 0x12#8 0x59#8 0x59#8 .pm).valid = true ∧ base.regs.targetValid .clock = true ∧
      base.regs.targetValid .alarm = true := by decide

theorem test_witness_AdvsecIsOneCycleOf86400 :
    (time 0x05#8 0x30#8 0x17#8 .pm).valid = true ∧ (time 0x01#8 0x00#8 0x00#8 .am).valid = true ∧
      0 < 1 ∧ 86399 < 86400 := by decide

theorem test_witness_TickDivTicksAreOneSecond :
    let r := { base.regs with tickEn := true, tickCnt := 3 }
    base.params.valid = true ∧ r.tickEn = true ∧ r.tickCnt < base.params.tickDiv ∧ r.ct.valid = true := by decide

theorem test_witness_TickComesFirstAtASharedEdge :
    (idleTicking.inputs = { quietEdge with tick := true } :: []) ∧
    (let r := { base.regs with ct := time 0x12#8 0x59#8 0x59#8 .am };
      r.ct = { hour := 0x12#8, minute := 0x59#8, second := 0x59#8, mer := .am }) ∧
    (let s := { withRegs (fun r => { r with fg := .busy (encode .tstart) 0 }) with
        inputs := [{ quietEdge with tick := true }] };
      s.regs.fg = .busy (encode .tstart) 0 ∧ s.regs.tickEn = false ∧ (nextInput s).rst = false ∧
        (nextInput s).fgGo = true) := by decide

theorem test_witness_TicksChangeOnlyTheClock :
    idleTicking.inputs ≠ [] ∧ step idleTicking = .next (after idleTicking) := ⟨by decide, rfl⟩

theorem test_witness_AlarmStaysForTheWholeMinute :
    let r := { base.regs with ct := time 0x05#8 0x30#8 0x00#8 .am,
                              alarm := { hour := 0x05#8, minute := 0x30#8, mer := .am } }
    r.ct.valid = true ∧ r.ct.second = 0x00#8 ∧ r.alarmMatch = true ∧ 59 < 60 := by decide

theorem test_witness_TstartStartsTheTick : (offer base 0x10000000#32 2).givesSteps 2 := by
  unfold State.givesSteps; decide

theorem test_witness_CfgentEntersTheHourPhase :
    (offer base 0x20000001#32 2).givesSteps 2 ∧ (offer base 0x20000001#32 2).regs.cfgState = .idle := by
  unfold State.givesSteps; decide

/-- A release of confirm after a press, in POLL's edges. -/
def pressConfirm : List EdgeIn := [draw false true, quietEdge, draw false true, draw true true, quietEdge]

/-- An event of each kind, and a POLL still in progress. -/
theorem test_witness_PollDeliversTheDebouncedEvent :
    ((pollOn base pressConfirm).regs.fg = .idle ∧ (pollOn base pressConfirm).inputs ≠ [] ∧
      (∀ inp ∈ (pollOn base pressConfirm).inputs, inp.rst = false)) ∧
    pollEvent (goEdges (pollOn base pressConfirm).inputs.tail) = some .confirm ∧
    pollEvent [draw true false, quietEdge, draw true false, draw true true, quietEdge] = some .increment ∧
    pollEvent [draw true false, quietEdge, draw true true, quietEdge] = some .none ∧
    pollEvent [draw true false, quietEdge, draw true false, draw true false] = none := by decide

theorem test_witness_PollWithNothingPressedIsImmediate :
    let s := pollOn base [quietEdge, quietEdge]
    s.givesSteps 2 ∧ goEdges s.inputs.tail = quietEdge :: [quietEdge] ∧ quietEdge.btnConfirmN = true ∧
      quietEdge.btnIncrementN = true := by
  unfold State.givesSteps; decide

/-- POLL in its release wait, with these edges to come. -/
def holding (b : Button) (edges : List EdgeIn) : State :=
  { withRegs (fun r => { r with fg := .busy (encode .poll) 3, inState := .hold b }) with inputs := edges }

theorem test_witness_HeldButtonBlocksUntilRelease :
    (let s := holding .confirm [draw false true, draw false true];
      s.regs.fg = .busy (encode .poll) 3 ∧ s.regs.inState = .hold .confirm ∧ s.inputs ≠ [] ∧
        (∀ inp ∈ s.inputs, inp.rst = false) ∧ ∀ inp ∈ goEdges s.inputs, level .confirm inp = false) ∧
    (let s := holding .increment [draw true false, draw true true, quietEdge];
      s.regs.fg = .busy (encode .poll) 3 ∧ s.regs.inState = .hold .increment ∧ s.inputs ≠ [] ∧
        (∀ inp ∈ s.inputs, inp.rst = false) ∧ heldEvent .increment (goEdges s.inputs) = some .increment) := by decide

/-- With a set-up step, 14 edges; without, 12. -/
theorem test_witness_OneByteOperationsSendTheirByte :
    (let s := offer ready 0x500000A5#32 14; s.givesSteps (oneByteSize s.params) ∧ s.regs.ddInited = true) ∧
    (let s := offer (noSetUp ready) 0x500000A5#32 12; s.givesSteps (oneByteSize s.params) ∧ s.regs.ddInited = true) := by
  unfold State.givesSteps; decide

theorem test_witness_LinitSendsTheResetSequence :
    (let s := offer base 0x40000000#32 82; s.givesSteps (linitSize s.params) ∧ s.regs.ddInited = false) ∧
    (let s := offer (noSetUp base) 0x40000000#32 70; s.givesSteps (linitSize s.params) ∧ s.regs.ddInited = false) := by
  unfold State.givesSteps; decide +kernel

theorem test_witness_WtimeSendsTheText :
    (let s := offer ready 0x90120000#32 105; s.givesSteps (wtimeSize s.params) ∧ s.regs.ddInited = true) ∧
    (let s := offer (noSetUp ready) 0x90120000#32 89; s.givesSteps (wtimeSize s.params) ∧ s.regs.ddInited = true) := by
  unfold State.givesSteps; decide +kernel

theorem test_witness_DisplayOperationSizes : base.params.tSu ≠ 0 ∧ (noSetUp base).params.tSu = 0 := by decide

theorem test_witness_EveryTransactionIsAWrite :
    midStrobe.Sound ∧ (∀ x ∈ midStrobe.transactions, x.rw = false) ∧ step midStrobe = .next (after midStrobe) :=
  ⟨by constructor <;> decide, by decide, rfl⟩

/-- A machine in a phase of the alarm wizard. -/
def inPhase (ph : Phase) : Regs := { base.regs with cfgState := ph, cfgTarget := .alarm }

theorem test_witness_ConfigurationTable :
    (inPhase .idle).cfgState = .idle ∧ (inPhase .setHour).cfgState = .setHour ∧ (inPhase .setMin).cfgState = .setMin ∧
      (inPhase .setMer).cfgState = .setMer := by decide

theorem test_witness_ThreeConfirmsEndAWizard : (inPhase .setHour).cfgState = .setHour := by decide

/-- POLL about to deliver the event of `b` in a phase. -/
def delivering (ph : Phase) (b : Button) : State :=
  { withRegs (fun r => { r with cfgState := ph, cfgTarget := .alarm, fg := .busy (encode .poll) 4, inState := .hold b })
    with inputs := [quietEdge] }

/-- CFGENT ALARM about to enter the hour phase. -/
def entering : State := { withRegs (fun r => { r with fg := .busy (encode (.cfgent .alarm)) 0 }) with inputs := [quietEdge] }

/-- Each phase at the edge at which it changes. -/
theorem test_witness_PhasesChangeOnlyByConfirm :
    (entering.Sound ∧ (nextInput entering).rst = false ∧ (clockEdge entering).regs.cfgState ≠ entering.regs.cfgState) ∧
    ∀ ph, ph ≠ .idle → (delivering ph .confirm).Sound ∧ (nextInput (delivering ph .confirm)).rst = false ∧
      (clockEdge (delivering ph .confirm)).regs.cfgState ≠ (delivering ph .confirm).regs.cfgState := by
  refine ⟨⟨by constructor <;> decide, by decide, by decide⟩, fun ph h => ?_⟩
  cases ph with
  | idle => exact absurd rfl h
  | setHour => exact ⟨by constructor <;> decide, by decide, by decide⟩
  | setMin => exact ⟨by constructor <;> decide, by decide, by decide⟩
  | setMer => exact ⟨by constructor <;> decide, by decide, by decide⟩

theorem test_witness_WizardExampleSetsTheAlarm :
    base.regs.alarm = { hour := 0x12#8, minute := 0x00#8, mer := .am } := by decide

/-- An alarm wizard changes AlarmTime; a clock wizard changes ClockTime at an edge without a pulse. -/
theorem test_witness_TimesAreWrittenOnlyByTheirOwners :
    (let s := delivering .setMin .increment;
      (nextInput s).rst = false ∧ (clockEdge s).regs.alarm ≠ s.regs.alarm) ∧
    (let s := { delivering .setMin .increment with
        regs := { (delivering .setMin .increment).regs with cfgTarget := .clock } };
      (nextInput s).rst = false ∧ (nextInput s).tick = false ∧ (clockEdge s).regs.ct ≠ s.regs.ct) := by decide

theorem test_witness_EnableBitsAreSetOnlyByTheirOperations :
    (let s := { withRegs (fun r => { r with fg := .busy (encode .tstart) 0 }) with inputs := [quietEdge] };
      (nextInput s).rst = false ∧ s.regs.tickEn = false ∧ (clockEdge s).regs.tickEn = true) ∧
    (let s := { withRegs (fun r => { r with fg := .busy (encode .linit) 80 }) with inputs := [quietEdge] };
      (nextInput s).rst = false ∧ s.regs.ddInited = false ∧ (clockEdge s).regs.ddInited = true) ∧
    ready.regs.ddInited = true := by decide

theorem test_witness_PinsBelongToDisplayOperations :
    (nextInput entering).rst = false ∧
    ∀ w k i, entering.regs.fg = .busy w k → decode w = .instr i → i = .tstart ∨ (∃ t, i = .cfgent t) ∨ i = .poll := by
  refine ⟨by decide, fun w k i hf hd => ?_⟩
  have hw : w = 0x20000001#32 := by
    have : entering.regs.fg = .busy 0x20000001#32 0 := by decide
    rw [this] at hf
    exact (Fg.busy.inj hf).1.symm
  subst hw
  exact .inr (.inl ⟨.alarm, (Decoded.instr.inj ((show decode 0x20000001#32 = _ by decide).symm.trans hd)).symm⟩)

/-- States with other registers than those of reset, one for each code. -/
theorem test_witness_OutputCodes :
    (base.outputs.ctMer = 0#1 ∧ base.outputs.atMer = 0#1 ∧ base.outputs.ev = 0b00#2 ∧ base.outputs.cfgState = 0b00#2 ∧
      base.outputs.cfgTarget = 0#1) ∧
    ((after (pollOn base pressConfirm)).outputs.ev = 0b01#2 ∧
      (after (pollOn base [draw true false, quietEdge, draw true false, draw true true, quietEdge])).outputs.ev =
        0b10#2) ∧
    ([Phase.setHour, .setMin, .setMer].map (fun ph => (withRegs (fun _ => inPhase ph)).outputs.cfgState) =
      [0b01#2, 0b10#2, 0b11#2]) ∧
    (withRegs (fun _ => inPhase .setHour)).outputs.cfgTarget = 1#1 ∧
    (withRegs (fun r => r.togm .alarm)).outputs.atMer = 1#1 ∧
    (withRegs (fun r => r.togm .clock)).outputs.ctMer = 1#1 := by decide

theorem test_witness_NibbleTransaction :
    base.params.tSu ≠ 0 ∧ (noSetUp base).params.tSu = 0 ∧ base.params.valid = true ∧
    Micro.pins true false 0x5#4 ∈ nibSteps base.params true 0x5#4 ∧
    Micro.e true ∈ nibSteps base.params true 0x5#4 ∧ Micro.e false ∈ nibSteps base.params true 0x5#4 ∧
    Micro.wait .su ∈ nibSteps base.params true 0x5#4 ∧ Micro.wait .su ≠ Micro.pins true false 0x5#4 := by decide

end Sys2Proof.Tests
end

section
/-! PROOFS. The reset values of the state elements (10_state.md R38). -/

namespace Sys2Proof.Machine

@[simp] theorem State.reset_regs : State.reset.regs = Regs.reset := rfl

/-- Settles O4: the registers after reset are the record `Regs.reset`, a closed value, so each of the nineteen rows
of R38's table is a decidable comparison with a constant. -/
theorem resetValuesAreTheTable : Obligations.ResetValuesAreTheTable := by
  unfold Obligations.ResetValuesAreTheTable
  rw [State.reset_regs]
  decide

end Sys2Proof.Machine
end

section
/-! PROOFS. A pulse and a micro-step at one shared edge: the tick comes first (20_memory.md R73). -/

namespace Sys2Proof.Machine

/-! ## What does not look at the pulse -/

/-- A refusal depends on `dd_inited` and `cfg_state` only (R242). -/
theorem refusalOf_congr (i : Instr) {r q : Regs} (hd : r.ddInited = q.ddInited) (hc : r.cfgState = q.cfgState) :
    refusalOf i r = refusalOf i q := by
  cases i <;> simp only [refusalOf, displayRefusal, initRefusal, wizardRefusal, hd, hc]

theorem wordRefusal_congr (w : Word) {r q : Regs} (hd : r.ddInited = q.ddInited) (hc : r.cfgState = q.cfgState) :
    wordRefusal w r = wordRefusal w q := by
  unfold wordRefusal
  split
  · exact refusalOf_congr _ hd hc
  · rfl

@[simp] theorem wordRefusal_tickPulse (w : Word) (p : Params) (r : Regs) :
    wordRefusal w (r.tickPulse p) = wordRefusal w r :=
  wordRefusal_congr w (tickPulse_ddInited p r) (tickPulse_cfgState p r)

@[simp] theorem noTickEdge_rst (inp : EdgeIn) : (noTickEdge inp).rst = inp.rst := rfl
@[simp] theorem noTickEdge_opValid (inp : EdgeIn) : (noTickEdge inp).opValid = inp.opValid := rfl
@[simp] theorem noTickEdge_opWord (inp : EdgeIn) : (noTickEdge inp).opWord = inp.opWord := rfl
@[simp] theorem noTickEdge_fgGo (inp : EdgeIn) : (noTickEdge inp).fgGo = inp.fgGo := rfl

@[simp] theorem level_noTickEdge (b : Button) (inp : EdgeIn) : level b (noTickEdge inp) = level b inp := by
  cases b <;> rfl

/-- A micro-step reads the buttons of its edge, and nothing else of its inputs. -/
@[simp] theorem microStep_noTickEdge (m : Micro) (w : Word) (k : Nat) (inp : EdgeIn) (s : State) :
    microStep m w k (noTickEdge inp) s = microStep m w k inp s := by
  cases m with
  | sample => rfl
  | resample => simp only [microStep, resampleStep, level_noTickEdge]
  | hold => simp only [microStep, holdStep, level_noTickEdge]
  | pins | e | wait | ce | debounce | deliverPress | deliverNone | done => rfl

@[simp] theorem foreground_noTickEdge (inp : EdgeIn) (s : State) :
    foreground (noTickEdge inp) s = foreground inp s := by
  simp only [foreground, microStep_noTickEdge, noTickEdge_fgGo]

/-! ## The pulse first, then the same edge without it -/

/-- `s` with the pulse of its next edge `inp` already applied, and that edge left without it. -/
def State.pulseTaken (inp : EdgeIn) (rest : List EdgeIn) (s : State) : State :=
  { s with regs := s.regs.tickPulse s.params, inputs := noTickEdge inp :: rest }

theorem nextInput_pulseTaken (inp : EdgeIn) (rest : List EdgeIn) (s : State) :
    nextInput (s.pulseTaken inp rest) = noTickEdge inp := rfl

theorem pulseTaken_fg (inp : EdgeIn) (rest : List EdgeIn) (s : State) :
    (s.pulseTaken inp rest).regs.fg = s.regs.fg := tickPulse_fg s.params s.regs

/-- Both ways of taking the pulse leave the foreground engine the same state to act on. -/
theorem tickPart_pulseTaken {s : State} {inp : EdgeIn} {rest : List EdgeIn} (hl : s.inputs = inp :: rest)
    (ht : inp.tick = true) :
    (s.pulseTaken inp rest).consume.tickPart (noTickEdge inp) = s.consume.tickPart inp := by
  simp [State.tickPart, State.consume, State.pulseTaken, noTickEdge, hl, ht]

theorem clockEdge_pulseTaken {s : State} {inp : EdgeIn} {rest : List EdgeIn} (hl : s.inputs = inp :: rest)
    (hr : inp.rst = false) (ht : inp.tick = true) : clockEdge s = clockEdge (s.pulseTaken inp rest) := by
  have hn : nextInput s = inp := nextInput_cons hl
  have hq : nextInput (s.pulseTaken inp rest) = noTickEdge inp := nextInput_pulseTaken inp rest s
  have hfg := pulseTaken_fg inp rest s
  have hrs : (nextInput s).rst = false := by rw [hn, hr]
  have hrq : (nextInput (s.pulseTaken inp rest)).rst = false := by rw [hq, noTickEdge_rst, hr]
  by_cases h : s.regs.fg = .idle ∧ inp.opValid = true
  · obtain ⟨hf, hv⟩ := h
    have hrefuse : wordRefusal inp.opWord (s.pulseTaken inp rest).regs = wordRefusal inp.opWord s.regs :=
      wordRefusal_tickPulse _ _ _
    rw [acceptEdge_clockEdge hf (by rw [hn, hv]), acceptEdge_noRst _ _ hrs, hn,
      acceptEdge_clockEdge (by rw [hfg, hf]) (by rw [hq, noTickEdge_opValid, hv]), acceptEdge_noRst _ _ hrq, hq,
      tickPart_pulseTaken hl ht, noTickEdge_opWord, hrefuse]
  · rw [runEdge_clockEdge (by rw [hn]; exact h), runEdge_noRst hrs, hn,
      runEdge_clockEdge (by rw [hfg, hq]; exact h), runEdge_noRst hrq, hq,
      tickPart_pulseTaken hl ht, foreground_noTickEdge]

/-! ## The two orders of a second's advance and INCM CLOCK -/

theorem incm_clock_ct (r : Regs) : (r.incm .clock).ct = { r.ct with minute := nextMinute r.ct.minute } := rfl

/-- At 12:59:59 the advance carries through the minute into the hour, and from 12 to 1 the meridiem toggles. -/
theorem advsec_at_125959 (mer : Meridiem) :
    ({ hour := 0x12#8, minute := 0x59#8, second := 0x59#8, mer := mer } : ClockTime).advsec =
      { hour := 0x01#8, minute := 0x00#8, second := 0x00#8, mer := mer.toggle } := by
  cases mer <;> decide

/-- At 12:00:59, where INCM leaves 12:59:59, the advance only carries into the minute. -/
theorem advsec_at_120059 (mer : Meridiem) :
    ({ hour := 0x12#8, minute := 0x00#8, second := 0x59#8, mer := mer } : ClockTime).advsec =
      { hour := 0x12#8, minute := 0x01#8, second := 0x00#8, mer := mer } := by
  cases mer <;> decide

/-! ## A pulse at TSTART's micro-step -/

theorem stepsAt_encode_tstart (p : Params) : stepsAt p (encode .tstart) = tstartSteps := by
  have hdec : decode (encode .tstart) = .instr .tstart := by decide
  simp [stepsAt, hdec, stepsOf]

/-- TSTART's micro-step at an edge with or without a pulse: the tick agent has acted on the old `tick_en`. -/
theorem clockEdge_tstart_regs {s : State} (hf : s.regs.fg = .busy (encode .tstart) 0)
    (hr : (nextInput s).rst = false) (hgo : (nextInput s).fgGo = true) :
    (clockEdge s).regs =
      { (s.consume.tickPart (nextInput s)).regs with tickEn := true, fg := .busy (encode .tstart) 1 } := by
  have hfg : (s.consume.tickPart (nextInput s)).regs.fg = .busy (encode .tstart) 0 := by
    rw [tickPart_regs]; split <;> simp [hf]
  rw [clockEdge_busy (by simp [hf]) hr,
    foreground_busy hgo hfg (m := .ce .tickOn) (by rw [stepsAt_encode_tstart]; rfl)]
  rfl

/-- Settles O24. An edge reads its pulse in the tick agent's part alone, so the pulse may be applied before it; the
two orders at 12:59:59 differ in whether the advance meets minute 59; TSTART writes `tick_en` after the tick agent
has read it. -/
theorem tickComesFirstAtASharedEdge : Obligations.TickComesFirstAtASharedEdge := by
  unfold Obligations.TickComesFirstAtASharedEdge
  refine ⟨fun s inp rest hl hr ht => clockEdge_pulseTaken hl hr ht, fun r mer hct => ⟨?_, ?_⟩,
    fun s hf hen hr hgo => ?_⟩
  · have h00 : nextMinute 0x00#8 = 0x01#8 := by decide
    rw [incm_clock_ct, hct, advsec_at_125959, h00]
  · have h59 : nextMinute 0x59#8 = 0x00#8 := by decide
    rw [incm_clock_ct, hct, h59, advsec_at_120059]
  · have hpulse : s.regs.tickPulse s.params = s.regs := tickPulse_off s.params hen
    rw [clockEdge_tstart_regs hf hr hgo, tickPart_regs, consume_regs, consume_params, hpulse, ite_self]

end Sys2Proof.Machine
end

section
/-! PROOFS. Decoding and the operation map (30_encoding.md R91 to R93). -/

namespace Sys2Proof

/-! ## The words that decode to an instruction are the instructions' own words -/

theorem whenUnused_eq_instr {zero : Bool} {i j : Instr} : whenUnused zero i = .instr j ↔ zero = true ∧ i = j := by
  cases zero <;> simp [whenUnused]

theorem decodeLine_eq_instr {ab : Bool} {c : Byte} {i : Instr} :
    decodeLine ab c = .instr i ↔ ab = true ∧ (c = 0x01#8 ∧ .goto1 = i ∨ c = 0x02#8 ∧ .goto2 = i) := by
  unfold decodeLine
  by_cases h1 : c = 0x01#8
  · simp [h1, whenUnused_eq_instr]
  · by_cases h2 : c = 0x02#8 <;> simp [h1, h2, whenUnused_eq_instr]

theorem mkWord_eq {w : Word} {o : Nibble} {a b c : Byte} (hz : zField w = 0#4) (ho : opField w = o)
    (ha : aField w = a) (hb : bField w = b) (hc : cField w = c) : mkWord o a b c = w := by
  rw [← mkWord_fields w hz, ho, ha, hb, hc]

/-- The decoder answers with an instruction only when `z` is zero and every field its row does not use is (R91). -/
theorem encode_of_decode {w : Word} {i : Instr} (h : decode w = .instr i) : encode i = w := by
  unfold decode at h
  split at h
  · cases h
  next hz =>
    replace hz : zField w = 0#4 := not_not.mp hz
    split at h <;> rename_i ho <;>
      simp only [whenUnused_eq_instr, decodeLine_eq_instr, Bool.and_eq_true, beq_iff_eq] at h
    case h_1 | h_3 | h_4 | h_7 => -- TSTART, POLL, LINIT, LCLR
      obtain ⟨⟨⟨ha, hb⟩, hc⟩, rfl⟩ := h
      exact mkWord_eq hz (BitVec.eq_of_toNat_eq ho) ha hb hc
    case h_2 => -- CFGENT
      obtain ⟨⟨⟨ha, hb⟩, hc⟩, rfl⟩ := h
      exact mkWord_eq hz (BitVec.eq_of_toNat_eq ho) ha hb (targetByte_targetOf _ hc).symm
    case h_5 | h_6 => -- WCMD, WDAT
      obtain ⟨⟨ha, hb⟩, rfl⟩ := h
      exact mkWord_eq hz (BitVec.eq_of_toNat_eq ho) ha hb rfl
    case h_8 => -- GOTO
      obtain ⟨⟨ha, hb⟩, ⟨hc, rfl⟩ | ⟨hc, rfl⟩⟩ := h <;> exact mkWord_eq hz (BitVec.eq_of_toNat_eq ho) ha hb hc
    case h_9 => -- WTIME
      cases h
      exact mkWord_eq hz (BitVec.eq_of_toNat_eq ho) rfl rfl rfl
    case h_10 => cases h

theorem decode_encode (i : Instr) : decode (encode i) = .instr i := by
  cases i with
  | cfgent t => cases t <;> decide
  | tstart | poll | linit | lclr | goto1 | goto2 => decide
  | wcmd b | wdat b | wtime h m s => simp [decode, encode, whenUnused]

/-! ## No two rows select one word -/

/-- A bit that both rows fix, to different values, cannot have both values in one word. -/
theorem not_selects_both {r q : TableRow} (h : r.disjoint q = true) (w : Word) :
    ¬ (r.selects w = true ∧ q.selects w = true) := by
  rintro ⟨hr, hq⟩
  rw [TableRow.selects, beq_iff_eq] at hr hq
  have hagree : (r.pattern ^^^ q.pattern) &&& r.mask &&& q.mask = 0#32 := by
    rw [← hr, ← hq]
    ext i hi
    simp only [BitVec.getElem_and, BitVec.getElem_xor, BitVec.getElem_zero]
    cases w[i] <;> cases r.mask[i] <;> cases q.mask[i] <;> rfl
  simp [TableRow.disjoint, hagree] at h

theorem operationMap_disjoint :
    ∀ r ∈ operationMap, ∀ q ∈ operationMap, r ≠ q → r.disjoint q = true := by decide

theorem row_unique {r q : TableRow} (hr : r ∈ operationMap) (hq : q ∈ operationMap) {w : Word}
    (hrw : r.selects w = true) (hqw : q.selects w = true) : r = q := by
  by_contra hne
  exact not_selects_both (operationMap_disjoint r hr q hq hne) w ⟨hrw, hqw⟩

theorem operationMap_no_overlap :
    operationMap.Pairwise (fun r q => ∀ w, ¬ (r.selects w = true ∧ q.selects w = true)) := by
  have hnodup : operationMap.Nodup := by decide
  exact hnodup.pairwise_of_forall_ne fun r hr q hq hne => not_selects_both (operationMap_disjoint r hr q hq hne)

theorem row_of_mnemonic_unique :
    ∀ r ∈ operationMap, ∀ q ∈ operationMap, r.mnemonic = q.mnemonic → r = q := by decide

/-! ## The rows that select an instruction's word -/

theorem firstRow_holds (i : Instr) : Laws.FirstRow.Statement i := by
  cases i with
  | tstart => exact Laws.FirstRow.tstart
  | cfgent t => exact Laws.FirstRow.cfgent t
  | poll => exact Laws.FirstRow.poll
  | linit => exact Laws.FirstRow.linit
  | wcmd b => exact Laws.FirstRow.wcmd b
  | wdat b => exact Laws.FirstRow.wdat b
  | lclr => exact Laws.FirstRow.lclr
  | goto1 => exact Laws.FirstRow.goto1
  | goto2 => exact Laws.FirstRow.goto2
  | wtime h m s => exact Laws.FirstRow.wtime h m s

theorem exists_row_selects_encode (i : Instr) :
    ∃ r ∈ operationMap, r.selects (encode i) = true ∧ r.mnemonic = i.mnemonic := by
  obtain ⟨r, hfind, hname⟩ := Option.map_eq_some_iff.mp (firstRow_holds i)
  have hsel : r.selects (encode i) = true := List.find?_some (p := fun q : TableRow => q.selects (encode i)) hfind
  exact ⟨r, List.mem_of_find?_eq_some hfind, hsel, hname⟩

theorem selects_encode_iff {r : TableRow} (hr : r ∈ operationMap) (i : Instr) :
    r.selects (encode i) = true ↔ r.mnemonic = i.mnemonic := by
  obtain ⟨q, hq, hsel, hname⟩ := exists_row_selects_encode i
  constructor
  · intro h
    rw [row_unique hr hq h hsel, hname]
  · intro h
    rw [row_of_mnemonic_unique r hr q hq (h.trans hname.symm)]
    exact hsel

/-! ## A word that a row selects is an instruction's word -/

theorem eq_of_and_full {n : Nat} {x m p : BitVec n} (h : x &&& m = p) (hm : m = BitVec.allOnes n) : x = p := by
  rw [← h, hm, BitVec.and_allOnes]

theorem eq_pattern_of_selects {r : TableRow} {w : Word} (h : r.selects w = true) (hm : r.mask = BitVec.allOnes 32) :
    w = r.pattern :=
  eq_of_and_full (beq_iff_eq.mp h) hm

/-- The one bit that CFGENT's row leaves open is the target (R91, R92). -/
theorem targetByte_of_and {c m p : Byte} (h : c &&& m = p) (hm : m = 0xFE#8) (hp : p = 0x00#8) :
    targetByte (targetOf (c.getLsbD 0)) = c := by
  rw [hm, hp] at h
  revert h
  revert c
  decide

theorem exists_encode_of_selects {r : TableRow} (hr : r ∈ operationMap) {w : Word} (h : r.selects w = true) :
    ∃ i, encode i = w := by
  simp only [operationMap, List.mem_cons, List.not_mem_nil, or_false] at hr
  obtain rfl | rfl | rfl | rfl | rfl | rfl | rfl | rfl | rfl | rfl := hr
  · exact ⟨.tstart, by rw [eq_pattern_of_selects h rfl]; decide⟩
  · obtain ⟨ho, hz, ha, hb, hc⟩ := (selects_iff _ w).mp h
    exact ⟨.cfgent (targetOf ((cField w).getLsbD 0)), mkWord_eq (eq_of_and_full hz rfl) (eq_of_and_full ho rfl)
      (eq_of_and_full ha rfl) (eq_of_and_full hb rfl) (targetByte_of_and hc rfl rfl).symm⟩
  · exact ⟨.poll, by rw [eq_pattern_of_selects h rfl]; decide⟩
  · exact ⟨.linit, by rw [eq_pattern_of_selects h rfl]; decide⟩
  · obtain ⟨ho, hz, ha, hb, -⟩ := (selects_iff _ w).mp h
    exact ⟨.wcmd (cField w), mkWord_eq (eq_of_and_full hz rfl) (eq_of_and_full ho rfl) (eq_of_and_full ha rfl)
      (eq_of_and_full hb rfl) rfl⟩
  · obtain ⟨ho, hz, ha, hb, -⟩ := (selects_iff _ w).mp h
    exact ⟨.wdat (cField w), mkWord_eq (eq_of_and_full hz rfl) (eq_of_and_full ho rfl) (eq_of_and_full ha rfl)
      (eq_of_and_full hb rfl) rfl⟩
  · exact ⟨.lclr, by rw [eq_pattern_of_selects h rfl]; decide⟩
  · exact ⟨.goto1, by rw [eq_pattern_of_selects h rfl]; decide⟩
  · exact ⟨.goto2, by rw [eq_pattern_of_selects h rfl]; decide⟩
  · obtain ⟨ho, hz, -, -, -⟩ := (selects_iff _ w).mp h
    exact ⟨.wtime (aField w) (bField w) (cField w),
      mkWord_eq (eq_of_and_full hz rfl) (eq_of_and_full ho rfl) rfl rfl rfl⟩

/-- Settles O3: the words that decode to an instruction are the words of `encode`, so each clause is about `encode i`;
which rows select that word follows from one row that does and from no two rows overlapping. -/
theorem decodingFollowsTheOperationMap : Obligations.DecodingFollowsTheOperationMap := by
  unfold Obligations.DecodingFollowsTheOperationMap
  refine ⟨fun w => ⟨?_, ?_⟩, ?_, ?_, ?_, ?_, ?_, operationMap_no_overlap⟩
  · rintro ⟨i, hi⟩
    obtain ⟨r, hr, hsel, -⟩ := exists_row_selects_encode i
    exact List.any_eq_true.mpr ⟨r, hr, encode_of_decode hi ▸ hsel⟩
  · intro hw
    obtain ⟨r, hr, hsel⟩ := List.any_eq_true.mp hw
    obtain ⟨i, rfl⟩ := exists_encode_of_selects hr hsel
    exact ⟨i, decode_encode i⟩
  · intro w i hi r hr
    rw [← encode_of_decode hi]
    exact selects_encode_iff hr i
  · intro w t ht
    rw [← encode_of_decode ht]
    cases t <;> decide
  · intro w b hb
    rw [← encode_of_decode hb, encode, cField_mkWord]
  · intro w b hb
    rw [← encode_of_decode hb, encode, cField_mkWord]
  · intro w h m s hw
    rw [← encode_of_decode hw, encode, aField_mkWord, bField_mkWord, cField_mkWord]
    exact ⟨rfl, rfl, rfl⟩

end Sys2Proof
end

section
/-! PROOFS. The codes on the output ports (30_encoding.md R95 to R97). -/

namespace Sys2Proof.Machine

/-! ## Each code has one meaning -/

theorem Meridiem.code_injective : Function.Injective Meridiem.code := by
  intro m n h
  cases m <;> cases n <;> simp [Meridiem.code] at h ⊢

theorem InputEvent.code_injective : Function.Injective InputEvent.code := by
  intro e f h
  cases e <;> cases f <;> simp [InputEvent.code] at h ⊢

theorem InputEvent.code_ne_three (e : InputEvent) : e.code ≠ 0b11#2 := by
  cases e <;> decide

theorem Phase.code_injective : Function.Injective Phase.code := by
  intro p q h
  cases p <;> cases q <;> simp [Phase.code] at h ⊢

theorem targetCode_injective : Function.Injective targetCode := by
  intro t u h
  cases t <;> cases u <;> simp [targetCode] at h ⊢

theorem Meridiem.code_toggle (m : Meridiem) : m.toggle.code = m.code ^^^ 1#1 := by
  cases m <;> rfl

/-- Settles O45: each port carries the code of a register, and the codes are injective, so a code stands on the port
exactly when the register holds the value it is the code of. -/
theorem outputCodes : Obligations.OutputCodes := by
  unfold Obligations.OutputCodes
  refine ⟨fun s => ⟨?mer, ?alarmMer, ?ev, ?phase, ?target⟩, Meridiem.code_toggle, by decide, by decide⟩
  case mer =>
    exact ⟨Meridiem.code_injective.eq_iff (b := .am), Meridiem.code_injective.eq_iff (b := .pm)⟩
  case alarmMer =>
    exact ⟨Meridiem.code_injective.eq_iff (b := .am), Meridiem.code_injective.eq_iff (b := .pm)⟩
  case ev =>
    exact ⟨InputEvent.code_injective.eq_iff (b := .none), InputEvent.code_injective.eq_iff (b := .confirm),
      InputEvent.code_injective.eq_iff (b := .increment), InputEvent.code_ne_three s.regs.ev⟩
  case phase =>
    exact ⟨Phase.code_injective.eq_iff (b := .idle), Phase.code_injective.eq_iff (b := .setHour),
      Phase.code_injective.eq_iff (b := .setMin), Phase.code_injective.eq_iff (b := .setMer)⟩
  case target =>
    exact ⟨targetCode_injective.eq_iff (b := .clock), targetCode_injective.eq_iff (b := .alarm)⟩

end Sys2Proof.Machine
end

section
/-! PROOFS. The nibble transaction (40_display.md R122). -/

namespace Sys2Proof.Machine

theorem nibSteps_of_setUp {p : Params} (h : p.tSu ≠ 0) (rs : Bool) (n : Nibble) :
    nibSteps p rs n = [.pins rs false n, .wait .su, .e true, .wait .ew, .e false, .wait .eh] := by
  simp [nibSteps, setUpSteps, h]

theorem nibSteps_of_noSetUp {p : Params} (h : p.tSu = 0) (rs : Bool) (n : Nibble) :
    nibSteps p rs n = [.pins rs false n, .e true, .wait .ew, .e false, .wait .eh] := by
  simp [nibSteps, setUpSteps, h]

/-- The three forms a micro-step of `NIB` has. -/
theorem nibSteps_forms (p : Params) (rs : Bool) (n : Nibble) :
    ∀ m ∈ nibSteps p rs n, m = .pins rs false n ∨ (∃ v, m = .e v) ∨ ∃ d, m = .wait d :=
  nib_cases (P := fun l _ => ∀ m ∈ l, m = .pins rs false n ∨ (∃ v, m = .e v) ∨ ∃ d, m = .wait d) p rs n
    (by simp) (by simp)

theorem valid_strobe_and_hold {p : Params} (h : p.valid = true) :
    230 ≤ durationOf p .ew ∧ 10 ≤ durationOf p .eh := by
  obtain ⟨-, -, -, hEw, hEh, -⟩ := of_decide_eq_true h
  exact ⟨hEw, hEh⟩

theorem microStep_pins_regs (rs rw : Bool) (d : Nibble) (w : Word) (k : Nat) (inp : EdgeIn) (s : State) :
    (microStep (.pins rs rw d) w k inp s).regs =
      { s.regs with lcdRs := rs, lcdRw := rw, lcdDb := d, fg := .busy w (k + 1) } := rfl

theorem microStep_e_regs (v : Bool) (w : Word) (k : Nat) (inp : EdgeIn) (s : State) :
    (microStep (.e v) w k inp s).regs = { s.regs with lcdE := v, fg := .busy w (k + 1) } := rfl

theorem microStep_wait_regs (d : Delay) (w : Word) (k : Nat) (inp : EdgeIn) (s : State) :
    (microStep (.wait d) w k inp s).regs = { s.regs with fg := .busy w (k + 1) } := rfl

/-- Settles O46: the list is read off `T_SU`, the transaction off what the list records, and the registers after a
micro-step off its form: `pins`, `e` or `wait`. -/
theorem nibbleTransaction : Obligations.NibbleTransaction := by
  unfold Obligations.NibbleTransaction
  refine fun p rs n => ⟨fun h => nibSteps_of_setUp h rs n, fun h => nibSteps_of_noSetUp h rs n, fun x => ?nt,
    valid_strobe_and_hold, fun m hm w k inp s => ?frame⟩
  case nt => rw [recordsOf_nibSteps, transactionsFrom_nibRecs, nibNT]
  case frame =>
    obtain rfl | ⟨v, rfl⟩ | ⟨d, rfl⟩ := nibSteps_forms p rs n m hm
    · simp [microStep_pins_regs]
    · simp [microStep_e_regs]
    · simp [microStep_wait_regs]

end Sys2Proof.Machine
end

section
/-! PROOFS. One packed BCD byte in decimal, and `bcd_inc` (41_clock_engine.md R160). -/

namespace Sys2Proof.Machine

/-! ## A byte's digits as numbers -/

theorem hiNibble_toNat (b : Byte) : (hiNibble b).toNat = b.toNat / 16 := by
  simp only [hiNibble, BitVec.extractLsb'_toNat, Nat.shiftRight_eq_div_pow]
  omega

theorem loNibble_toNat (b : Byte) : (loNibble b).toNat = b.toNat % 16 := by
  simp [loNibble, BitVec.extractLsb'_toNat]

theorem bcdVal_eq (v : Byte) : bcdVal v = 10 * (v.toNat / 16) + v.toNat % 16 := by
  rw [bcdVal, hiNibble_toNat, loNibble_toNat]

theorem isBcd_iff (v : Byte) : isBcd v = true ↔ v.toNat / 16 ≤ 9 ∧ v.toNat % 16 ≤ 9 := by
  simp [isBcd, BitVec.le_def, hiNibble_toNat, loNibble_toNat]

theorem toBcd_toNat {d : Nat} (h : d ≤ 99) : (toBcd d).toNat = 16 * (d / 10) + d % 10 := by
  have hlo : d % 10 % 16 < 2 ^ 4 := Nat.mod_lt _ (by decide)
  rw [toBcd, BitVec.toNat_append, BitVec.toNat_ofNat, BitVec.toNat_ofNat, ← Nat.shiftLeft_add_eq_or_of_lt hlo,
    Nat.shiftLeft_eq]
  omega

theorem toBcd_bcdVal {v : Byte} (h : isBcd v = true) : toBcd (bcdVal v) = v := by
  obtain ⟨hhi, hlo⟩ := (isBcd_iff v).1 h
  apply BitVec.eq_of_toNat_eq
  rw [toBcd_toNat (by rw [bcdVal_eq]; omega), bcdVal_eq]
  omega

theorem bcdVal_toBcd {d : Nat} (h : d ≤ 99) : bcdVal (toBcd d) = d := by
  rw [bcdVal_eq, toBcd_toNat h]
  omega

theorem isBcd_toBcd {d : Nat} (h : d ≤ 99) : isBcd (toBcd d) = true := by
  rw [isBcd_iff, toBcd_toNat h]
  omega

/-- BCD bytes of one value are one byte. -/
theorem bcdVal_inj {u v : Byte} (hu : isBcd u = true) (hv : isBcd v = true) (h : bcdVal u = bcdVal v) : u = v := by
  rw [← toBcd_bcdVal hu, h, toBcd_bcdVal hv]

/-! ## `bcd_inc` -/

theorem bcdInc_toNat (v : Byte) : (bcdInc v).toNat =
    if (v.toNat + 1) % 256 % 16 > 9 then ((v.toNat + 1) % 256 + 6) % 256 else (v.toNat + 1) % 256 := by
  have hcarry : 9#4 < loNibble (v + 1#8) ↔ (v.toNat + 1) % 256 % 16 > 9 := by
    simp [BitVec.lt_def, loNibble_toNat]
  simp only [bcdInc, hcarry, apply_ite BitVec.toNat, BitVec.toNat_add, BitVec.toNat_ofNat]

/-- On BCD bytes `bcd_inc` counts in decimal. -/
theorem bcdInc_eq_toBcd {v : Byte} (hb : isBcd v = true) (hv : bcdVal v ≤ 98) : bcdInc v = toBcd (bcdVal v + 1) := by
  obtain ⟨hhi, hlo⟩ := (isBcd_iff v).1 hb
  apply BitVec.eq_of_toNat_eq
  rw [bcdInc_toNat, toBcd_toNat (by omega)]
  rw [bcdVal_eq] at hv ⊢
  split <;> omega

/-- Settles O18: the carry test reads the low nibble of `v + 1`, and on BCD bytes it is the decimal carry. -/
theorem bcdIncCorrectsTheLowNibble : Obligations.BcdIncCorrectsTheLowNibble := by
  unfold Obligations.BcdIncCorrectsTheLowNibble
  exact ⟨bcdInc_toNat, fun _ => bcdInc_eq_toBcd, by decide⟩

end Sys2Proof.Machine
end

section
/-! PROOFS. ADVSEC and the wizard's operations on valid times (41_clock_engine.md R163 to R174). -/

namespace Sys2Proof.Machine

/-! ## Valid fields -/

theorem validSixty_iff (v : Byte) : validSixty v = true ↔ isBcd v = true ∧ bcdVal v ≤ 59 := by
  simp [validSixty]

theorem validHour_iff (h : Byte) : validHour h = true ↔ isBcd h = true ∧ 1 ≤ bcdVal h ∧ bcdVal h ≤ 12 := by
  simp [validHour, and_assoc]

theorem isBcd_of_validSixty {v : Byte} (h : validSixty v = true) : isBcd v = true := ((validSixty_iff v).1 h).1

theorem isBcd_of_validHour {h : Byte} (hh : validHour h = true) : isBcd h = true := ((validHour_iff h).1 hh).1

theorem ClockTime.valid_iff (c : ClockTime) :
    c.valid = true ↔ validHour c.hour = true ∧ validSixty c.minute = true ∧ validSixty c.second = true := by
  simp [ClockTime.valid, and_assoc]

theorem AlarmTime.valid_iff (a : AlarmTime) :
    a.valid = true ↔ validHour a.hour = true ∧ validSixty a.minute = true := by
  simp [AlarmTime.valid]

theorem bcdInc_sixty {v : Byte} (h : validSixty v = true) : bcdInc v = toBcd (bcdVal v + 1) := by
  obtain ⟨hb, hv⟩ := (validSixty_iff v).1 h
  exact bcdInc_eq_toBcd hb (by omega)

theorem bcdInc_hour {h : Byte} (hh : validHour h = true) : bcdInc h = toBcd (bcdVal h + 1) := by
  obtain ⟨hb, -, hv⟩ := (validHour_iff h).1 hh
  exact bcdInc_eq_toBcd hb (by omega)

theorem bcdInc_sixty_over {v : Byte} (h : validSixty v = true) : 0x59#8 < bcdInc v ↔ v = 0x59#8 :=
  (validSixty_bcdInc v h).1

theorem bcdInc_hour_over {h : Byte} (hh : validHour h = true) : 0x12#8 < bcdInc h ↔ h = 0x12#8 :=
  (validHour_bcdInc h hh).1

theorem bcdInc_sixty_counts {v : Byte} (h : validSixty v = true) (hv : v ≠ 0x59#8) :
    validSixty (bcdInc v) = true ∧ bcdVal (bcdInc v) = bcdVal v + 1 := (validSixty_bcdInc v h).2 hv

theorem bcdInc_hour_counts {h : Byte} (hh : validHour h = true) (hv : h ≠ 0x12#8) :
    validHour (bcdInc h) = true ∧ bcdVal (bcdInc h) = bcdVal h + 1 := (validHour_bcdInc h hh).2 hv

/-! ## INCH, INCM and TOGM on the target's fields -/

theorem nextHour_eq {h : Byte} (hh : validHour h = true) :
    nextHour h = if h = 0x12#8 then 0x01#8 else toBcd (bcdVal h + 1) := by
  simp only [nextHour, bcdInc_hour_over hh]
  rw [bcdInc_hour hh]

theorem nextMinute_eq {m : Byte} (hm : validSixty m = true) :
    nextMinute m = if m = 0x59#8 then 0x00#8 else toBcd (bcdVal m + 1) := by
  simp only [nextMinute, bcdInc_sixty_over hm]
  rw [bcdInc_sixty hm]

@[simp] theorem merOf_setHourOf (t : Target) (v : Byte) (r : Regs) : (r.setHourOf t v).merOf t = r.merOf t := by
  cases t <;> rfl

@[simp] theorem hourOf_setMinuteOf (t : Target) (v : Byte) (r : Regs) :
    (r.setMinuteOf t v).hourOf t = r.hourOf t := by
  cases t <;> rfl

theorem targetValid_hourOf {t : Target} {r : Regs} (h : r.targetValid t = true) : validHour (r.hourOf t) = true := by
  cases t with
  | clock =>
    obtain ⟨hh, -, -⟩ := (ClockTime.valid_iff _).1 h
    exact hh
  | alarm =>
    obtain ⟨hh, -⟩ := (AlarmTime.valid_iff _).1 h
    exact hh

theorem targetValid_minuteOf {t : Target} {r : Regs} (h : r.targetValid t = true) :
    validSixty (r.minuteOf t) = true := by
  cases t with
  | clock =>
    obtain ⟨-, hm, -⟩ := (ClockTime.valid_iff _).1 h
    exact hm
  | alarm =>
    obtain ⟨-, hm⟩ := (AlarmTime.valid_iff _).1 h
    exact hm

theorem targetValid_setHourOf {t : Target} {r : Regs} {v : Byte} (h : r.targetValid t = true)
    (hv : validHour v = true) : (r.setHourOf t v).targetValid t = true := by
  cases t with
  | clock =>
    obtain ⟨-, hm, hs⟩ := (ClockTime.valid_iff _).1 h
    exact (ClockTime.valid_iff _).2 ⟨hv, hm, hs⟩
  | alarm =>
    obtain ⟨-, hm⟩ := (AlarmTime.valid_iff _).1 h
    exact (AlarmTime.valid_iff _).2 ⟨hv, hm⟩

theorem targetValid_setMinuteOf {t : Target} {r : Regs} {v : Byte} (h : r.targetValid t = true)
    (hv : validSixty v = true) : (r.setMinuteOf t v).targetValid t = true := by
  cases t with
  | clock =>
    obtain ⟨hh, -, hs⟩ := (ClockTime.valid_iff _).1 h
    exact (ClockTime.valid_iff _).2 ⟨hh, hv, hs⟩
  | alarm =>
    obtain ⟨hh, -⟩ := (AlarmTime.valid_iff _).1 h
    exact (AlarmTime.valid_iff _).2 ⟨hh, hv⟩

/-- A record's validity does not look at the meridiem. -/
@[simp] theorem targetValid_setMerOf (t : Target) (m : Meridiem) (r : Regs) :
    (r.setMerOf t m).targetValid t = r.targetValid t := by
  cases t <;> rfl

/-! ## ADVSEC, by the fields that roll over -/

theorem carrySecond_over {c : ClockTime} (h : 0x59#8 < c.second) :
    c.carrySecond = { c with second := 0x00#8, minute := bcdInc c.minute } := if_pos h

theorem carrySecond_keep {c : ClockTime} (h : ¬ 0x59#8 < c.second) : c.carrySecond = c := if_neg h

theorem carryMinute_over {c : ClockTime} (h : 0x59#8 < c.minute) :
    c.carryMinute = { c with minute := 0x00#8, hour := bcdInc c.hour } := if_pos h

theorem carryMinute_keep {c : ClockTime} (h : ¬ 0x59#8 < c.minute) : c.carryMinute = c := if_neg h

theorem carryHour_keep {c : ClockTime} (h : ¬ 0x12#8 < c.hour) : c.carryHour = c := if_neg h

section
variable {c : ClockTime} (h : c.valid = true)
include h

theorem advsec_second (hs : c.second ≠ 0x59#8) : c.advsec = { c with second := bcdInc c.second } := by
  obtain ⟨hhour, hmin, hsec⟩ := (ClockTime.valid_iff c).1 h
  rw [ClockTime.advsec, carrySecond_keep, carryMinute_keep, carryHour_keep]
  · exact validHour_not_over _ hhour
  · exact validSixty_not_over _ hmin
  · exact mt (bcdInc_sixty_over hsec).1 hs

theorem advsec_minute (hs : c.second = 0x59#8) (hm : c.minute ≠ 0x59#8) :
    c.advsec = { c with second := 0x00#8, minute := bcdInc c.minute } := by
  obtain ⟨hhour, hmin, hsec⟩ := (ClockTime.valid_iff c).1 h
  rw [ClockTime.advsec, carrySecond_over, carryMinute_keep, carryHour_keep]
  · exact validHour_not_over _ hhour
  · exact mt (bcdInc_sixty_over hmin).1 hm
  · exact (bcdInc_sixty_over hsec).2 hs

theorem advsec_hour (hs : c.second = 0x59#8) (hm : c.minute = 0x59#8) (hh : c.hour ≠ 0x12#8) :
    c.advsec = { c with second := 0x00#8, minute := 0x00#8, hour := bcdInc c.hour } := by
  obtain ⟨hhour, hmin, hsec⟩ := (ClockTime.valid_iff c).1 h
  rw [ClockTime.advsec, carrySecond_over, carryMinute_over, carryHour_keep]
  · exact mt (bcdInc_hour_over hhour).1 hh
  · exact (bcdInc_sixty_over hmin).2 hm
  · exact (bcdInc_sixty_over hsec).2 hs

end

theorem advsec_meridiem {c : ClockTime} (hs : c.second = 0x59#8) (hm : c.minute = 0x59#8) (hh : c.hour = 0x12#8) :
    c.advsec = { hour := 0x01#8, minute := 0x00#8, second := 0x00#8, mer := c.mer.toggle } := by
  obtain ⟨hour, minute, second, mer⟩ := c
  obtain rfl : hour = 0x12#8 := hh
  obtain rfl : minute = 0x59#8 := hm
  obtain rfl : second = 0x59#8 := hs
  exact advsec_at_125959 mer

/-- What ADVSEC can do from a valid time: the field that counts on, all finer ones having rolled over. -/
theorem advsec_cases {c : ClockTime} (h : c.valid = true) :
    (c.second ≠ 0x59#8 ∧ c.advsec = { c with second := bcdInc c.second }) ∨
    (c.second = 0x59#8 ∧ c.minute ≠ 0x59#8 ∧
      c.advsec = { c with second := 0x00#8, minute := bcdInc c.minute }) ∨
    (c.second = 0x59#8 ∧ c.minute = 0x59#8 ∧ c.hour ≠ 0x12#8 ∧
      c.advsec = { c with second := 0x00#8, minute := 0x00#8, hour := bcdInc c.hour }) ∨
    (c.second = 0x59#8 ∧ c.minute = 0x59#8 ∧ c.hour = 0x12#8 ∧
      c.advsec = { hour := 0x01#8, minute := 0x00#8, second := 0x00#8, mer := c.mer.toggle }) := by
  by_cases hs : c.second = 0x59#8
  · by_cases hm : c.minute = 0x59#8
    · by_cases hh : c.hour = 0x12#8
      · exact .inr (.inr (.inr ⟨hs, hm, hh, advsec_meridiem hs hm hh⟩))
      · exact .inr (.inr (.inl ⟨hs, hm, hh, advsec_hour h hs hm hh⟩))
    · exact .inr (.inl ⟨hs, hm, advsec_minute h hs hm⟩)
  · exact .inl ⟨hs, advsec_second h hs⟩

/-- Settles O20: the four cases of ADVSEC, and INCH and INCM on the one byte they change, with `bcd_inc` read in
decimal. -/
theorem secondMinuteAndHourRollOver : Obligations.SecondMinuteAndHourRollOver := by
  unfold Obligations.SecondMinuteAndHourRollOver
  refine ⟨fun c h => ?advsec, fun r t hh => ?inch, fun r t hm => ?incm⟩
  case advsec =>
    obtain ⟨hhour, hmin, hsec⟩ := (ClockTime.valid_iff c).1 h
    rw [← bcdInc_sixty hsec, ← bcdInc_sixty hmin, ← bcdInc_hour hhour]
    exact ⟨advsec_second h, advsec_minute h, advsec_hour h, advsec_meridiem⟩
  case inch => exact ⟨by rw [Regs.inch, nextHour_eq hh], merOf_setHourOf t _ r⟩
  case incm => exact ⟨by rw [Regs.incm, nextMinute_eq hm], hourOf_setMinuteOf t _ r⟩

/-! ## Validity -/

theorem advsec_valid {c : ClockTime} (h : c.valid = true) : c.advsec.valid = true := by
  obtain ⟨hhour, hmin, hsec⟩ := (ClockTime.valid_iff c).1 h
  have hzero : validSixty 0x00#8 = true := by decide
  have hone : validHour 0x01#8 = true := by decide
  rw [ClockTime.valid_iff]
  obtain ⟨hs, e⟩ | ⟨hs, hm, e⟩ | ⟨hs, hm, hh, e⟩ | ⟨hs, hm, hh, e⟩ := advsec_cases h
  · obtain ⟨hsec', -⟩ := bcdInc_sixty_counts hsec hs
    rw [e]; exact ⟨hhour, hmin, hsec'⟩
  · obtain ⟨hmin', -⟩ := bcdInc_sixty_counts hmin hm
    rw [e]; exact ⟨hhour, hmin', hzero⟩
  · obtain ⟨hhour', -⟩ := bcdInc_hour_counts hhour hh
    rw [e]; exact ⟨hhour', hzero, hzero⟩
  · rw [e]; exact ⟨hone, hzero, hzero⟩

/-- Settles O21: in each case of ADVSEC the fields written are valid, and each wizard operation writes one valid field
of its target. -/
theorem validTimesStayValid : Obligations.ValidTimesStayValid := by
  unfold Obligations.ValidTimesStayValid
  refine ⟨fun c => advsec_valid, fun r t h => ⟨?inch, ?incm, ?togm⟩⟩
  case inch => exact targetValid_setHourOf h (validHour_nextHour _ (targetValid_hourOf h))
  case incm => exact targetValid_setMinuteOf h (validSixty_nextMinute _ (targetValid_minuteOf h))
  case togm => rw [Regs.togm, targetValid_setMerOf, h]

end Sys2Proof.Machine
end

section
/-! PROOFS. ADVSEC in numbers, and its one cycle through the valid times (41_clock_engine.md R171, R172). -/

namespace Sys2Proof.Machine

/-! ## ADVSEC in numbers -/

theorem Meridiem.toggle_code_toNat (m : Meridiem) : m.toggle.code.toNat = 1 - m.code.toNat := by
  cases m <;> rfl

theorem ClockTime.valid_ranges {c : ClockTime} (h : c.valid = true) :
    1 ≤ bcdVal c.hour ∧ bcdVal c.hour ≤ 12 ∧ bcdVal c.minute ≤ 59 ∧ bcdVal c.second ≤ 59 := by
  obtain ⟨hhour, hmin, hsec⟩ := (ClockTime.valid_iff c).1 h
  obtain ⟨-, hone, htwelve⟩ := (validHour_iff _).1 hhour
  exact ⟨hone, htwelve, ((validSixty_iff _).1 hmin).2, ((validSixty_iff _).1 hsec).2⟩

theorem bcdVal_lt_59 {v : Byte} (h : validSixty v = true) (hv : v ≠ 0x59#8) : bcdVal v < 59 := by
  obtain ⟨hb, hle⟩ := (validSixty_iff v).1 h
  exact lt_of_le_of_ne hle fun he => hv (bcdVal_inj hb (by decide) he)

theorem bcdVal_lt_12 {h : Byte} (hh : validHour h = true) (hv : h ≠ 0x12#8) : bcdVal h < 12 := by
  obtain ⟨hb, -, hle⟩ := (validHour_iff h).1 hh
  exact lt_of_le_of_ne hle fun he => hv (bcdVal_inj hb (by decide) he)

@[simp] theorem bcdVal_59 : bcdVal 0x59#8 = 59 := by decide
@[simp] theorem bcdVal_12 : bcdVal 0x12#8 = 12 := by decide
@[simp] theorem bcdVal_00 : bcdVal 0x00#8 = 0 := by decide
@[simp] theorem bcdVal_01 : bcdVal 0x01#8 = 1 := by decide

/-- ADVSEC in numbers (R172): the second counts modulo 60, and each field's rollover carries into the next; the
meridiem takes the hour's carry from 12 to 1. -/
theorem advsec_values {c : ClockTime} (h : c.valid = true) :
    bcdVal c.advsec.second = (bcdVal c.second + 1) % 60 ∧
    bcdVal c.advsec.minute = (bcdVal c.minute + (bcdVal c.second + 1) / 60) % 60 ∧
    bcdVal c.advsec.hour = (bcdVal c.hour + (bcdVal c.minute + (bcdVal c.second + 1) / 60) / 60 - 1) % 12 + 1 ∧
    c.advsec.mer.code.toNat =
      (c.mer.code.toNat + (bcdVal c.hour + (bcdVal c.minute + (bcdVal c.second + 1) / 60) / 60 - 1) / 12) % 2 := by
  obtain ⟨hhour, hmin, hsec⟩ := (ClockTime.valid_iff c).1 h
  obtain ⟨hone, htwelve, hm59, hs59⟩ := ClockTime.valid_ranges h
  have hmer : c.mer.code.toNat < 2 := c.mer.code.isLt
  obtain ⟨hs, e⟩ | ⟨hs, hm, e⟩ | ⟨hs, hm, hh, e⟩ | ⟨hs, hm, hh, e⟩ := advsec_cases h
  · have := bcdVal_lt_59 hsec hs
    obtain ⟨-, hval⟩ := bcdInc_sixty_counts hsec hs
    simp only [e, hval]
    omega
  · have := bcdVal_lt_59 hmin hm
    obtain ⟨-, hval⟩ := bcdInc_sixty_counts hmin hm
    simp only [e, hval, hs, bcdVal_59, bcdVal_00, true_and]
    omega
  · have := bcdVal_lt_12 hhour hh
    obtain ⟨-, hval⟩ := bcdInc_hour_counts hhour hh
    simp only [e, hval, hs, hm, bcdVal_59, bcdVal_00, true_and]
    omega
  · simp only [e, hs, hm, hh, bcdVal_59, bcdVal_12, bcdVal_00, bcdVal_01, true_and,
      Meridiem.toggle_code_toNat]
    omega

/-! ## The place of a time in the cycle -/

/-- How many seconds a valid time comes after 01:00:00 AM, in the order of ADVSEC, which toggles the meridiem between
12 and 1 (R163). -/
def ClockTime.place (c : ClockTime) : Nat :=
  43200 * c.mer.code.toNat + 3600 * (bcdVal c.hour - 1) + 60 * bcdVal c.minute + bcdVal c.second

theorem place_lt {c : ClockTime} (h : c.valid = true) : c.place < 86400 := by
  obtain ⟨hone, htwelve, hm59, hs59⟩ := ClockTime.valid_ranges h
  have hmer : c.mer.code.toNat < 2 := c.mer.code.isLt
  unfold ClockTime.place
  omega

theorem place_advsec {c : ClockTime} (h : c.valid = true) : c.advsec.place = (c.place + 1) % 86400 := by
  obtain ⟨hone, htwelve, hm59, hs59⟩ := ClockTime.valid_ranges h
  have hmer : c.mer.code.toNat < 2 := c.mer.code.isLt
  obtain ⟨hs, hm, hh, hx⟩ := advsec_values h
  simp only [ClockTime.place, hs, hm, hh, hx]
  omega

/-- Half the cycle further on stands the same time with the other meridiem. -/
theorem place_toggle {c : ClockTime} (h : c.valid = true) :
    ({ c with mer := c.mer.toggle } : ClockTime).place = (c.place + 43200) % 86400 := by
  obtain ⟨hone, htwelve, hm59, hs59⟩ := ClockTime.valid_ranges h
  have hmer : c.mer.code.toNat < 2 := c.mer.code.isLt
  simp only [ClockTime.place, Meridiem.toggle_code_toNat]
  omega

/-- A valid time is determined by its place. -/
theorem place_inj {c d : ClockTime} (hc : c.valid = true) (hd : d.valid = true) (h : c.place = d.place) : c = d := by
  obtain ⟨hch, hcm, hcs⟩ := (ClockTime.valid_iff c).1 hc
  obtain ⟨hdh, hdm, hds⟩ := (ClockTime.valid_iff d).1 hd
  obtain ⟨hc1, hc12, hcm59, hcs59⟩ := ClockTime.valid_ranges hc
  obtain ⟨hd1, hd12, hdm59, hds59⟩ := ClockTime.valid_ranges hd
  have hcmer : c.mer.code.toNat < 2 := c.mer.code.isLt
  have hdmer : d.mer.code.toNat < 2 := d.mer.code.isLt
  unfold ClockTime.place at h
  have hhour : c.hour = d.hour := bcdVal_inj (isBcd_of_validHour hch) (isBcd_of_validHour hdh) (by omega)
  have hmin : c.minute = d.minute := bcdVal_inj (isBcd_of_validSixty hcm) (isBcd_of_validSixty hdm) (by omega)
  have hsec : c.second = d.second := bcdVal_inj (isBcd_of_validSixty hcs) (isBcd_of_validSixty hds) (by omega)
  have hmer : c.mer = d.mer := Meridiem.code_injective (BitVec.eq_of_toNat_eq (by omega))
  obtain ⟨hour, minute, second, mer⟩ := c
  cases hhour; cases hmin; cases hsec; cases hmer
  rfl

/-! ## ADVSEC applied again and again -/

theorem advsec_iterate_valid {c : ClockTime} (h : c.valid = true) (n : Nat) :
    (ClockTime.advsec^[n] c).valid = true := by
  induction n with
  | zero => exact h
  | succ n ih => rw [Function.iterate_succ_apply']; exact advsec_valid ih

theorem place_advsec_iterate {c : ClockTime} (h : c.valid = true) (n : Nat) :
    (ClockTime.advsec^[n] c).place = (c.place + n) % 86400 := by
  induction n with
  | zero => exact (Nat.mod_eq_of_lt (place_lt h)).symm
  | succ n ih =>
    rw [Function.iterate_succ_apply', place_advsec (advsec_iterate_valid h n), ih]
    omega

/-- `n` applications lead from `c` to the valid time whose place is `n` further on. -/
theorem advsec_iterate_eq_iff {c d : ClockTime} (hc : c.valid = true) (hd : d.valid = true) (n : Nat) :
    ClockTime.advsec^[n] c = d ↔ (c.place + n) % 86400 = d.place := by
  rw [← place_advsec_iterate hc]
  exact ⟨congrArg _, place_inj (advsec_iterate_valid hc n) hd⟩

/-- Settles O22: ADVSEC adds one to a time's place modulo 86,400, and a valid time is determined by its place. -/
theorem advsecIsOneCycleOf86400 : Obligations.AdvsecIsOneCycleOf86400 := by
  unfold Obligations.AdvsecIsOneCycleOf86400
  refine ⟨fun c h => ⟨advsec_valid h, ?full, ?half, fun n hpos hlt => ?proper⟩, fun c d hc hd => ?reach⟩
  case full =>
    rw [advsec_iterate_eq_iff h h, Nat.add_mod_right, Nat.mod_eq_of_lt (place_lt h)]
  case half =>
    have htoggle : ({ c with mer := c.mer.toggle } : ClockTime).valid = true := h
    rw [advsec_iterate_eq_iff h htoggle, place_toggle h]
  case proper =>
    have := place_lt h
    rw [ne_eq, advsec_iterate_eq_iff h h]
    omega
  case reach =>
    have := place_lt hc
    have := place_lt hd
    refine ⟨(86400 + d.place - c.place) % 86400, Nat.mod_lt _ (by decide), ?_⟩
    rw [advsec_iterate_eq_iff hc hd]
    omega

end Sys2Proof.Machine
end

section
/-! PROOFS. The tick counter and the second (41_clock_engine.md R162, R172). -/

namespace Sys2Proof.Machine

theorem Params.valid_tickDiv {p : Params} (h : p.valid = true) : 1 ≤ p.tickDiv ∧ p.tickDiv < 2 ^ p.tickCntW := by
  obtain ⟨-, hone, hwidth, -⟩ := of_decide_eq_true h
  exact ⟨hone, hwidth⟩

section
variable {p : Params} {r : Regs} (hp : p.valid = true) (hen : r.tickEn = true)
include hp hen

theorem tickPulse_counts (h : r.tickCnt + 1 < p.tickDiv) :
    r.tickPulse p = { r with tickCnt := r.tickCnt + 1 } := by
  obtain ⟨-, hwidth⟩ := Params.valid_tickDiv hp
  have hmod : (r.tickCnt + 1) % 2 ^ p.tickCntW = r.tickCnt + 1 := Nat.mod_eq_of_lt (by omega)
  simp [Regs.tickPulse, Regs.tick, hen, hmod, h.ne]

theorem tickPulse_advances (h : r.tickCnt + 1 = p.tickDiv) :
    r.tickPulse p = { r with tickCnt := 0, ct := r.ct.advsec } := by
  obtain ⟨-, hwidth⟩ := Params.valid_tickDiv hp
  have hmod : (r.tickCnt + 1) % 2 ^ p.tickCntW = p.tickDiv := by rw [h, Nat.mod_eq_of_lt hwidth]
  simp [Regs.tickPulse, Regs.tick, hen, hmod]

end

/-- Pulses that stay below `TICK_DIV` only count. -/
theorem pulses_count {p : Params} (hp : p.valid = true) (n : Nat) {r : Regs} (hen : r.tickEn = true)
    (h : r.tickCnt + n < p.tickDiv) : r.pulses p n = { r with tickCnt := r.tickCnt + n } := by
  induction n generalizing r with
  | zero => rfl
  | succ n ih =>
    rw [pulses_succ, tickPulse_counts hp hen (by omega), ih (r := { r with tickCnt := r.tickCnt + 1 }) hen]
    · simp only [Nat.add_assoc, Nat.add_comm 1]
    · dsimp only
      omega

/-- `TICK_DIV` pulses: count up to the last value, advance, and count up again to where the counter was. -/
theorem pulses_tickDiv {p : Params} {r : Regs} (hp : p.valid = true) (hen : r.tickEn = true)
    (h : r.tickCnt < p.tickDiv) : r.pulses p p.tickDiv = { r with ct := r.ct.advsec } := by
  obtain ⟨m, hm⟩ := Nat.exists_eq_add_of_lt h
  have hup : r.pulses p m = { r with tickCnt := r.tickCnt + m } := pulses_count hp m hen (by omega)
  have hlast : ({ r with tickCnt := r.tickCnt + m } : Regs).tickPulse p = { r with tickCnt := 0, ct := r.ct.advsec } :=
    tickPulse_advances (r := { r with tickCnt := r.tickCnt + m }) hp hen hm.symm
  have hagain : ({ r with tickCnt := 0, ct := r.ct.advsec } : Regs).pulses p r.tickCnt =
      { r with ct := r.ct.advsec } := by
    rw [pulses_count hp (r := { r with tickCnt := 0, ct := r.ct.advsec }) r.tickCnt hen (by simpa using h)]
    simp
  calc r.pulses p p.tickDiv = r.pulses p (m + (r.tickCnt + 1)) := congrArg (r.pulses p) (by omega)
    _ = _ := by rw [pulses_add, hup, pulses_succ, hlast, hagain]

/-- Settles O23: the counter's one way round `TICK_DIV` holds one ADVSEC, whose carries are those of its values. -/
theorem tickDivTicksAreOneSecond : Obligations.TickDivTicksAreOneSecond := by
  unfold Obligations.TickDivTicksAreOneSecond
  refine fun p r hp hen h => ⟨pulses_tickDiv hp hen h, fun hc => ?_⟩
  obtain ⟨hsec, hmin, hhour, -⟩ := advsec_values hc
  exact ⟨hsec, hmin, hhour⟩

end Sys2Proof.Machine
end

section
/-! PROOFS. `alarm_match` (41_clock_engine.md R176, R177). -/

namespace Sys2Proof.Machine

theorem outputs_alarmMatch (s : State) : s.outputs.alarmMatch = s.regs.alarmMatch := rfl

theorem alarmMatch_iff (r : Regs) : r.alarmMatch = true ↔
    r.ct.hour = r.alarm.hour ∧ r.ct.minute = r.alarm.minute ∧ r.ct.mer = r.alarm.mer := by
  simp [Regs.alarmMatch, and_assoc]

/-- `alarm_match` does not look at the second. -/
theorem alarmMatch_setSecond (r : Regs) (v : Byte) :
    ({ r with ct := { r.ct with second := v } } : Regs).alarmMatch = r.alarmMatch := rfl

theorem reset_alarmMatch : Regs.reset.alarmMatch = true := by decide

/-- Settles O26: the port carries the comparison of three pairs of fields, which agree at reset. -/
theorem alarmMatchComparesHourMinuteMeridiem : Obligations.AlarmMatchComparesHourMinuteMeridiem := by
  unfold Obligations.AlarmMatchComparesHourMinuteMeridiem
  simp only [outputs_alarmMatch, State.reset_regs]
  exact ⟨fun s => alarmMatch_iff s.regs, alarmMatch_setSecond, reset_alarmMatch⟩

/-! ## The matching minute -/

/-- Within a minute ADVSEC counts the second and changes nothing else. -/
theorem advsec_iterate_within_minute {c : ClockTime} (h : c.valid = true) (n : Nat)
    (hn : bcdVal c.second + n ≤ 59) :
    ClockTime.advsec^[n] c = { c with second := toBcd (bcdVal c.second + n) } := by
  obtain ⟨hhour, hmin, hsec⟩ := (ClockTime.valid_iff c).1 h
  induction n with
  | zero => rw [Function.iterate_zero_apply, Nat.add_zero, toBcd_bcdVal (isBcd_of_validSixty hsec)]
  | succ n ih =>
    have hval : bcdVal (toBcd (bcdVal c.second + n)) = bcdVal c.second + n := bcdVal_toBcd (by omega)
    have hvalid : validSixty (toBcd (bcdVal c.second + n)) = true :=
      (validSixty_iff _).2 ⟨isBcd_toBcd (by omega), by omega⟩
    have hne : toBcd (bcdVal c.second + n) ≠ 0x59#8 := by
      intro he
      rw [he, bcdVal_59] at hval
      omega
    have hnow : ({ c with second := toBcd (bcdVal c.second + n) } : ClockTime).valid = true :=
      (ClockTime.valid_iff _).2 ⟨hhour, hmin, hvalid⟩
    rw [Function.iterate_succ_apply', ih (by omega), advsec_second hnow hne]
    dsimp only
    rw [bcdInc_sixty hvalid, hval, Nat.add_assoc]

/-- The advance from second 59 changes the minute. -/
theorem advsec_minute_ne {c : ClockTime} (h : c.valid = true) (hs : bcdVal c.second = 59) :
    c.advsec.minute ≠ c.minute := by
  obtain ⟨-, -, hm59, -⟩ := ClockTime.valid_ranges h
  obtain ⟨-, hmin, -⟩ := advsec_values h
  intro he
  rw [he, hs] at hmin
  omega

/-- Settles O27: for 59 seconds ADVSEC writes the second alone, which is not compared; the 60th changes the minute. -/
theorem alarmStaysForTheWholeMinute : Obligations.AlarmStaysForTheWholeMinute := by
  unfold Obligations.AlarmStaysForTheWholeMinute
  intro r hc hs hmatch
  have hzero : bcdVal r.ct.second = 0 := by rw [hs, bcdVal_00]
  refine ⟨fun v => (alarmMatch_setSecond r v).trans hmatch, fun n hn => ?stays, ?ends⟩
  case stays =>
    rw [advsec_iterate_within_minute hc n (by omega)]
    exact (alarmMatch_setSecond r _).trans hmatch
  case ends =>
    have hlast := advsec_iterate_within_minute hc 59 (by omega)
    have hne := advsec_minute_ne (advsec_iterate_valid hc 59)
      (by rw [hlast, hzero]; exact bcdVal_toBcd (by decide))
    obtain ⟨-, hmin, -⟩ := (alarmMatch_iff r).1 hmatch
    rw [← Function.iterate_succ_apply' ClockTime.advsec 59, hlast] at hne
    rw [Bool.eq_false_iff, ne_eq, alarmMatch_iff]
    exact fun ⟨_, hm, _⟩ => hne (hm.trans hmin.symm)

end Sys2Proof.Machine
end

section
/-! PROOFS. The configuration table and its delivery (42_input_config.md R209, R211). -/

namespace Sys2Proof.Machine

/-! ## The cells of the table -/

theorem configure_idle {r : Regs} (h : r.cfgState = .idle) (e : InputEvent) : r.configure e = r := by
  cases e <;> simp only [Regs.configure, h]

@[simp] theorem configure_none (r : Regs) : r.configure .none = r := by
  cases h : r.cfgState <;> simp only [Regs.configure, h]

theorem configure_increment_setHour {r : Regs} (h : r.cfgState = .setHour) :
    r.configure .increment = r.inch r.cfgTarget := by simp only [Regs.configure, h]

theorem configure_confirm_setHour {r : Regs} (h : r.cfgState = .setHour) :
    r.configure .confirm = { r with cfgState := .setMin } := by simp only [Regs.configure, h]

theorem configure_increment_setMin {r : Regs} (h : r.cfgState = .setMin) :
    r.configure .increment = r.incm r.cfgTarget := by simp only [Regs.configure, h]

theorem configure_confirm_setMin {r : Regs} (h : r.cfgState = .setMin) :
    r.configure .confirm = { r with cfgState := .setMer } := by simp only [Regs.configure, h]

theorem configure_increment_setMer {r : Regs} (h : r.cfgState = .setMer) :
    r.configure .increment = r.togm r.cfgTarget := by simp only [Regs.configure, h]

theorem configure_confirm_setMer {r : Regs} (h : r.cfgState = .setMer) :
    r.configure .confirm = { r with cfgState := .idle } := by simp only [Regs.configure, h]

/-! ## The table does not read `ev` -/

/-- `ev <- v`, the first thing `deliver(v)` does (R209). -/
def Regs.setEv (v : InputEvent) (r : Regs) : Regs := { r with ev := v }

theorem inch_setEv (t : Target) (v : InputEvent) (r : Regs) : (r.setEv v).inch t = (r.inch t).setEv v := by
  cases t <;> rfl

theorem incm_setEv (t : Target) (v : InputEvent) (r : Regs) : (r.setEv v).incm t = (r.incm t).setEv v := by
  cases t <;> rfl

theorem togm_setEv (t : Target) (v : InputEvent) (r : Regs) : (r.setEv v).togm t = (r.togm t).setEv v := by
  cases t <;> rfl

/-- In each cell, what the table does commutes with a write of `ev`. -/
theorem configure_setEv (e v : InputEvent) (r : Regs) : (r.setEv v).configure e = (r.configure e).setEv v := by
  cases e with
  | none => rw [configure_none, configure_none]
  | increment =>
    cases h : r.cfgState with
    | idle => rw [configure_idle h]; exact configure_idle (r := r.setEv v) h _
    | setHour => rw [configure_increment_setHour h, ← inch_setEv]; exact configure_increment_setHour h
    | setMin => rw [configure_increment_setMin h, ← incm_setEv]; exact configure_increment_setMin h
    | setMer => rw [configure_increment_setMer h, ← togm_setEv]; exact configure_increment_setMer h
  | confirm =>
    cases h : r.cfgState with
    | idle => rw [configure_idle h]; exact configure_idle (r := r.setEv v) h _
    | setHour => rw [configure_confirm_setHour h]; exact configure_confirm_setHour h
    | setMin => rw [configure_confirm_setMin h]; exact configure_confirm_setMin h
    | setMer => rw [configure_confirm_setMer h]; exact configure_confirm_setMer h

/-- A delivery applies the table once, to the registers before it. -/
theorem deliver_eq (e : InputEvent) (r : Regs) :
    r.deliver e = { r.configure e with ev := e, inState := .idle, fg := .idle } := by
  have hcfg : ({ r with ev := e } : Regs).configure e = (r.configure e).setEv e := configure_setEv e e r
  rw [Regs.deliver, hcfg, Regs.setEv]

/-- Settles O38: the table cell by cell, and the delivery, which writes `ev` first, as one application of it. -/
theorem configurationTable : Obligations.ConfigurationTable := by
  unfold Obligations.ConfigurationTable
  intro r
  exact ⟨fun e => deliver_eq e r, configure_idle, configure_none r,
    fun h => ⟨configure_increment_setHour h, configure_confirm_setHour h⟩,
    fun h => ⟨configure_increment_setMin h, configure_confirm_setMin h⟩,
    fun h => ⟨configure_increment_setMer h, configure_confirm_setMer h⟩⟩

end Sys2Proof.Machine
end

section
/-! PROOFS. A step with and without its tick pulses (60_exceptions.md R248): two runs that differ in `CT` and
`TICKCNT` alone stay so, edge by edge. -/

namespace Sys2Proof.Machine

/-! ## Other time registers, and no pulse to come -/

/-- The registers with other values of what a tick owns. -/
def Regs.setTime (c : ClockTime) (n : Nat) (r : Regs) : Regs := { r with ct := c, tickCnt := n }

/-- The state of a run without pulses beside `s`: other time registers, and no pulse on a listed edge. -/
def State.retimed (c : ClockTime) (n : Nat) (s : State) : State :=
  { s.noTicks with regs := s.regs.setTime c n }

theorem noTicks_eq_retimed (s : State) : s.noTicks = s.retimed s.regs.ct s.regs.tickCnt := rfl

@[simp] theorem retimed_fg (c : ClockTime) (n : Nat) (s : State) : (s.retimed c n).regs.fg = s.regs.fg := rfl
@[simp] theorem retimed_inState (c : ClockTime) (n : Nat) (s : State) :
    (s.retimed c n).regs.inState = s.regs.inState := rfl
@[simp] theorem retimed_params (c : ClockTime) (n : Nat) (s : State) : (s.retimed c n).params = s.params := rfl
@[simp] theorem retimed_inputs (c : ClockTime) (n : Nat) (s : State) :
    (s.retimed c n).inputs = s.inputs.map noTickEdge := rfl
@[simp] theorem retimed_lost (c : ClockTime) (n : Nat) (s : State) : (s.retimed c n).lost = s.lost := rfl
@[simp] theorem wordRefusal_retimed (w : Word) (c : ClockTime) (n : Nat) (s : State) :
    wordRefusal w (s.retimed c n).regs = wordRefusal w s.regs := wordRefusal_congr w rfl rfl

/-- A listed edge is the same edge in both runs but for its pulse. -/
theorem nextInput_retimed (c : ClockTime) (n : Nat) {s : State} (hs : s.inputs ≠ []) :
    nextInput (s.retimed c n) = noTickEdge (nextInput s) := by
  obtain ⟨inp, rest, hl⟩ := List.exists_cons_of_ne_nil hs
  rw [nextInput_cons hl]
  exact nextInput_cons (by rw [retimed_inputs, hl, List.map_cons])

theorem consume_retimed (c : ClockTime) (n : Nat) (s : State) :
    (s.retimed c n).consume = s.consume.retimed c n := by
  simp [State.consume, State.retimed, State.noTicks, List.map_tail]

theorem resetRegs_retimed (c : ClockTime) (n : Nat) (s : State) :
    (s.retimed c n).resetRegs = s.resetRegs.retimed Regs.reset.ct Regs.reset.tickCnt := rfl

/-- The pulse of an edge is the one thing of it that the tick agent reads, and its writes are what `retimed` replaces. -/
theorem tickPart_retimed (c : ClockTime) (n : Nat) (inp : EdgeIn) (s : State) :
    (s.retimed c n).tickPart (noTickEdge inp) = (s.tickPart inp).retimed c n := by
  have hoff : (s.retimed c n).tickPart (noTickEdge inp) = s.retimed c n := rfl
  rw [hoff]
  cases ht : inp.tick with
  | false => simp [State.tickPart, ht]
  | true =>
    simp only [State.tickPart, ht, if_true, State.retimed, State.noTicks]
    rw [tickPulse_eq]
    rfl

theorem accept_retimed (w : Word) (o : Option RefuseReason) (c : ClockTime) (n : Nat) (s : State) :
    (s.retimed c n).accept w o = (s.accept w o).retimed c n := rfl

/-! ## A delivery writes ClockTime at most -/

theorem inch_setTime (t : Target) (c : ClockTime) (n : Nat) (r : Regs) :
    ∃ c', (r.setTime c n).inch t = (r.inch t).setTime c' n := by
  cases t <;> exact ⟨_, rfl⟩

theorem incm_setTime (t : Target) (c : ClockTime) (n : Nat) (r : Regs) :
    ∃ c', (r.setTime c n).incm t = (r.incm t).setTime c' n := by
  cases t <;> exact ⟨_, rfl⟩

theorem togm_setTime (t : Target) (c : ClockTime) (n : Nat) (r : Regs) :
    ∃ c', (r.setTime c n).togm t = (r.togm t).setTime c' n := by
  cases t <;> exact ⟨_, rfl⟩

/-- A wizard's increment works on its target; every other cell of the table leaves the times alone. -/
theorem configure_setTime (e : InputEvent) (c : ClockTime) (n : Nat) (r : Regs) :
    ∃ c', (r.setTime c n).configure e = (r.configure e).setTime c' n := by
  unfold Regs.configure
  have hph : (r.setTime c n).cfgState = r.cfgState := rfl
  rw [hph]
  split
  · exact inch_setTime _ c n r
  · exact ⟨c, rfl⟩
  · exact incm_setTime _ c n r
  · exact ⟨c, rfl⟩
  · exact togm_setTime _ c n r
  all_goals exact ⟨c, rfl⟩

theorem deliver_retimed (w : Word) (e : InputEvent) (c : ClockTime) (n : Nat) (s : State) :
    ∃ c', (s.retimed c n).deliver w e = (s.deliver w e).retimed c' n := by
  obtain ⟨c', h⟩ := configure_setTime e c n { s.regs with ev := e }
  refine ⟨c', ?_⟩
  have hregs : (s.regs.setTime c n).deliver e = (s.regs.deliver e).setTime c' n := by
    have hev : ({ s.regs.setTime c n with ev := e } : Regs) = ({ s.regs with ev := e } : Regs).setTime c n := rfl
    rw [Regs.deliver, hev, h]
    rfl
  simp only [State.deliver, State.retimed, hregs]
  rfl

/-! ## The foreground engine does not read the time -/

theorem microStep_retimed (m : Micro) (w : Word) (k : Nat) (inp : EdgeIn) (c : ClockTime) (n : Nat) (s : State) :
    ∃ c', microStep m w k inp (s.retimed c n) = (microStep m w k inp s).retimed c' n := by
  cases m with
  | pins | e | wait | done => exact ⟨c, rfl⟩
  | ce op => cases op <;> exact ⟨c, rfl⟩
  | sample =>
    refine ⟨c, ?_⟩
    simp only [microStep, sampleStep]
    split
    · rfl
    · split <;> rfl
  | debounce =>
    refine ⟨c, ?_⟩
    simp only [microStep, debounceStep, retimed_inState]
    split <;> rfl
  | resample =>
    refine ⟨c, ?_⟩
    simp only [microStep, resampleStep, retimed_inState]
    split
    · split <;> rfl
    all_goals rfl
  | hold =>
    refine ⟨c, ?_⟩
    simp only [microStep, holdStep, retimed_inState]
    split
    · split <;> rfl
    all_goals rfl
  | deliverPress =>
    simp only [microStep, deliverPressStep, retimed_inState]
    split
    · exact deliver_retimed w _ c n s
    all_goals exact ⟨c, rfl⟩
  | deliverNone => exact deliver_retimed w .none c n s

theorem foreground_retimed (inp : EdgeIn) (c : ClockTime) (n : Nat) (s : State) :
    ∃ c', foreground inp (s.retimed c n) = (foreground inp s).retimed c' n := by
  unfold foreground
  rw [retimed_fg, retimed_params]
  split
  · split
    · exact ⟨c, rfl⟩
    · exact ⟨c, rfl⟩
    · split
      · exact microStep_retimed _ _ _ inp c n s
      · exact ⟨c, rfl⟩
  · exact ⟨c, rfl⟩

/-! ## Edges and runs of edges, with and without the pulses -/

theorem runEdge_retimed (c : ClockTime) (n : Nat) {s : State} (hs : s.inputs ≠ []) :
    ∃ c' n', runEdge (s.retimed c n) = (runEdge s).retimed c' n' := by
  have hn := nextInput_retimed c n hs
  cases hr : (nextInput s).rst with
  | true =>
    rw [runEdge_rst hr, runEdge_rst (by rw [hn, noTickEdge_rst, hr]), consume_retimed]
    exact ⟨_, _, resetRegs_retimed c n s.consume⟩
  | false =>
    rw [runEdge_noRst hr, runEdge_noRst (by rw [hn, noTickEdge_rst, hr]), hn, consume_retimed, tickPart_retimed,
      foreground_noTickEdge]
    obtain ⟨c', h⟩ := foreground_retimed (nextInput s) c n (s.consume.tickPart (nextInput s))
    exact ⟨c', n, h⟩

theorem acceptEdge_retimed (w : Word) (o : Option RefuseReason) (c : ClockTime) (n : Nat) {s : State}
    (hs : s.inputs ≠ []) :
    ∃ c' n', acceptEdge w o (s.retimed c n) = (acceptEdge w o s).retimed c' n' := by
  have hn := nextInput_retimed c n hs
  cases hr : (nextInput s).rst with
  | true =>
    rw [acceptEdge_rst w o hr, acceptEdge_rst w o (by rw [hn, noTickEdge_rst, hr]), consume_retimed]
    exact ⟨_, _, resetRegs_retimed c n s.consume⟩
  | false =>
    rw [acceptEdge_noRst w o hr, acceptEdge_noRst w o (by rw [hn, noTickEdge_rst, hr]), hn, consume_retimed,
      tickPart_retimed]
    exact ⟨c, n, accept_retimed w o c n _⟩

theorem settleOn_retimed (l : List EdgeIn) (c : ClockTime) (n : Nat) (s : State) (hl : s.inputs = l) :
    ∃ c' n', settleOn (l.map noTickEdge) (s.retimed c n) = (settleOn l s).retimed c' n' := by
  induction l generalizing c n s with
  | nil => exact ⟨c, n, rfl⟩
  | cons inp rest ih =>
    by_cases hf : s.regs.fg = .idle
    · rw [settleOn_idle _ hf, settleOn_idle _ (by rw [retimed_fg, hf])]
      exact ⟨c, n, rfl⟩
    · obtain ⟨c', n', h⟩ := runEdge_retimed c n (s := s) (by simp [hl])
      rw [List.map_cons, settleOn_cons _ _ (by rwa [retimed_fg]), settleOn_cons _ _ hf, h]
      exact ih c' n' (runEdge s) (by rw [(runEdge_frame s).1, hl, List.tail_cons])

theorem settle_retimed (c : ClockTime) (n : Nat) (s : State) :
    ∃ c' n', settle (s.retimed c n) = (settle s).retimed c' n' := settleOn_retimed s.inputs c n s rfl

/-! ## Steps -/

theorem carryOn_retimed (c : ClockTime) (n : Nat) {s t : State} (hs : s.inputs ≠ []) (h : carryOn s = .next t) :
    ∃ c' n', carryOn (s.retimed c n) = .next (t.retimed c' n') := by
  unfold carryOn at h ⊢
  rw [retimed_lost, nextInput_retimed c n hs, noTickEdge_rst]
  split at h
  · cases h
  next hgoes =>
    cases h
    obtain ⟨c₁, n₁, hedge⟩ := runEdge_retimed c n hs
    obtain ⟨c₂, n₂, hsettle⟩ := settle_retimed c₁ n₁ (runEdge s)
    exact ⟨c₂, n₂, by rw [if_neg hgoes, hedge, hsettle]⟩

theorem present_retimed (w : Word) (o : Option RefuseReason) (c : ClockTime) (n : Nat) {s t : State}
    (hs : s.inputs ≠ []) (h : present w o s = .next t) :
    ∃ c' n', present w o (s.retimed c n) = .next (t.retimed c' n') := by
  unfold present at h ⊢
  rw [retimed_fg]
  split at h
  next hf =>
    cases h
    obtain ⟨c₁, n₁, hedge⟩ := acceptEdge_retimed w o c n hs
    obtain ⟨c₂, n₂, hsettle⟩ := settle_retimed c₁ n₁ (acceptEdge w o s)
    exact ⟨c₂, n₂, by rw [if_pos hf, hedge, hsettle]⟩
  next hf =>
    rw [if_neg hf]
    exact carryOn_retimed c n hs h

/-- A step on a presented word presents it with its own refusal condition. -/
theorem step_present {s : State} (hf : s.regs.fg = .idle) (hv : (nextInput s).opValid = true) :
    step s = present (nextInput s).opWord (wordRefusal (nextInput s).opWord s.regs) s := by
  rw [step, if_pos ⟨hf, hv⟩, wordRefusal]
  cases hd : decode (nextInput s).opWord with
  | instr i => simp only [exec_present, encode_of_decode hd]
  | reserved why => rfl

theorem step_carryOn {s : State} (h : ¬ (s.regs.fg = .idle ∧ (nextInput s).opValid = true)) :
    step s = carryOn s := if_neg h

theorem step_retimed (c : ClockTime) (n : Nat) {s t : State} (hs : s.inputs ≠ []) (h : step s = .next t) :
    ∃ c' n', step (s.retimed c n) = .next (t.retimed c' n') := by
  have hn := nextInput_retimed c n hs
  by_cases hreq : s.regs.fg = .idle ∧ (nextInput s).opValid = true
  · obtain ⟨hf, hv⟩ := hreq
    rw [step_present hf hv] at h
    rw [step_present (by rw [retimed_fg, hf]) (by rw [hn, noTickEdge_opValid, hv]), hn, noTickEdge_opWord,
      wordRefusal_retimed]
    exact present_retimed _ _ c n hs h
  · rw [step_carryOn hreq] at h
    rw [step_carryOn (by rw [retimed_fg, hn, noTickEdge_opValid]; exact hreq)]
    exact carryOn_retimed c n hs h

/-- Settles O25. The foreground engine neither reads nor, but by a delivery, writes what a pulse changes; so the run
without the pulses, which begins with the same registers, is at every edge the run with them but for those. -/
theorem ticksChangeOnlyTheClock : Obligations.TicksChangeOnlyTheClock := by
  unfold Obligations.TicksChangeOnlyTheClock
  refine ⟨fun p r => tickPulse_eq p r, fun s t hs h => ?_⟩
  obtain ⟨c, n, hstep⟩ := step_retimed s.regs.ct s.regs.tickCnt hs h
  rw [noTicks_eq_retimed]
  exact ⟨t.retimed c n, hstep, rfl⟩

end Sys2Proof.Machine
end

section
/-! PROOFS. The map from words to instructions and back (30_encoding.md R91, R92). -/

namespace Sys2Proof

/-- Settles O2: `decode` undoes `encode` instruction by instruction, and answers an instruction for no word but the
one put together from its fields. -/
theorem decodeAndEncodeAgree : Obligations.DecodeAndEncodeAgree := by
  unfold Obligations.DecodeAndEncodeAgree
  exact ⟨fun i _ => decode_encode i, fun _ _ => encode_of_decode⟩

/-- Settles O1: eighteen closed words, each decoded by evaluation. -/
theorem writtenOutWordsDecode : Obligations.WrittenOutWordsDecode := by
  unfold Obligations.WrittenOutWordsDecode
  decide

end Sys2Proof
end

section
/-! PROOFS. What an edge without reset can do, said once over the two inversions `microStep_acts` and
`clockEdge_acts` (20_memory.md R62, R73). -/

namespace Sys2Proof.Machine

/-! ## The tick agent's part of an edge -/

/-- The state on which the foreground engine acts at the coming edge: its inputs used, its pulse taken (R73). -/
def State.ticked (s : State) : State := s.consume.tickPart (nextInput s)

@[simp] theorem ticked_regs (s : State) :
    s.ticked.regs = s.regs.pulses s.params (ticksIn [nextInput s]) := by
  rw [State.ticked, tickPart_pulses]; rfl
@[simp] theorem ticked_params (s : State) : s.ticked.params = s.params := tickPart_params _ _
@[simp] theorem ticked_inputs (s : State) : s.ticked.inputs = s.inputs.tail := tickPart_inputs _ _
@[simp] theorem ticked_cycle (s : State) : s.ticked.cycle = s.cycle + 1 := tickPart_cycle _ _
@[simp] theorem ticked_trace (s : State) : s.ticked.trace = s.trace := tickPart_trace _ _
@[simp] theorem ticked_marks (s : State) : s.ticked.marks = s.marks := tickPart_marks _ _

theorem ticksIn_noPulse {inp : EdgeIn} (h : inp.tick = false) : ticksIn [inp] = 0 := by
  simp [ticksIn, h]

/-! ## What a micro-step can do -/

/-- What micro-step number `k` of the word `w` can make of `s`. -/
inductive MicroActs (w : Word) (k : Nat) (s : State) : Micro → State → Prop
  /-- pins, strobe, wait or a written bit: on to the next number -/
  | onward {m : Micro} (hm : m.plain = true ∨ m = .ce .tickOn) :
      MicroActs w k s m { s with
        regs := { m.effect s.regs with fg := .busy w (k + 1) }
        trace := s.trace ++ m.records s.params }
  /-- POLL before its delivery: a new position, with the settle wait or no record -/
  | moves {m : Micro} (x : Fg) (st : InState) (recs : List PinRec)
      (hm : m.ends = true → microReady m s.regs.inState = false)
      (hrecs : recs = [] ∨ recs = [.wait .deb (durationOf s.params .deb)]) :
      MicroActs w k s m { s with regs := { s.regs with fg := x, inState := st }, trace := s.trace ++ recs }
  /-- POLL's delivery of a press -/
  | press (b : Button) (hst : s.regs.inState = .hold b) : MicroActs w k s .deliverPress (s.deliver w (eventOf b))
  /-- POLL's delivery of NONE -/
  | none : MicroActs w k s .deliverNone (s.deliver w .none)
  /-- `done` -/
  | done : MicroActs w k s .done (s.finish (.completed w))

/-- A micro-step of POLL that only moves to another position. -/
theorem MicroActs.repositions {w : Word} {k : Nat} {s : State} {m : Micro}
    (hm : m.ends = true → microReady m s.regs.inState = false) (x : Fg) (st : InState) :
    MicroActs w k s m { s with regs := { s.regs with fg := x, inState := st } } := by
  simpa using MicroActs.moves (w := w) (k := k) x st [] hm (.inl rfl)

/-- A micro-step of POLL that leaves the state as it is: the release loop, or a lost position. -/
theorem MicroActs.stays {w : Word} {k : Nat} {s : State} {m : Micro}
    (hm : m.ends = true → microReady m s.regs.inState = false) : MicroActs w k s m s :=
  .repositions hm s.regs.fg s.regs.inState

/-- TSTART's write is like a plain micro-step, but that the tick agent reads what it writes. -/
theorem microStep_onward {m : Micro} (h : m.plain = true ∨ m = .ce .tickOn) (w : Word) (k : Nat) (inp : EdgeIn)
    (s : State) : microStep m w k inp s = { s with
      regs := { m.effect s.regs with fg := .busy w (k + 1) }
      trace := s.trace ++ m.records s.params } := by
  obtain h | rfl := h
  · exact microStep_plain h w k inp s
  · simp [microStep, Micro.effect, Micro.records, State.goTo]

theorem microStep_acts (m : Micro) (w : Word) (k : Nat) (inp : EdgeIn) (s : State) :
    MicroActs w k s m (microStep m w k inp s) := by
  cases m with
  | pins | e | wait => rw [microStep_onward (.inl rfl)]; exact .onward (.inl rfl)
  | ce op =>
    have hm : (Micro.ce op).plain = true ∨ Micro.ce op = .ce .tickOn := by
      cases op with
      | tickOn => exact .inr rfl
      | enter | inited => exact .inl rfl
    rw [microStep_onward hm]; exact .onward hm
  | sample =>
    simp only [microStep, sampleStep]
    split
    · exact .repositions (by simp [Micro.ends]) _ _
    · split
      · exact .repositions (by simp [Micro.ends]) _ _
      · exact .repositions (by simp [Micro.ends]) _ _
  | debounce =>
    simp only [microStep, debounceStep]
    split
    · exact .moves _ _ _ (by simp [Micro.ends]) (.inr rfl)
    all_goals exact .stays (by simp [Micro.ends])
  | resample =>
    simp only [microStep, resampleStep]
    split
    · split
      · exact .repositions (by simp [Micro.ends]) _ _
      · exact .repositions (by simp [Micro.ends]) _ _
    all_goals exact .stays (by simp [Micro.ends])
  | hold =>
    simp only [microStep, holdStep]
    split
    · split
      · exact .repositions (by simp [Micro.ends]) _ _
      · exact .stays (by simp [Micro.ends])
    all_goals exact .stays (by simp [Micro.ends])
  | deliverPress =>
    simp only [microStep, deliverPressStep]
    split
    next b hst => exact .press b hst
    all_goals exact .stays (by simp [microReady, *])
  | deliverNone => exact .none
  | done => exact .done

/-! ## What an edge can do -/

/-- What an edge without reset can make of `s`. -/
inductive EdgeActs (s : State) : State → Prop
  /-- a word is accepted -/
  | accepts (hf : s.regs.fg = .idle) (hv : (nextInput s).opValid = true) :
      EdgeActs s (s.ticked.accept (nextInput s).opWord (wordRefusal (nextInput s).opWord s.regs))
  /-- only the tick agent acts -/
  | waits (hw : (s.regs.fg = .idle ∧ (nextInput s).opValid = false) ∨ (nextInput s).fgGo = false ∨
      ∃ w k, s.regs.fg = .busy w k ∧ (stepsAt s.params w)[k]? = none) : EdgeActs s s.ticked
  /-- a refused word completes -/
  | refuses (w : Word) (why : RefuseReason) (hf : s.regs.fg = .refusing w why) (hgo : (nextInput s).fgGo = true) :
      EdgeActs s (s.ticked.finish (.refused w why))
  /-- the operation in progress takes its micro-step -/
  | micro (w : Word) (k : Nat) (m : Micro) (hf : s.regs.fg = .busy w k) (hm : (stepsAt s.params w)[k]? = some m)
      (hgo : (nextInput s).fgGo = true) : EdgeActs s (microStep m w k (nextInput s) s.ticked)

theorem clockEdge_acts {s : State} (hr : (nextInput s).rst = false) : EdgeActs s (clockEdge s) := by
  obtain ⟨hf, hv, e⟩ | ⟨hw, e⟩ | ⟨w, why, hf, hgo, e⟩ | ⟨w, k, m, hf, hm, hgo, e⟩ := clockEdge_cases hr
  · rw [e]; exact .accepts hf hv
  · rw [e]; exact .waits hw
  · rw [e]; exact .refuses w why hf hgo
  · rw [e]; exact .micro w k m hf hm hgo

theorem clockEdge_rst {s : State} (h : (nextInput s).rst = true) : clockEdge s = s.consume.resetRegs := by
  by_cases hreq : s.regs.fg = .idle ∧ (nextInput s).opValid = true
  · obtain ⟨hf, hv⟩ := hreq
    rw [acceptEdge_clockEdge hf hv, acceptEdge_rst _ _ h]
  · rw [runEdge_clockEdge hreq, runEdge_rst h]

/-! ## What an edge adds to the records -/

theorem records_length (p : Params) (m : Micro) : (m.records p).length ≤ 1 := by
  cases m <;> simp [Micro.records]

theorem MicroActs.adds {w : Word} {k : Nat} {s t : State} {m : Micro} (h : MicroActs w k s m t) :
    (∃ recs, t.trace = s.trace ++ recs ∧ recs.length ≤ 1) ∧ s.marks <+: t.marks := by
  cases h with
  | onward hm => exact ⟨⟨_, rfl, records_length _ m⟩, ⟨[], List.append_nil _⟩⟩
  | moves x st recs hm hrecs =>
    exact ⟨⟨recs, rfl, by obtain rfl | rfl := hrecs <;> simp⟩, [], List.append_nil _⟩
  | press | none | done => exact ⟨⟨[], by simp⟩, by simp⟩

/-- An edge adds one pin record at most, and takes no completion away. -/
theorem clockEdge_adds (s : State) :
    (∃ recs, (clockEdge s).trace = s.trace ++ recs ∧ recs.length ≤ 1) ∧ s.marks <+: (clockEdge s).marks := by
  cases hr : (nextInput s).rst with
  | true => rw [clockEdge_rst hr]; exact ⟨⟨[.reset], rfl, le_refl 1⟩, ⟨[], List.append_nil _⟩⟩
  | false =>
    have h := clockEdge_acts hr
    generalize clockEdge s = t at h ⊢
    cases h with
    | accepts | waits | refuses => exact ⟨⟨[], by simp⟩, by simp⟩
    | micro w k m hf hm hgo => simpa using (microStep_acts m w k (nextInput s) s.ticked).adds

end Sys2Proof.Machine
end

section
/-! PROOFS. A step is its first clock edge and the run of edges after it (20_memory.md R62, log 1). -/

namespace Sys2Proof.Machine

theorem not_lost_of_idle {s : State} (h : s.regs.fg = .idle) : s.lost = false := by
  simp [State.lost, h]

/-- Every step that does not stop is one edge and what the listed inputs carry on from there. -/
theorem step_eq (s : State) : step s =
    if s.lost = true ∧ (nextInput s).rst = false then .fault .lostPosition else .next (settle (clockEdge s)) := by
  by_cases h : s.regs.fg = .idle ∧ (nextInput s).opValid = true
  · obtain ⟨hf, hv⟩ := h
    rw [step_present hf hv, present, if_pos hf, acceptEdge_clockEdge hf hv, if_neg (by simp [not_lost_of_idle hf])]
  · rw [step_carryOn h, carryOn, runEdge_clockEdge h]

theorem step_goes {s : State} (h : ¬ (s.lost = true ∧ (nextInput s).rst = false)) :
    step s = .next (settle (clockEdge s)) := by
  rw [step_eq, if_neg h]

theorem eq_settle_of_step {s t : State} (h : step s = .next t) : t = settle (clockEdge s) := by
  rw [step_eq] at h
  split at h
  · cases h
  · cases h; rfl

/-- The edges of a step after its first. -/
theorem step_iterate {s t : State} (h : step s = .next t) :
    ∃ n, n ≤ s.inputs.tail.length ∧ t = clockEdge^[n] (clockEdge s) ∧
      ∀ m, m < n → (clockEdge^[m] (clockEdge s)).regs.fg ≠ .idle := by
  obtain ⟨hin, -, -⟩ := clockEdge_frame s
  obtain ⟨n, hn, hrun, hbusy⟩ := settleOn_iterate _ (clockEdge s) hin
  rw [← hin] at hrun
  exact ⟨n, hn, (eq_settle_of_step h).trans hrun, hbusy⟩

/-- What holds after the first edge of a step and is kept by every edge holds after the step. -/
theorem step_keeps_from {P : State → Prop} (hkeep : ∀ s, P s → P (clockEdge s)) {s t : State}
    (hs : P (clockEdge s)) (h : step s = .next t) : P t := by
  obtain ⟨n, -, rfl, -⟩ := step_iterate h
  exact iterate_clockEdge_keeps hkeep n hs

/-- What every edge keeps, a step keeps. -/
theorem step_keeps {P : State → Prop} (hkeep : ∀ s, P s → P (clockEdge s)) {s t : State} (hs : P s)
    (h : step s = .next t) : P t :=
  step_keeps_from hkeep (hkeep s hs) h

/-- Settles O8: the first edge, and the edges of `settleOn_iterate` after it. -/
theorem stepIsARunOfClockEdges : Obligations.StepIsARunOfClockEdges := by
  unfold Obligations.StepIsARunOfClockEdges
  intro s t h
  obtain ⟨n, hn, rfl, hbusy⟩ := step_iterate h
  rw [List.length_tail] at hn
  refine ⟨n + 1, by omega, by omega, (Function.iterate_succ_apply clockEdge n s).symm, fun m hm hlt => ?_⟩
  obtain ⟨m, rfl⟩ := Nat.exists_eq_succ_of_ne_zero (by omega : m ≠ 0)
  rw [Function.iterate_succ_apply]
  exact hbusy m (by omega)

/-- Settles O10: the one test of a step before its first edge. -/
theorem onlyALostPositionStops : Obligations.OnlyALostPositionStops := by
  unfold Obligations.OnlyALostPositionStops
  exact fun s => ⟨fun h => by rw [step_eq, if_pos h], fun h => ⟨_, step_goes h⟩⟩

/-- Settles O11: every edge keeps the parameters, adds to the records and counts itself, and a step is a run of
edges. -/
theorem stepsKeepParametersAndRecords : Obligations.StepsKeepParametersAndRecords := by
  unfold Obligations.StepsKeepParametersAndRecords
  intro s t h
  have edge (u : State) : (clockEdge u).params = u.params ∧ u.trace <+: (clockEdge u).trace ∧
      u.marks <+: (clockEdge u).marks ∧ u.cycle < (clockEdge u).cycle := by
    obtain ⟨-, hp, hc⟩ := clockEdge_frame u
    obtain ⟨⟨recs, ht, -⟩, hm⟩ := clockEdge_adds u
    exact ⟨hp, ⟨recs, ht.symm⟩, hm, by omega⟩
  refine step_keeps_from (P := fun u => u.params = s.params ∧ s.trace <+: u.trace ∧ s.marks <+: u.marks ∧
    s.cycle < u.cycle) (fun u hu => ?_) (edge s) h
  obtain ⟨hp, ht, hm, hc⟩ := hu
  obtain ⟨hp', ht', hm', hc'⟩ := edge u
  exact ⟨hp'.trans hp, ht.trans ht', hm.trans hm', hc.trans hc'⟩

/-- Settles O7: both present the word with its refusal condition. -/
theorem stepRunsTheDecodedOperation : Obligations.StepRunsTheDecodedOperation := by
  unfold Obligations.StepRunsTheDecodedOperation
  intro s i hf hv hd
  rw [step, if_pos ⟨hf, hv⟩, hd]

/-- Settles O5: a reset edge is tested before everything else, in an edge, in a step and in a presented operation. -/
theorem resetEdgeOverridesEverything : Obligations.ResetEdgeOverridesEverything := by
  unfold Obligations.ResetEdgeOverridesEverything
  intro s hr
  have hstep : step s = .next s.consume.resetRegs := by
    rw [step_goes (by simp [hr]), clockEdge_rst hr, settle_idle rfl]
  refine ⟨by simp [State.opReady, hr], by simp [State.opDone, hr], hstep, fun i => ?_⟩
  rw [exec_present, present_rst _ _ hr, hstep]

end Sys2Proof.Machine
end

section
/-! PROOFS. The operation port and `op_done` (20_memory.md R62). -/

namespace Sys2Proof.Machine

/-- An edge with another request on it. -/
def withRequest (v : Bool) (w : Word) (inp : EdgeIn) : EdgeIn := { inp with opValid := v, opWord := w }

/-- A micro-step reads the buttons of its edge, and no request. -/
theorem microStep_withRequest (m : Micro) (w' : Word) (k : Nat) (v : Bool) (w : Word) (inp : EdgeIn) (s : State) :
    microStep m w' k (withRequest v w inp) s = microStep m w' k inp s := by
  have hlevel (b : Button) : level b (withRequest v w inp) = level b inp := by cases b <;> rfl
  cases m with
  | resample => simp only [microStep, resampleStep, hlevel]
  | hold => simp only [microStep, holdStep, hlevel]
  | sample | pins | e | wait | ce | debounce | deliverPress | deliverNone | done => rfl

theorem foreground_withRequest (v : Bool) (w : Word) (inp : EdgeIn) (s : State) :
    foreground (withRequest v w inp) s = foreground inp s := by
  have hgo : (withRequest v w inp).fgGo = inp.fgGo := rfl
  simp only [foreground, microStep_withRequest, hgo]

/-- Settles O12: a busy core's edge is reset, or the tick agent's part and the foreground's, and neither reads the
request. -/
theorem busyCoreIgnoresRequests : Obligations.BusyCoreIgnoresRequests := by
  unfold Obligations.BusyCoreIgnoresRequests
  intro s inp rest v w hf hl
  have hn : nextInput s = inp := nextInput_cons hl
  have hn' : nextInput { s with inputs := withRequest v w inp :: rest } = withRequest v w inp := rfl
  have hconsume : ({ s with inputs := withRequest v w inp :: rest } : State).consume = s.consume := by
    simp [State.consume, hl]
  change clockEdge { s with inputs := withRequest v w inp :: rest } = clockEdge s
  rw [runEdge_clockEdge (by simp [hf]), runEdge_clockEdge (by simp [hf])]
  simp only [runEdge, hn, hn', hconsume, foreground_withRequest]
  rfl

/-- Settles O13: no request, no reset and no operation leave the tick agent alone with the edge, and the core idle. -/
theorem idleCoreWaitsForARequest : Obligations.IdleCoreWaitsForARequest := by
  unfold Obligations.IdleCoreWaitsForARequest
  intro s hf hv hr
  have hedge : clockEdge s = s.consume.tickPart (nextInput s) := by
    rw [runEdge_clockEdge (by simp [hv]), runEdge_noRst hr, foreground_idle _ (by simp [apply_ite Regs.fg, hf])]
  have hidle : (clockEdge s).regs.fg = .idle := by simp [hedge, apply_ite Regs.fg, hf]
  rw [step_goes (by simp [not_lost_of_idle hf]), settle_idle hidle, hedge]
  cases ht : (nextInput s).tick <;> simp [State.tickPart, ht, State.consume]

/-! ## Completions -/

theorem ends_of_plain {m : Micro} (h : m.plain = true ∨ m = .ce .tickOn) : m.ends = false := by
  obtain h | rfl := h
  · cases m <;> simp_all [Micro.plain, Micro.ends]
  · rfl

/-- A micro-step that ends its operation, at a position at which it can be taken, leaves the core idle with one
completion more; any other adds none. -/
theorem MicroActs.completes {w : Word} {k : Nat} {s t : State} {m : Micro} (h : MicroActs w k s m t) :
    ((m.ends = true ∧ microReady m s.regs.inState = true) ∧ t.regs.fg = .idle ∧ t.marks = s.marks ++ [.completed w]) ∨
    (¬ (m.ends = true ∧ microReady m s.regs.inState = true) ∧ t.marks = s.marks) := by
  cases h with
  | onward hm => exact .inr ⟨by simp [ends_of_plain hm], rfl⟩
  | moves x st recs hm hrecs => exact .inr ⟨fun ⟨he, hrdy⟩ => by simp [hm he] at hrdy, rfl⟩
  | press b hst => exact .inl ⟨⟨rfl, by rw [hst]; rfl⟩, rfl, rfl⟩
  | none => exact .inl ⟨⟨rfl, rfl⟩, rfl, rfl⟩
  | done => exact .inl ⟨⟨rfl, rfl⟩, rfl, rfl⟩

/-- `op_done` at an edge without reset at which a busy core takes its micro-step. -/
theorem opDone_micro {s : State} {w : Word} {k : Nat} {m : Micro} (hr : (nextInput s).rst = false)
    (hgo : (nextInput s).fgGo = true) (hf : s.regs.fg = .busy w k) (hm : (stepsAt s.params w)[k]? = some m) :
    s.opDone = true ↔ m.ends = true ∧ microReady m s.regs.inState = true := by
  rw [State.opDone, hr, hgo, currentMicro_busy hf hm]
  cases microReady m s.regs.inState <;> simp

theorem opDone_waits {s : State} (hw : (s.regs.fg = .idle ∧ (nextInput s).opValid = false) ∨
    (nextInput s).fgGo = false ∨ ∃ w k, s.regs.fg = .busy w k ∧ (stepsAt s.params w)[k]? = none) :
    s.opDone = false := by
  obtain ⟨hf, -⟩ | hgo | ⟨w, k, hf, hm⟩ := hw
  · simp [State.opDone, State.currentMicro, hf]
  · simp [State.opDone, hgo]
  · simp [State.opDone, State.currentMicro, hf, hm]

/-- At every edge either `op_done` is 1, the core becomes idle and one completion is added, or neither. -/
theorem clockEdge_completes (s : State) :
    (s.opDone = true ∧ (clockEdge s).regs.fg = .idle ∧ ∃ m, (clockEdge s).marks = s.marks ++ [m]) ∨
    (s.opDone = false ∧ (clockEdge s).marks = s.marks) := by
  cases hr : (nextInput s).rst with
  | true => exact .inr ⟨by simp [State.opDone, hr], by rw [clockEdge_rst hr]; rfl⟩
  | false =>
    have h := clockEdge_acts hr
    generalize clockEdge s = t at h ⊢
    cases h with
    | accepts hf hv => exact .inr ⟨by simp [State.opDone, State.currentMicro, hf], by simp⟩
    | waits hw => exact .inr ⟨opDone_waits hw, by simp⟩
    | refuses w why hf hgo =>
      exact .inl ⟨by simp [State.opDone, State.currentMicro, hr, hgo, hf, Micro.ends], by simp, _, by simp; rfl⟩
    | micro w k m hf hm hgo =>
      have hdone := opDone_micro hr hgo hf hm
      obtain ⟨hends, hidle, hmark⟩ | ⟨hends, hmark⟩ := (microStep_acts m w k (nextInput s) s.ticked).completes <;>
        simp only [ticked_regs, pulses_inState, ticked_marks] at hends hmark
      · exact .inl ⟨hdone.mpr hends, hidle, _, hmark⟩
      · exact .inr ⟨Bool.eq_false_iff.mpr (mt hdone.mp hends), hmark⟩

/-- Settles O14: `clockEdge_completes` by the two values of `op_done`. -/
theorem completionsAreOpDonePulses : Obligations.CompletionsAreOpDonePulses := by
  unfold Obligations.CompletionsAreOpDonePulses
  intro s
  obtain ⟨hdone, hidle, hmark⟩ | ⟨hdone, hmark⟩ := clockEdge_completes s
  · exact ⟨fun _ => ⟨hidle, hmark⟩, fun h => by simp [hdone] at h⟩
  · exact ⟨fun h => by simp [hdone] at h, fun _ => hmark⟩

end Sys2Proof.Machine
end

section
/-! PROOFS. Refusal: who is refused, why, and what a refusal leaves (60_exceptions.md R241, R242). -/

namespace Sys2Proof.Machine

theorem wordRefusal_encode (i : Instr) (r : Regs) : wordRefusal (encode i) r = refusalOf i r := by
  rw [wordRefusal, decode_encode]

/-! ## What a refused request leaves -/

/-- Settles O15: the word is presented with its reserved class as the refusal, and a refused word completes. -/
theorem reservedWordsAreRefused : Obligations.ReservedWordsAreRefused := by
  unfold Obligations.ReservedWordsAreRefused
  intro s why hg hv hd
  have hf : s.regs.fg = .idle := hg.1
  have hwhy : wordRefusal (nextInput s).opWord s.regs = some (.reserved why) := by rw [wordRefusal, hd]
  rw [step_present hf hv, hwhy]
  exact present_refused hg _ _

theorem exec_refused {s : State} (hg : s.givesSteps 1) (i : Instr) {why : RefuseReason}
    (hwhy : refusalOf i s.regs = some why) : ∃ t, exec i s = .next t ∧ s.refusedTo t (encode i) why := by
  rw [exec_present, hwhy]
  exact present_refused hg _ _

/-- Settles O16: each broken contract is the refusal condition of its operation. -/
theorem brokenContractsAreRefused : Obligations.BrokenContractsAreRefused := by
  unfold Obligations.BrokenContractsAreRefused
  refine fun s hg => ⟨fun hdd => ?display, fun hdd => ?linit, fun hcfg t => ?cfgent⟩
  case display =>
    have hwhy : displayRefusal s.regs = some .notInitialised := by simp [displayRefusal, hdd]
    exact ⟨fun b => exec_refused hg (.wcmd b) hwhy, fun b => exec_refused hg (.wdat b) hwhy,
      exec_refused hg .lclr hwhy, exec_refused hg .goto1 hwhy, exec_refused hg .goto2 hwhy,
      fun h m c => exec_refused hg (.wtime h m c) hwhy⟩
  case linit => exact exec_refused hg .linit (by simp [refusalOf, initRefusal, hdd])
  case cfgent => exact exec_refused hg (.cfgent t) (by simp [refusalOf, wizardRefusal, hcfg])

/-! ## The complete list -/

theorem displayRefusal_cases (r : Regs) :
    (r.ddInited = true ∧ displayRefusal r = none) ∨ (r.ddInited = false ∧ displayRefusal r = some .notInitialised) := by
  cases h : r.ddInited <;> simp [displayRefusal, h]

theorem initRefusal_cases (r : Regs) :
    (r.ddInited = false ∧ initRefusal r = none) ∨ (r.ddInited = true ∧ initRefusal r = some .alreadyInitialised) := by
  cases h : r.ddInited <;> simp [initRefusal, h]

theorem wizardRefusal_cases (r : Regs) : (r.cfgState = .idle ∧ wizardRefusal r = none) ∨
    (r.cfgState ≠ .idle ∧ wizardRefusal r = some .wizardInProgress) := by
  by_cases h : r.cfgState = .idle <;> simp [wizardRefusal, h]

/-- An instruction's refusal condition, by the reason it can give. -/
theorem refusalOf_reasons (i : Instr) (r : Regs) :
    (∀ why, refusalOf i r ≠ some (.reserved why)) ∧
    (refusalOf i r = some .notInitialised ↔ r.ddInited = false ∧
      (opField (encode i) = 0x5#4 ∨ opField (encode i) = 0x6#4 ∨ opField (encode i) = 0x7#4 ∨
        opField (encode i) = 0x8#4 ∨ opField (encode i) = 0x9#4)) ∧
    (refusalOf i r = some .alreadyInitialised ↔ r.ddInited = true ∧ i = .linit) ∧
    (refusalOf i r = some .wizardInProgress ↔ r.cfgState ≠ .idle ∧ ∃ t, i = .cfgent t) := by
  cases i with
  | tstart | poll => simp [refusalOf, encode]
  | cfgent t => obtain ⟨h, e⟩ | ⟨h, e⟩ := wizardRefusal_cases r <;> simp [refusalOf, encode, e, h]
  | linit => obtain ⟨h, e⟩ | ⟨h, e⟩ := initRefusal_cases r <;> simp [refusalOf, encode, e, h]
  | wcmd | wdat | lclr | goto1 | goto2 | wtime =>
    obtain ⟨h, e⟩ | ⟨h, e⟩ := displayRefusal_cases r <;> simp [refusalOf, encode, e, h]

theorem encode_injective : Function.Injective encode := by
  intro i j h
  have := (decode_encode i).symm.trans ((congrArg decode h).trans (decode_encode j))
  exact Decoded.instr.inj this

/-- A word is the word of an instruction, refused as that one is, or no row matches it and it is reserved. -/
theorem wordRefusal_cases (w : Word) (r : Regs) :
    (wordWellFormed w = true ∧ ∃ i, w = encode i ∧ wordRefusal w r = refusalOf i r) ∨
    (wordWellFormed w = false ∧ ∃ why, wordRefusal w r = some (.reserved why)) := by
  obtain ⟨hrow, -⟩ := decodingFollowsTheOperationMap
  cases hd : decode w with
  | instr i =>
    refine .inl ⟨(hrow w).mp ⟨i, hd⟩, i, (encode_of_decode hd).symm, by rw [wordRefusal, hd]⟩
  | reserved why =>
    refine .inr ⟨?_, why, by rw [wordRefusal, hd]⟩
    rw [Bool.eq_false_iff, ne_eq, ← hrow w, hd]
    simp

theorem linit_word : 0x40000000#32 = encode .linit := by decide

theorem cfgent_words : 0x20000000#32 = encode (.cfgent .clock) ∧ 0x20000001#32 = encode (.cfgent .alarm) := by decide

/-- Settles O17: a word is an instruction's, and then refused for that instruction's reason, or no row matches it and
it is reserved; the words the list names are those of LINIT and CFGENT. -/
theorem refusalsAreTheListedOnes : Obligations.RefusalsAreTheListedOnes := by
  unfold Obligations.RefusalsAreTheListedOnes
  obtain ⟨hclock, halarm⟩ := cfgent_words
  refine ⟨fun w r => ?list, fun w r q => wordRefusal_congr w, fun s hf hv hr => ?accepted⟩
  case list =>
    obtain ⟨hw, i, rfl, e⟩ | ⟨hw, why, e⟩ := wordRefusal_cases w r
    · obtain ⟨hreserved, hdisplay, hinit, hwizard⟩ := refusalOf_reasons i r
      rw [e, linit_word, hclock, halarm, encode_injective.eq_iff, encode_injective.eq_iff, encode_injective.eq_iff]
      refine ⟨by simpa [hw] using hreserved, by simpa [hw] using hdisplay, hinit,
        hwizard.trans (and_congr_right fun _ => ⟨?_, ?_⟩), wordRefusal_encode .tstart r, wordRefusal_encode .poll r⟩
      · rintro ⟨t, rfl⟩; cases t <;> simp
      · rintro (rfl | rfl) <;> exact ⟨_, rfl⟩
    · have hne (v : Word) (hv : wordWellFormed v = true) : w ≠ v := by
        rintro rfl; rw [hw] at hv; cases hv
      have hlinit := hne 0x40000000#32 (by decide)
      have h0 := hne 0x20000000#32 (by decide)
      have h1 := hne 0x20000001#32 (by decide)
      exact ⟨by simp [e, hw], by simp [e, hw], by simp [e, hlinit], by simp [e, h0, h1],
        wordRefusal_encode .tstart r, wordRefusal_encode .poll r⟩
  case accepted =>
    rw [acceptEdge_clockEdge hf hv, acceptEdge_noRst _ _ hr]
    rfl

end Sys2Proof.Machine
end

section
/-! PROOFS. One tick pulse (41_clock_engine.md R162). -/

namespace Sys2Proof.Machine

/-- Settles O19: a pulse with the tick disabled, below `TICK_DIV`, and at it. -/
theorem tickCountsToTickDiv : Obligations.TickCountsToTickDiv := by
  unfold Obligations.TickCountsToTickDiv
  exact fun p r hp _ => ⟨tickPulse_off p, tickPulse_counts hp, tickPulse_advances hp⟩

end Sys2Proof.Machine
end

section
/-! PROOFS. Sizes of the display operations (40_display.md R134). -/

namespace Sys2Proof.Machine

/-! ## Strobe pulses -/

theorem strobePulses_append (l m : List Micro) : strobePulses (l ++ m) = strobePulses l + strobePulses m :=
  List.countP_append

theorem strobePulses_nibSteps (p : Params) (rs : Bool) (n : Nibble) : strobePulses (nibSteps p rs n) = 1 :=
  nib_cases (P := fun l _ => strobePulses l = 1) p rs n rfl rfl

theorem strobePulses_byteSteps (p : Params) (rs : Bool) (b : Byte) : strobePulses (byteSteps p rs b) = 2 := by
  simp only [byteSteps, strobePulses_append, strobePulses_nibSteps]
  rfl

theorem strobePulses_flatMap_byteSteps (p : Params) (rs : Bool) (l : List Byte) :
    strobePulses (l.flatMap (byteSteps p rs)) = 2 * l.length := by
  induction l with
  | nil => rfl
  | cons b l ih => rw [List.flatMap_cons, strobePulses_append, strobePulses_byteSteps, ih, List.length_cons]; ring

/-- One byte and `done`. -/
theorem strobePulses_oneByte (p : Params) (rs : Bool) (b : Byte) :
    strobePulses (byteSteps p rs b ++ [Micro.done]) = 2 := by
  rw [strobePulses_append, strobePulses_byteSteps]; rfl

theorem strobePulses_linitSteps (p : Params) : strobePulses (linitSteps p) = 12 := by
  simp only [linitSteps, strobePulses_append, strobePulses_nibSteps, strobePulses_byteSteps]
  rfl

theorem strobePulses_wtimeSteps (p : Params) (h m c : Byte) : strobePulses (wtimeSteps p h m c) = 16 := by
  rw [wtimeSteps, strobePulses_append, strobePulses_flatMap_byteSteps]; rfl

theorem strobePulses_wstr (p : Params) (text : List Byte) :
    ((wstr p text).map (fun i => strobePulses (stepsOf p i))).sum =
      2 * (text.takeWhile (fun x => x != p.strTerm)).length := by
  have hwdat (b : Byte) : strobePulses (stepsOf p (.wdat b)) = 2 := strobePulses_oneByte p true b
  simp [wstr, Function.comp_def, hwdat, Nat.mul_comm]

/-! ## Micro-steps, durations and kinds of micro-steps of `BYTE` -/

theorem length_oneByte (p : Params) (rs : Bool) (b : Byte) :
    (byteSteps p rs b ++ [Micro.done]).length = oneByteSize p := by
  rw [List.length_append, length_byteSteps]; rfl

theorem length_wtimeSteps (p : Params) (h m c : Byte) : (wtimeSteps p h m c).length = wtimeSize p := by
  rw [wtimeSteps, List.length_append, length_flatMap_byteSteps]; rfl

theorem minDuration_append (p : Params) (l m : List Micro) :
    minDuration p (l ++ m) = minDuration p l + minDuration p m := by
  simp only [minDuration, List.map_append, List.sum_append]

/-- With `T_SU = 0` the set-up is no micro-step and no time. -/
theorem minDuration_nibSteps (p : Params) (rs : Bool) (n : Nibble) :
    minDuration p (nibSteps p rs n) = p.tSu + p.tEw + p.tEh := by
  by_cases h : p.tSu = 0
  · rw [nibSteps_of_noSetUp h]
    simp [minDuration, Micro.delay, durationOf, h]
  · rw [nibSteps_of_setUp h]
    simp [minDuration, Micro.delay, durationOf, add_assoc]

theorem minDuration_byteSteps (p : Params) (rs : Bool) (b : Byte) :
    minDuration p (byteSteps p rs b) = 2 * (p.tSu + p.tEw + p.tEh) + p.tByte := by
  have hwait : minDuration p [.wait .byte] = p.tByte := by simp [minDuration, Micro.delay, durationOf]
  rw [byteSteps, minDuration_append, minDuration_append, minDuration_nibSteps, minDuration_nibSteps, hwait]
  ring

/-- What `BYTE` counts of a kind is twice what both forms of `NIB` count, and the settle delay. -/
theorem countP_byteSteps {f : Micro → Bool} {n : Nat} (p : Params) (rs : Bool) (b : Byte)
    (hnib : ∀ d, (nibSteps p rs d).countP f = n) (hwait : f (.wait .byte) = false) :
    (byteSteps p rs b).countP f = 2 * n := by
  simp only [byteSteps, List.countP_append, hnib, List.countP_singleton, hwait, Bool.false_eq_true, if_false]
  omega

theorem sizes_of_setUp {p : Params} (h : p.tSu ≠ 0) :
    nibSize p = 6 ∧ byteSize p = 13 ∧ oneByteSize p = 14 ∧ wtimeSize p = 105 ∧ linitSize p = 82 := by
  simp [nibSize, byteSize, oneByteSize, wtimeSize, linitSize, h]

theorem sizes_of_noSetUp {p : Params} (h : p.tSu = 0) :
    nibSize p = 5 ∧ byteSize p = 11 ∧ oneByteSize p = 12 ∧ wtimeSize p = 89 ∧ linitSize p = 70 := by
  simp [nibSize, byteSize, oneByteSize, wtimeSize, linitSize, h]

/-- Settles O36: every count of an operation is the sum of those of its nibbles, bytes and `done`. -/
theorem displayOperationSizes : Obligations.DisplayOperationSizes := by
  unfold Obligations.DisplayOperationSizes
  intro p rs n b h m c text
  refine ⟨⟨strobePulses_linitSteps p, strobePulses_oneByte .., strobePulses_oneByte .., strobePulses_oneByte ..,
      strobePulses_oneByte .., strobePulses_oneByte .., strobePulses_wtimeSteps p h m c, strobePulses_wstr p text⟩,
    ⟨length_nibSteps p rs n, length_byteSteps p rs b, length_oneByte .., length_oneByte .., length_oneByte ..,
      length_oneByte .., length_oneByte .., length_wtimeSteps p h m c, length_linitSteps p⟩,
    sizes_of_setUp, sizes_of_noSetUp, minDuration_byteSteps p rs b, ?single, ?up, ?down⟩
  case single =>
    exact countP_byteSteps (n := 3) p rs b (fun d => nib_cases (P := fun l _ => l.countP _ = 3) p rs d rfl rfl) rfl
  case up =>
    exact countP_byteSteps (n := 1) p rs b (fun d => nib_cases (P := fun l _ => l.countP _ = 1) p rs d rfl rfl) rfl
  case down =>
    exact countP_byteSteps (n := 1) p rs b (fun d => nib_cases (P := fun l _ => l.countP _ = 1) p rs d rfl rfl) rfl

end Sys2Proof.Machine
end

section
/-! PROOFS. A wizard's events and phases (42_input_config.md R209, R211, R215, R219). -/

namespace Sys2Proof.Machine

/-! ## What the table writes -/

theorem inch_eq (t : Target) (r : Regs) : r.inch t = { r with ct := (r.inch t).ct, alarm := (r.inch t).alarm } := by
  cases t <;> rfl

theorem incm_eq (t : Target) (r : Regs) : r.incm t = { r with ct := (r.incm t).ct, alarm := (r.incm t).alarm } := by
  cases t <;> rfl

theorem togm_eq (t : Target) (r : Regs) : r.togm t = { r with ct := (r.togm t).ct, alarm := (r.togm t).alarm } := by
  cases t <;> rfl

/-- The phase to which CONFIRM leads (R211). -/
def Phase.next : Phase → Phase
  | .setHour => .setMin
  | .setMin => .setMer
  | .setMer => .idle
  | .idle => .idle

/-- What the table can do to the registers: nothing, one clock-engine operation on the wizard's target, or the next
phase. -/
theorem configure_cases (e : InputEvent) (r : Regs) :
    ((e = .none ∨ r.cfgState = .idle) ∧ r.configure e = r) ∨
    (e = .increment ∧ r.cfgState ≠ .idle ∧ (r.configure e = r.inch r.cfgTarget ∨
      r.configure e = r.incm r.cfgTarget ∨ r.configure e = r.togm r.cfgTarget)) ∨
    (e = .confirm ∧ r.cfgState ≠ .idle ∧ r.configure e = { r with cfgState := r.cfgState.next }) := by
  cases e with
  | none => exact .inl ⟨.inl rfl, configure_none r⟩
  | increment =>
    cases h : r.cfgState with
    | idle => exact .inl ⟨.inr rfl, configure_idle h _⟩
    | setHour => exact .inr (.inl ⟨rfl, by decide, .inl (configure_increment_setHour h)⟩)
    | setMin => exact .inr (.inl ⟨rfl, by decide, .inr (.inl (configure_increment_setMin h))⟩)
    | setMer => exact .inr (.inl ⟨rfl, by decide, .inr (.inr (configure_increment_setMer h))⟩)
  | confirm =>
    cases h : r.cfgState with
    | idle => exact .inl ⟨.inr rfl, configure_idle h _⟩
    | setHour => exact .inr (.inr ⟨rfl, by decide, configure_confirm_setHour h⟩)
    | setMin => exact .inr (.inr ⟨rfl, by decide, configure_confirm_setMin h⟩)
    | setMer => exact .inr (.inr ⟨rfl, by decide, configure_confirm_setMer h⟩)

/-- CONFIRM leads to the next phase, and no other event changes the phase. -/
theorem configure_cfgState (e : InputEvent) (r : Regs) :
    (r.configure e).cfgState = if e = .confirm then r.cfgState.next else r.cfgState := by
  obtain ⟨rfl | hidle, h⟩ | ⟨rfl, -, h | h | h⟩ | ⟨rfl, -, h⟩ := configure_cases e r
  · rw [h]; rfl
  · rw [h, hidle]; cases e <;> rfl
  · rw [h, inch_eq]; rfl
  · rw [h, incm_eq]; rfl
  · rw [h, togm_eq]; rfl
  · rw [h]; rfl

/-- The table writes ClockTime, AlarmTime and the phase at most. -/
theorem configure_eq (e : InputEvent) (r : Regs) : r.configure e =
    { r with ct := (r.configure e).ct, alarm := (r.configure e).alarm, cfgState := (r.configure e).cfgState } := by
  obtain ⟨-, h⟩ | ⟨-, -, h | h | h⟩ | ⟨-, -, h⟩ := configure_cases e r
  · rw [h]
  · rw [h, inch_eq]
  · rw [h, incm_eq]
  · rw [h, togm_eq]
  · rw [h]

/-! ## Three confirms -/

theorem deliver_cfgState (e : InputEvent) (r : Regs) :
    (r.deliver e).cfgState = if e = .confirm then r.cfgState.next else r.cfgState := by
  rw [deliver_eq]
  exact configure_cfgState e r

/-- The phase after any events is as many phases on as there are CONFIRMs among them. -/
theorem deliverAll_cfgState (events : List InputEvent) (r : Regs) :
    (r.deliverAll events).cfgState = Phase.next^[events.count .confirm] r.cfgState := by
  induction events generalizing r with
  | nil => rfl
  | cons e events ih =>
    have hcons : r.deliverAll (e :: events) = (r.deliver e).deliverAll events := rfl
    rw [hcons, ih, deliver_cfgState]
    by_cases he : e = .confirm
    · rw [if_pos he, he, List.count_cons_self, Function.iterate_succ_apply]
    · rw [if_neg he, List.count_cons_of_ne he]

theorem next_iterate_idle (n : Nat) : Phase.next^[n] .idle = .idle := Function.iterate_fixed rfl n

/-- Settles O39: from SET_HOUR three phases lead to IDLE, which no CONFIRM leaves. -/
theorem threeConfirmsEndAWizard : Obligations.ThreeConfirmsEndAWizard := by
  unfold Obligations.ThreeConfirmsEndAWizard
  intro events r h
  rw [deliverAll_cfgState, h]
  generalize events.count .confirm = n
  match n with
  | 0 | 1 | 2 => rfl
  | n + 3 => exact next_iterate_idle n

/-! ## The source's example -/

/-- A set-alarm wizard in the phase `ph`, with AlarmTime `a` and ClockTime `c`. -/
def Regs.alarmWizard (r : Regs) (ph : Phase) (a : AlarmTime) (c : ClockTime) : Prop :=
  r.cfgTarget = .alarm ∧ r.cfgState = ph ∧ r.alarm = a ∧ r.ct = c

section
variable {r : Regs} {ph : Phase} {a : AlarmTime} {c : ClockTime}

theorem alarmWizard_increment_hour (h : r.alarmWizard .setHour a c) :
    (r.deliver .increment).alarmWizard .setHour { a with hour := nextHour a.hour } c := by
  obtain ⟨ht, hph, rfl, rfl⟩ := h
  rw [deliver_eq, configure_increment_setHour hph, ht]
  exact ⟨ht, hph, rfl, rfl⟩

theorem alarmWizard_increment_minute (h : r.alarmWizard .setMin a c) :
    (r.deliver .increment).alarmWizard .setMin { a with minute := nextMinute a.minute } c := by
  obtain ⟨ht, hph, rfl, rfl⟩ := h
  rw [deliver_eq, configure_increment_setMin hph, ht]
  exact ⟨ht, hph, rfl, rfl⟩

theorem alarmWizard_increment_mer (h : r.alarmWizard .setMer a c) :
    (r.deliver .increment).alarmWizard .setMer { a with mer := a.mer.toggle } c := by
  obtain ⟨ht, hph, rfl, rfl⟩ := h
  rw [deliver_eq, configure_increment_setMer hph, ht]
  exact ⟨ht, hph, rfl, rfl⟩

theorem alarmWizard_confirm (h : r.alarmWizard ph a c) : (r.deliver .confirm).alarmWizard ph.next a c := by
  obtain ⟨ht, rfl, rfl, rfl⟩ := h
  obtain ⟨-, e⟩ | ⟨he, -⟩ | ⟨-, -, e⟩ := configure_cases .confirm r
  · have hph := configure_cfgState .confirm r
    rw [e, if_pos rfl] at hph
    rw [deliver_eq, e]
    exact ⟨ht, hph, rfl, rfl⟩
  · cases he
  · rw [deliver_eq, e]
    exact ⟨ht, rfl, rfl, rfl⟩

end

/-- Settles O41: the wizard followed through its phases, event by event. -/
theorem wizardExampleSetsTheAlarm : Obligations.WizardExampleSetsTheAlarm := by
  unfold Obligations.WizardExampleSetsTheAlarm
  intro r h
  have hstart : (r.enterWizard .alarm).alarmWizard .setHour { hour := 0x12#8, minute := 0x00#8, mer := .am } r.ct :=
    ⟨rfl, rfl, h, rfl⟩
  have hhour := alarmWizard_confirm (alarmWizard_increment_hour (alarmWizard_increment_hour
    (alarmWizard_increment_hour (alarmWizard_increment_hour (alarmWizard_increment_hour hstart)))))
  have hminute := alarmWizard_confirm (alarmWizard_increment_minute (alarmWizard_increment_minute
    (alarmWizard_increment_minute hhour)))
  obtain ⟨-, hph, halarm, hct⟩ := alarmWizard_confirm (alarmWizard_increment_mer hminute)
  exact ⟨halarm.trans (by decide), hph, hct⟩

end Sys2Proof.Machine
end

section
/-! PROOFS. Who writes which register (10_state.md R29, R30, R37; 42_input_config.md R215, R218; 40_display.md R120). -/

namespace Sys2Proof.Machine

/-! ## Which operation has which micro-step -/

/-- The operation whose list has a `ce` micro-step (R125, R165, R210). -/
def CeOp.owner : CeOp → Instr
  | .tickOn => .tstart
  | .enter t => .cfgent t
  | .inited => .linit

/-- The micro-steps that move a pin. -/
def Micro.drivesPins : Micro → Bool
  | .pins _ _ _ => true
  | .e _ => true
  | .wait _ => false
  | .ce _ => false
  | .sample => false
  | .debounce => false
  | .resample => false
  | .hold => false
  | .deliverPress => false
  | .deliverNone => false
  | .done => false

theorem isCe_nibSteps (p : Params) (rs : Bool) (n : Nibble) : ∀ m ∈ nibSteps p rs n, m.isCe = false :=
  nib_cases (P := fun l _ => ∀ m ∈ l, m.isCe = false) p rs n (by simp [Micro.isCe]) (by simp [Micro.isCe])

theorem isCe_byteSteps (p : Params) (rs : Bool) (b : Byte) : ∀ m ∈ byteSteps p rs b, m.isCe = false := by
  simp only [byteSteps, List.forall_mem_append]
  exact ⟨isCe_nibSteps p rs _, isCe_nibSteps p rs _, by simp [Micro.isCe]⟩

theorem ce_notMem_nibSteps (op : CeOp) (p : Params) (rs : Bool) (n : Nibble) : .ce op ∉ nibSteps p rs n :=
  fun h => by cases isCe_nibSteps p rs n _ h

theorem ce_notMem_byteSteps (op : CeOp) (p : Params) (rs : Bool) (b : Byte) : .ce op ∉ byteSteps p rs b :=
  fun h => by cases isCe_byteSteps p rs b _ h

/-- A written bit stands in its own operation's list only. -/
theorem owner_of_mem_stepsOf {p : Params} {i : Instr} {op : CeOp} (h : .ce op ∈ stepsOf p i) : i = op.owner := by
  have hbyte (rs : Bool) (b : Byte) : .ce op ∉ byteSteps p rs b ++ [.done] := by simp [ce_notMem_byteSteps]
  cases i with
  | tstart =>
    obtain rfl : op = .tickOn := by simpa [stepsOf, tstartSteps] using h
    rfl
  | cfgent t =>
    obtain rfl : op = .enter t := by simpa [stepsOf, cfgentSteps] using h
    rfl
  | linit =>
    obtain rfl : op = .inited := by
      simpa [stepsOf, linitSteps, ce_notMem_nibSteps, ce_notMem_byteSteps] using h
    rfl
  | poll => simp [stepsOf, pollSteps] at h
  | wcmd | wdat | lclr | goto1 | goto2 => exact absurd h (hbyte _ _)
  | wtime => simp [stepsOf, wtimeSteps, ce_notMem_byteSteps] at h

/-- Every micro-step at a position of a word belongs to the instruction of that word. -/
theorem exists_instr_of_stepsAt {p : Params} {w : Word} {k : Nat} {m : Micro} (h : (stepsAt p w)[k]? = some m) :
    ∃ i, decode w = .instr i ∧ (stepsOf p i)[k]? = some m := by
  unfold stepsAt at h
  cases hd : decode w with
  | instr i => rw [hd] at h; exact ⟨i, rfl, h⟩
  | reserved why => simp [hd] at h

theorem decode_of_ce {p : Params} {w : Word} {k : Nat} {op : CeOp} (h : (stepsAt p w)[k]? = some (.ce op)) :
    decode w = .instr op.owner := by
  obtain ⟨i, hd, hm⟩ := exists_instr_of_stepsAt h
  rw [hd, owner_of_mem_stepsOf (List.mem_of_getElem? hm)]

/-- TSTART, CFGENT and POLL have no micro-step that moves a pin. -/
theorem drivesPins_quiet {p : Params} {i : Instr} (hi : i = .tstart ∨ (∃ t, i = .cfgent t) ∨ i = .poll) :
    ∀ m ∈ stepsOf p i, m.drivesPins = false := by
  obtain rfl | ⟨t, rfl⟩ | rfl := hi
  · simp [stepsOf, tstartSteps, Micro.drivesPins]
  · simp [stepsOf, cfgentSteps, Micro.drivesPins]
  · simp [stepsOf, pollSteps, Micro.drivesPins]

/-! ## What an onward micro-step leaves alone -/

@[simp] theorem effect_ct (m : Micro) (r : Regs) : (m.effect r).ct = r.ct := by
  cases m with
  | ce op => cases op <;> rfl
  | _ => rfl

@[simp] theorem effect_alarm (m : Micro) (r : Regs) : (m.effect r).alarm = r.alarm := by
  cases m with
  | ce op => cases op <;> rfl
  | _ => rfl

@[simp] theorem effect_tickCnt (m : Micro) (r : Regs) : (m.effect r).tickCnt = r.tickCnt := by
  cases m with
  | ce op => cases op <;> rfl
  | _ => rfl

@[simp] theorem effect_inState (m : Micro) (r : Regs) : (m.effect r).inState = r.inState := by
  cases m with
  | ce op => cases op <;> rfl
  | _ => rfl

/-- `tick_en` is written by TSTART's micro-step alone, which sets it. -/
theorem effect_tickEn (m : Micro) (r : Regs) :
    (m.effect r).tickEn = r.tickEn ∨ (m = .ce .tickOn ∧ (m.effect r).tickEn = true) := by
  cases m with
  | ce op =>
    cases op with
    | tickOn => exact .inr ⟨rfl, rfl⟩
    | enter | inited => exact .inl rfl
  | _ => exact .inl rfl

/-- `dd_inited` is written by LINIT's last micro-step alone, which sets it. -/
theorem effect_ddInited (m : Micro) (r : Regs) :
    (m.effect r).ddInited = r.ddInited ∨ (m = .ce .inited ∧ (m.effect r).ddInited = true) := by
  cases m with
  | ce op =>
    cases op with
    | inited => exact .inr ⟨rfl, rfl⟩
    | enter | tickOn => exact .inl rfl
  | _ => exact .inl rfl

/-- `cfg_state` is written, before a delivery, by CFGENT's micro-step alone. -/
theorem effect_cfgState (m : Micro) (r : Regs) :
    (m.effect r).cfgState = r.cfgState ∨ ∃ t, m = .ce (.enter t) ∧ m.effect r = r.enterWizard t := by
  cases m with
  | ce op =>
    cases op with
    | enter t => exact .inr ⟨t, rfl, rfl⟩
    | inited | tickOn => exact .inl rfl
  | _ => exact .inl rfl

theorem effect_wire {m : Micro} (h : m.drivesPins = false) (r : Regs) : (m.effect r).wire = r.wire := by
  cases m with
  | pins | e => cases h
  | ce op => cases op <;> rfl
  | _ => rfl

/-! ## The registers after an edge -/

/-- What an edge without reset can make of the registers that the tick agent leaves. -/
inductive EdgeRegs (s : State) : Regs → Prop
  /-- the foreground only moves to a position -/
  | moves (x : Fg) (st : InState) : EdgeRegs s { s.ticked.regs with fg := x, inState := st }
  /-- an onward micro-step -/
  | onward (w : Word) (k : Nat) (m : Micro) (hf : s.regs.fg = .busy w k)
      (hm : (stepsAt s.params w)[k]? = some m) :
      EdgeRegs s { m.effect s.ticked.regs with fg := .busy w (k + 1) }
  /-- POLL delivers a press, and completes -/
  | press (b : Button) (hmicro : s.currentMicro = some .deliverPress) (hdone : s.opDone = true) :
      EdgeRegs s (s.ticked.regs.deliver (eventOf b))
  /-- POLL delivers NONE -/
  | none : EdgeRegs s (s.ticked.regs.deliver .none)

theorem EdgeRegs.repositions (s : State) (x : Fg) : EdgeRegs s { s.ticked.regs with fg := x } :=
  .moves x s.ticked.regs.inState

theorem clockEdge_regs {s : State} (hr : (nextInput s).rst = false) : EdgeRegs s (clockEdge s).regs := by
  have h := clockEdge_acts hr
  generalize clockEdge s = t at h ⊢
  cases h with
  | accepts | refuses => exact .repositions s _
  | waits => exact .repositions s s.ticked.regs.fg
  | micro w k m hf hm hgo =>
    have hacts := microStep_acts m w k (nextInput s) s.ticked
    generalize microStep m w k (nextInput s) s.ticked = t at hacts ⊢
    cases hacts with
    | onward => exact .onward w k m hf hm
    | moves x st => exact .moves x st
    | done => exact .repositions s .idle
    | none => exact .none
    | press b hst =>
      have hready : microReady .deliverPress s.regs.inState = true := by
        rw [show s.regs.inState = .hold b by simpa using hst]; rfl
      refine .press b ?_ ((opDone_micro hr hgo hf hm).mpr ⟨rfl, hready⟩)
      rw [currentMicro_busy hf hm, if_pos hready]

/-! ## The times (R37, R218, R249) -/

/-- A delivery writes the times as the table does. -/
theorem deliver_ct (e : InputEvent) (r : Regs) : (r.deliver e).ct = (r.configure e).ct := by rw [deliver_eq]
theorem deliver_alarm (e : InputEvent) (r : Regs) : (r.deliver e).alarm = (r.configure e).alarm := by rw [deliver_eq]

/-- An operation of the wizard works on its target's record, and never on the second. -/
theorem wizardOp_frame {t : Target} {r q : Regs} (h : q = r.inch t ∨ q = r.incm t ∨ q = r.togm t) :
    (q.ct ≠ r.ct → t = .clock) ∧ (q.alarm ≠ r.alarm → t = .alarm) ∧ q.ct.second = r.ct.second := by
  obtain rfl | rfl | rfl := h <;> cases t
  all_goals exact ⟨by simp [Regs.inch, Regs.incm, Regs.togm, Regs.setHourOf, Regs.setMinuteOf, Regs.setMerOf],
    by simp [Regs.inch, Regs.incm, Regs.togm, Regs.setHourOf, Regs.setMinuteOf, Regs.setMerOf], rfl⟩

/-- The table changes a time only by an INCREMENT inside a wizard on it, and never the second. -/
theorem configure_times (e : InputEvent) (r : Regs) :
    ((r.configure e).ct ≠ r.ct → r.cfgTarget = .clock ∧ r.cfgState ≠ .idle ∧ e = .increment) ∧
    ((r.configure e).alarm ≠ r.alarm → r.cfgTarget = .alarm ∧ r.cfgState ≠ .idle ∧ e = .increment) ∧
    (r.configure e).ct.second = r.ct.second := by
  obtain ⟨-, h⟩ | ⟨he, hph, h⟩ | ⟨-, -, h⟩ := configure_cases e r
  · simp [h]
  · obtain ⟨hclock, halarm, hsec⟩ := wizardOp_frame h
    exact ⟨fun hne => ⟨hclock hne, hph, he⟩, fun hne => ⟨halarm hne, hph, he⟩, hsec⟩
  · simp [h]

theorem deliver_ev (e : InputEvent) (r : Regs) : (r.deliver e).ev = e := by rw [deliver_eq]

theorem deliver_tickCnt (e : InputEvent) (r : Regs) : (r.deliver e).tickCnt = r.tickCnt := by
  rw [deliver_eq, configure_eq]

/-- What an edge without reset writes in the times beyond the tick agent's part. -/
theorem EdgeRegs.times {s : State} {q : Regs} (h : EdgeRegs s q) :
    (q.ct ≠ s.ticked.regs.ct → s.regs.cfgTarget = .clock ∧ s.regs.cfgState ≠ .idle ∧
      s.currentMicro = some .deliverPress ∧ s.opDone = true ∧ q.ev = .increment) ∧
    (q.alarm ≠ s.regs.alarm → s.regs.cfgTarget = .alarm ∧ s.regs.cfgState ≠ .idle ∧
      s.currentMicro = some .deliverPress ∧ s.opDone = true ∧ q.ev = .increment) ∧
    q.ct.second = s.ticked.regs.ct.second ∧ q.tickCnt = s.ticked.regs.tickCnt := by
  cases h with
  | moves => simp
  | onward => simp
  | none => simp [deliver_ct, deliver_alarm, deliver_tickCnt]
  | press b hmicro hdone =>
    obtain ⟨hct, halarm, hsec⟩ := configure_times (eventOf b) s.ticked.regs
    rw [deliver_ct, deliver_alarm, deliver_ev, deliver_tickCnt]
    simp only [ticked_regs, pulses_cfgTarget, pulses_cfgState, pulses_alarm, and_true] at hct halarm hsec ⊢
    refine ⟨fun hne => ?_, fun hne => ?_, hsec⟩
    · obtain ⟨htarget, hph, hev⟩ := hct hne
      exact ⟨htarget, hph, hmicro, hdone, hev⟩
    · obtain ⟨htarget, hph, hev⟩ := halarm hne
      exact ⟨htarget, hph, hmicro, hdone, hev⟩

/-- Settles O42: `EdgeRegs.times`, and the tick agent writes nothing at an edge without a pulse. -/
theorem timesAreWrittenOnlyByTheirOwners : Obligations.TimesAreWrittenOnlyByTheirOwners := by
  unfold Obligations.TimesAreWrittenOnlyByTheirOwners
  intro s hr
  obtain ⟨hct, halarm, hsec, hcnt⟩ := (clockEdge_regs hr).times
  have hquiet (ht : (nextInput s).tick = false) : s.ticked.regs = s.regs := by
    rw [ticked_regs, ticksIn_noPulse ht, pulses_zero]
  refine ⟨halarm, fun ht => ?_, fun ht => ?_⟩
  · rw [hquiet ht] at hct; exact hct
  · rw [hquiet ht] at hsec hcnt; exact ⟨hsec, hcnt⟩

/-! ## The enable bits (R29, R30) -/

theorem deliver_enableBits (e : InputEvent) (r : Regs) :
    (r.deliver e).tickEn = r.tickEn ∧ (r.deliver e).ddInited = r.ddInited := by
  rw [deliver_eq, configure_eq]; exact ⟨rfl, rfl⟩

/-- The word in progress is the one operation that has a given bit to write. -/
theorem fg_of_ce {s : State} {w : Word} {k : Nat} {op : CeOp} (hf : s.regs.fg = .busy w k)
    (hm : (stepsAt s.params w)[k]? = some (.ce op)) : ∃ k, s.regs.fg = .busy (encode op.owner) k :=
  ⟨k, by rw [hf, encode_of_decode (decode_of_ce hm)]⟩

/-- An edge without reset leaves `tick_en`, or TSTART sets it; and the same of `dd_inited` and LINIT. -/
theorem EdgeRegs.enableBits {s : State} {q : Regs} (h : EdgeRegs s q) :
    (q.tickEn = s.regs.tickEn ∨ (q.tickEn = true ∧ ∃ k, s.regs.fg = .busy (encode .tstart) k)) ∧
    (q.ddInited = s.regs.ddInited ∨ (q.ddInited = true ∧ ∃ k, s.regs.fg = .busy (encode .linit) k)) := by
  cases h with
  | moves => simp
  | none | press =>
    obtain ⟨htick, hdd⟩ := deliver_enableBits _ s.ticked.regs
    rw [htick, hdd, ticked_regs, pulses_tickEn, pulses_ddInited]
    exact ⟨.inl rfl, .inl rfl⟩
  | onward w k m hf hm =>
    constructor
    · obtain h | ⟨rfl, h⟩ := effect_tickEn m s.ticked.regs
      · exact .inl (by simpa using h)
      · exact .inr ⟨h, fg_of_ce hf hm⟩
    · obtain h | ⟨rfl, h⟩ := effect_ddInited m s.ticked.regs
      · exact .inl (by simpa using h)
      · exact .inr ⟨h, fg_of_ce hf hm⟩

/-- Settles O43: by the two cases for each bit. -/
theorem enableBitsAreSetOnlyByTheirOperations : Obligations.EnableBitsAreSetOnlyByTheirOperations := by
  unfold Obligations.EnableBitsAreSetOnlyByTheirOperations
  intro s hr
  obtain ⟨htick, hdd⟩ := (clockEdge_regs hr).enableBits
  refine ⟨fun h => ?_, fun h h' => ?_, fun h => ?_, fun h h' => ?_⟩
  · obtain e | ⟨e, -⟩ := htick
    · rw [e, h]
    · exact e
  · obtain e | ⟨-, hfg⟩ := htick
    · simp [e, h] at h'
    · exact hfg
  · obtain e | ⟨e, -⟩ := hdd
    · rw [e, h]
    · exact e
  · obtain e | ⟨-, hfg⟩ := hdd
    · simp [e, h] at h'
    · exact hfg

/-! ## The pins (R120) -/

theorem deliver_wire (e : InputEvent) (r : Regs) : (r.deliver e).wire = r.wire := by
  rw [deliver_eq, configure_eq]; rfl

@[simp] theorem ticked_wire (s : State) : s.ticked.regs.wire = s.regs.wire := by
  simp [Regs.wire]

theorem transactions_append {s t : State} {recs : List PinRec} (h : t.trace = s.trace ++ recs) :
    t.transactions = s.transactions ++ transactionsFrom (Wire.low.afterAll s.trace) recs := by
  rw [State.transactions, h, transactionsFrom_append]; rfl

theorem transactions_eq_of_trace {s t : State} (h : t.trace = s.trace) : t.transactions = s.transactions := by
  rw [State.transactions, h]; rfl

/-- A micro-step that drives no pin records a wait or nothing. -/
theorem transactionsFrom_records {m : Micro} (h : m.drivesPins = false) (p : Params) (x : Wire) :
    transactionsFrom x (m.records p) = [] := by
  cases m with
  | pins | e => cases h
  | wait | debounce => rw [Micro.records, transactionsFrom_wait, transactionsFrom_nil]
  | _ => rfl

/-- A micro-step that drives no pin leaves the pins and sends nothing. -/
theorem MicroActs.quiet {w : Word} {k : Nat} {s t : State} {m : Micro} (h : MicroActs w k s m t)
    (hm : m.drivesPins = false) : t.regs.wire = s.regs.wire ∧ t.transactions = s.transactions := by
  cases h with
  | onward =>
    refine ⟨effect_wire hm s.regs, ?_⟩
    rw [transactions_append (recs := m.records s.params) rfl, transactionsFrom_records hm, List.append_nil]
  | moves x st recs _ hrecs =>
    refine ⟨rfl, ?_⟩
    rw [transactions_append (recs := recs) rfl]
    obtain rfl | rfl := hrecs
    · rw [transactionsFrom_nil, List.append_nil]
    · rw [transactionsFrom_wait, transactionsFrom_nil, List.append_nil]
  | press b => exact ⟨deliver_wire _ _, rfl⟩
  | none => exact ⟨deliver_wire _ _, rfl⟩
  | done => exact ⟨rfl, rfl⟩

/-- Settles O44: at such an edge there is no micro-step, or one that drives no pin. -/
theorem pinsBelongToDisplayOperations : Obligations.PinsBelongToDisplayOperations := by
  unfold Obligations.PinsBelongToDisplayOperations
  intro s hr hquiet
  have h := clockEdge_acts hr
  generalize clockEdge s = t at h ⊢
  have hticked : s.ticked.transactions = s.transactions := transactions_eq_of_trace (ticked_trace s)
  cases h with
  | accepts | waits | refuses => exact ⟨ticked_wire s, hticked⟩
  | micro w k m hf hm hgo =>
    obtain ⟨i, hd, hmi⟩ := exists_instr_of_stepsAt hm
    have hpins : m.drivesPins = false := drivesPins_quiet (hquiet w k i hf hd) m (List.mem_of_getElem? hmi)
    obtain ⟨hwire, hsent⟩ := (microStep_acts m w k (nextInput s) s.ticked).quiet hpins
    exact ⟨hwire.trans (ticked_wire s), hsent.trans hticked⟩

end Sys2Proof.Machine
end

section
/-! PROOFS. The operations that run straight through their micro-steps (41_clock_engine.md R165, 42_input_config.md
R210, 40_display.md R125 to R130). -/

namespace Sys2Proof.Machine

theorem stepsAt_encode (p : Params) (i : Instr) : stepsAt p (encode i) = stepsOf p i := by
  rw [stepsAt, decode_encode]

@[simp] theorem effect_fg (m : Micro) (r : Regs) : (m.effect r).fg = r.fg := by
  cases m with
  | ce op => cases op <;> rfl
  | _ => rfl

theorem effectOf_fg (L : List Micro) (r : Regs) : (effectOf L r).fg = r.fg := by
  induction L generalizing r with
  | nil => rfl
  | cons m L ih => exact (ih (m.effect r)).trans (effect_fg m r)

/-- An operation that is not refused, whose list is plain micro-steps and `done`, completes with what these write,
record and send. -/
theorem exec_plain {s : State} {i : Instr} {L : List Micro} (hL : ∀ m ∈ L, m.plain = true)
    (hst : stepsOf s.params i = L ++ [.done]) (hi : refusalOf i s.regs = none) (hg : s.givesSteps (L.length + 1))
    {nts : List NT} (hnts : ∀ x, transactionsFrom x (recordsOf s.params L) = nts) :
    ∃ t, exec i s = .next t ∧ s.completed t i (L.length + 1) (effectOf L) (recordsOf s.params L) nts := by
  obtain ⟨t, used, ht, hgo, hran⟩ := present_plain (encode i) L hL ((stepsAt_encode s.params i).trans hst) hg
  refine ⟨t, by rw [exec_present, hi, ht], used, hgo, ?_⟩
  rw [hnts, setFg_self (by rw [effectOf_fg, pulses_fg]; exact hg.1)] at hran
  exact hran

/-- Settles O29: CFGENT is one write and `done`. -/
theorem cfgentEntersTheHourPhase : Obligations.CfgentEntersTheHourPhase := by
  unfold Obligations.CfgentEntersTheHourPhase
  intro s target hg hcfg
  exact exec_plain (L := [.ce (.enter target)]) (by simp [Micro.plain]) rfl (by simp [refusalOf, wizardRefusal, hcfg])
    hg (fun _ => rfl)

/-! ## One byte -/

/-- An operation that sends one byte and is not refused. -/
theorem exec_oneByte {s : State} {i : Instr} (rs : Bool) (b : Byte)
    (hst : stepsOf s.params i = byteSteps s.params rs b ++ [.done]) (hi : refusalOf i s.regs = none)
    (hg : s.givesSteps (oneByteSize s.params)) :
    ∃ t, exec i s = .next t ∧ s.completed t i (oneByteSize s.params) (pinsLeft rs (loNibble b))
      (byteRecs s.params rs b) [nibNT rs (hiNibble b), nibNT rs (loNibble b)] := by
  have hlen : (byteSteps s.params rs b).length + 1 = oneByteSize s.params := by rw [length_byteSteps]; rfl
  have heffect : effectOf (byteSteps s.params rs b) = pinsLeft rs (loNibble b) :=
    funext (effectOf_byteSteps s.params rs b)
  have h := exec_plain (byteSteps_plain s.params rs b) hst hi (by rwa [hlen])
    (fun x => by rw [recordsOf_byteSteps, transactionsFrom_byteRecs])
  rwa [hlen, heffect, recordsOf_byteSteps] at h

/-- Settles O33: five operations of one byte each. -/
theorem oneByteOperationsSendTheirByte : Obligations.OneByteOperationsSendTheirByte := by
  unfold Obligations.OneByteOperationsSendTheirByte
  intro s b hg hdd
  have hi : displayRefusal s.regs = none := by simp [displayRefusal, hdd]
  exact ⟨exec_oneByte false b rfl hi hg, exec_oneByte true b rfl hi hg,
    exec_oneByte (i := .lclr) false Config.cmdClear rfl hi hg,
    exec_oneByte (i := .goto1) false s.params.cmdLine1 rfl hi hg,
    exec_oneByte (i := .goto2) false s.params.cmdLine2 rfl hi hg⟩

/-! ## LINIT and WTIME -/

/-- Settles O34: LINIT's plain micro-steps are `linitPlain`. -/
theorem linitSendsTheResetSequence : Obligations.LinitSendsTheResetSequence := by
  unfold Obligations.LinitSendsTheResetSequence
  intro s hg hdd
  have hlen : (linitPlain s.params).length + 1 = linitSize s.params := by
    rw [← length_linitSteps, linitSteps_eq, List.length_append]; rfl
  have heffect := funext (effectOf_linitPlain s.params)
  have h := exec_plain (i := .linit) (linitPlain_plain s.params) (linitSteps_eq s.params)
    (by simp [refusalOf, initRefusal, hdd]) (by rwa [hlen])
    (fun x => by rw [recordsOf_linitPlain, transactionsFrom_linitRecs])
  rwa [hlen, heffect, recordsOf_linitPlain] at h

/-- The last of WTIME's eight characters is the low digit of the second. -/
theorem timeText_last (h m c : Byte) : ∃ l, timeText h m c = l ++ [asciiDigit (loNibble c)] :=
  ⟨(timeText h m c).dropLast, rfl⟩

/-- Settles O35: WTIME's plain micro-steps are the bytes of `timeText`, which is the text written out. -/
theorem wtimeSendsTheText : Obligations.WtimeSendsTheText := by
  unfold Obligations.WtimeSendsTheText
  intro s h m c hg hdd
  have hlen : ((timeText h m c).flatMap (byteSteps s.params true)).length + 1 = wtimeSize s.params := by
    rw [length_flatMap_byteSteps]; rfl
  have heffect : effectOf ((timeText h m c).flatMap (byteSteps s.params true)) =
      pinsLeft true (loNibble (asciiDigit (loNibble c))) := by
    obtain ⟨l, e⟩ := timeText_last h m c
    rw [e]
    exact funext (effectOf_flatMap_byteSteps s.params true l _)
  have hrun := exec_plain (i := .wtime h m c) (flatMap_byteSteps_plain s.params true (timeText h m c)) rfl
    (by simp [refusalOf, displayRefusal, hdd]) (by rwa [hlen])
    (fun x => by rw [recordsOf_flatMap_byteSteps, transactionsFrom_flatMap_byteRecs])
  rw [hlen, heffect, recordsOf_flatMap_byteSteps] at hrun
  exact hrun

/-! ## The first micro-step of a run -/

/-- An operation presented to an idle core and not refused runs on the edges after its acceptance. -/
theorem exec_accepted {s : State} {i : Instr} (hi : refusalOf i s.regs = none) (hf : s.regs.fg = .idle) {a : EdgeIn}
    {l : List EdgeIn} (hl : s.inputs = a :: l) (ha : a.rst = false) :
    exec i s = .next (settleOn l ((s.stalled [a]).accept (encode i) none)) := by
  have hn := nextInput_cons hl
  rw [exec_present, hi, present, if_pos hf, acceptEdge_noRst _ _ (by rw [hn, ha]), hn, consume_tickPart hl, settle,
    accept_inputs, stalled_inputs, hl]
  rfl

/-- A busy core takes its micro-step at the first edge that lets it, and goes on from there. -/
theorem settleOn_takes {s : State} {l : List EdgeIn} {w : Word} {k : Nat} {m : Micro} (hl : s.inputs = l)
    (hf : s.regs.fg = .busy w k) (hm : (stepsAt s.params w)[k]? = some m) (hrst : ∀ y ∈ l, y.rst = false)
    (hc : 1 ≤ l.countP (fun y => y.fgGo)) :
    ∃ stall x rest, l = stall ++ x :: rest ∧ (∀ y ∈ stall, y.fgGo = false) ∧ x.fgGo = true ∧
      l.countP (fun y => y.fgGo) = rest.countP (fun y => y.fgGo) + 1 ∧
      settleOn l s = settleOn rest (microStep m w k x (s.stalled (stall ++ [x]))) := by
  obtain ⟨stall, x, rest, rfl, hstall, hx⟩ := split_at_go l hc
  have hstall0 : stall.countP (fun y => y.fgGo) = 0 := by
    rw [List.countP_eq_zero]; intro y hy; simp [hstall y hy]
  refine ⟨stall, x, rest, rfl, hstall, hx, by simp [List.countP_append, hstall0, hx], ?_⟩
  rw [settleOn_go stall x rest s hl (fun y hy => hrst y (by simp at hy ⊢; tauto)) hstall (by simp [hf]),
    foreground_busy hx (w := w) (k := k) (m := m) (by simpa using hf) (by simpa using hm)]

/-! ## TSTART -/

/-- Pulses before and after `tick_en` is set, with the positions taken up between them and left at the end. -/
theorem pulses_tickOn (p : Params) (m n j : Nat) {r : Regs} (x y : Fg) (hf : r.fg = .idle) :
    { ({ ({ r.pulses p m with fg := x } : Regs).pulses p n with tickEn := true, fg := y } : Regs).pulses p j with
        fg := .idle } = ({ r.pulses p (m + n) with tickEn := true } : Regs).pulses p j := by
  have hset : ({ ({ r.pulses p m with fg := x } : Regs).pulses p n with tickEn := true, fg := y } : Regs) =
      { ({ r.pulses p (m + n) with tickEn := true } : Regs) with fg := y } := by
    rw [pulses_setFg, ← pulses_add]
  rw [hset, pulses_setFg]
  exact setFg_self (r := Regs.pulses p j { r.pulses p (m + n) with tickEn := true })
    (by rw [pulses_fg, pulses_fg, hf])

/-- Settles O28: TSTART's write changes how later pulses act, so its run is cut there; the rest is a bare `done`. -/
theorem tstartStartsTheTick : Obligations.TstartStartsTheTick := by
  unfold Obligations.TstartStartsTheTick
  intro s hg
  obtain ⟨a, l, hl, -, ha, hrst, hc⟩ := givesSteps_cons hg
  have hrun := exec_accepted (i := .tstart) rfl hg.1 hl ha
  obtain ⟨stall, x, rest, rfl, hstall, hx, hcount, hfirst⟩ :=
    settleOn_takes (s := (s.stalled [a]).accept (encode .tstart) none) (w := encode .tstart) (k := 0)
      (m := .ce .tickOn) (by simp [hl]) rfl (by rw [stepsAt_encode_tstart]; rfl) hrst (by omega)
  obtain ⟨used, rest', rfl, hgo, hsecond⟩ := settleOn_plain [] (by simp) (encode .tstart) 1 rest
    (microStep (.ce .tickOn) (encode .tstart) 0 x
      (((s.stalled [a]).accept (encode .tstart) none).stalled (stall ++ [x])))
    (by simp [hl]) rfl (by rw [stepsAt_encode_tstart]; rfl) (fun y hy => hrst y (by simp at hy ⊢; tauto))
    (by simp only [List.length_nil]; omega)
  rw [hrun, hfirst, hsecond]
  refine ⟨_, a :: (stall ++ [x]), used, rfl, ?_, by simp [hx], hgo, ?_⟩
  · rw [List.tail_cons, goEdges_split [] hstall hx]; rfl
  · have hregs := pulses_tickOn s.params (ticksIn [a]) (ticksIn (stall ++ [x])) (ticksIn used)
      (.busy (encode .tstart) 0) (.busy (encode .tstart) 1) hg.1
    rw [← ticksIn_append] at hregs
    exact ⟨by simp [hl], by simp; omega, rfl, hregs, by simp [microStep, recordsOf],
      by simp [State.transactions, microStep, recordsOf], rfl⟩

end Sys2Proof.Machine
end

section
/-! PROOFS. The invariant (10_state.md R31, R34 to R36, 40_display.md R120 to R122): what it says of the data and of
the foreground's position, and what each act of an edge makes of both. -/

namespace Sys2Proof.Machine

/-! ## The invariant in two parts -/

/-- The part of the invariant about times, counter, pins and their record. -/
structure DataSound (p : Params) (r : Regs) (tr : List PinRec) : Prop where
  clock : r.ct.valid = true
  alarm : r.alarm.valid = true
  count : r.tickCnt < p.tickDiv
  stopped : r.tickEn = false → r.tickCnt = 0 ∧ r.ct.second = 0x00#8
  writes : r.lcdRw = false
  pins : r.wire = Wire.low.afterAll tr

/-- The part of the invariant about the foreground's position. -/
structure State.PositionSound (s : State) : Prop where
  strobe : s.regs.lcdE = s.strobeDue
  position : s.lost = false
  input : s.inputFits = true
  contract : s.contractMet = true

theorem sound_iff (s : State) :
    s.Sound ↔ s.params.valid = true ∧ DataSound s.params s.regs s.trace ∧ s.PositionSound :=
  ⟨fun h => ⟨h.params, ⟨h.clock, h.alarm, h.count, h.stopped, h.writes, h.pins⟩,
    ⟨h.strobe, h.position, h.input, h.contract⟩⟩,
   fun ⟨hp, hd, hs⟩ => ⟨hp, hd.clock, hd.alarm, hd.count, hd.stopped, hd.writes, hs.strobe, hs.position, hs.input,
    hs.contract, hd.pins⟩⟩

/-! ## The position, by its form -/

theorem positionSound_idle {s : State} (hf : s.regs.fg = .idle) :
    s.PositionSound ↔ s.regs.lcdE = false ∧ s.regs.inState = .idle := by
  constructor
  · rintro ⟨he, -, hi, -⟩
    exact ⟨by simpa [State.strobeDue, hf] using he, by simpa [State.inputFits, hf] using hi⟩
  · rintro ⟨he, hi⟩
    constructor <;> simp [State.strobeDue, State.lost, State.inputFits, State.contractMet, hf, he, hi]

theorem positionSound_refusing {s : State} {w : Word} {why : RefuseReason} (hf : s.regs.fg = .refusing w why) :
    s.PositionSound ↔ s.regs.lcdE = false ∧ s.regs.inState = .idle ∧ wordRefusal w s.regs = some why := by
  constructor
  · rintro ⟨he, -, hi, hc⟩
    exact ⟨by simpa [State.strobeDue, hf] using he, by simpa [State.inputFits, hf] using hi,
      by simpa [State.contractMet, hf] using hc⟩
  · rintro ⟨he, hi, hc⟩
    constructor <;> simp [State.strobeDue, State.lost, State.inputFits, State.contractMet, hf, he, hi, hc]

/-- POLL never moves the strobe. -/
theorem strobeAfter_pollSteps (k : Nat) : strobeAfter (pollSteps.take k) = false := by
  match k with
  | 0 | 1 | 2 | 3 | 4 | 5 => rfl
  | k + 6 => rw [List.take_of_length_le (by simp [pollSteps])]; rfl

/-- The positions of POLL that R208 has, each with its debounce position. -/
theorem pollFits_cases {k : Nat} {st : InState} (h : pollFits k st = true) :
    (k = 0 ∧ st = .idle) ∨ (∃ b, k = 1 ∧ st = .settle b) ∨ (∃ b, k = 2 ∧ st = .resample b) ∨
    (∃ b, k = 3 ∧ st = .hold b) ∨ (∃ b, k = 4 ∧ st = .hold b) ∨ k = 5 := by
  unfold pollFits at h
  split at h <;> simp_all

/-- Where the debounce position fits POLL's number `k`, the list has a micro-step that can be taken. -/
theorem exists_ready_of_pollFits {k : Nat} {st : InState} (h : pollFits k st = true) :
    ∃ m, pollSteps[k]? = some m ∧ microReady m st = true := by
  obtain ⟨rfl, rfl⟩ | ⟨b, rfl, rfl⟩ | ⟨b, rfl, rfl⟩ | ⟨b, rfl, rfl⟩ | ⟨b, rfl, rfl⟩ | rfl := pollFits_cases h <;>
    exact ⟨_, rfl, rfl⟩

theorem positionSound_poll {s : State} {k : Nat} (hf : s.regs.fg = .busy (encode .poll) k) :
    s.PositionSound ↔ s.regs.lcdE = false ∧ pollFits k s.regs.inState = true := by
  have hsteps : stepsAt s.params (encode .poll) = pollSteps := stepsAt_encode s.params .poll
  constructor
  · rintro ⟨he, -, hi, -⟩
    exact ⟨by simpa [State.strobeDue, hf, hsteps, strobeAfter_pollSteps] using he,
      by simpa [State.inputFits, hf, decode_encode] using hi⟩
  · rintro ⟨he, hi⟩
    obtain ⟨m, hm, hready⟩ := exists_ready_of_pollFits hi
    exact ⟨by simp [State.strobeDue, hf, hsteps, strobeAfter_pollSteps, he],
      by simp [State.lost, hf, hsteps, hm, hready],
      by simpa [State.inputFits, hf, decode_encode] using hi,
      by simp [State.contractMet, hf, wordRefusal_encode, refusalOf]⟩

/-- Whether the operation at `fg = FG_BUSY(w, k)` meets its contract: it has written its own bit, or is not refused. -/
def contractAt (p : Params) (w : Word) (k : Nat) (r : Regs) : Prop :=
  ((stepsAt p w).take k).any Micro.isCe = true ∨ wordRefusal w r = none

theorem positionSound_busy {s : State} {w : Word} {k : Nat} (hf : s.regs.fg = .busy w k)
    (hpoll : decode w ≠ .instr .poll) :
    s.PositionSound ↔ s.regs.lcdE = strobeAfter ((stepsAt s.params w).take k) ∧ s.regs.inState = .idle ∧
      (∃ m, (stepsAt s.params w)[k]? = some m ∧ microReady m .idle = true) ∧ contractAt s.params w k s.regs := by
  constructor
  · rintro ⟨he, hl, hi, hc⟩
    have hidle : s.regs.inState = .idle := by simpa [State.inputFits, hf, hpoll] using hi
    refine ⟨by simpa [State.strobeDue, hf] using he, hidle, ?_, by simpa [State.contractMet, hf, contractAt] using hc⟩
    cases hm : (stepsAt s.params w)[k]? with
    | none => simp [State.lost, hf, hm] at hl
    | some m => exact ⟨m, rfl, by simpa [lost_busy hf hm, hidle] using hl⟩
  · rintro ⟨he, hi, ⟨m, hm, hready⟩, hc⟩
    exact ⟨by simpa [State.strobeDue, hf] using he, by simp [lost_busy hf hm, hi, hready],
      by simp [State.inputFits, hf, hpoll, hi], by simpa [State.contractMet, hf, contractAt] using hc⟩

/-! ## Reset -/

theorem reset_dataSound {p : Params} (hp : p.valid = true) (tr : List PinRec) (h : Wire.low = Wire.low.afterAll tr) :
    DataSound p Regs.reset tr := by
  obtain ⟨hdiv, -⟩ := Params.valid_tickDiv hp
  exact ⟨by decide, by decide, hdiv, by decide, rfl, h⟩

theorem resetRegs_sound {s : State} (hp : s.params.valid = true) : s.consume.resetRegs.Sound := by
  refine (sound_iff _).mpr ⟨hp, reset_dataSound hp _ ?_, (positionSound_idle rfl).mpr ⟨rfl, rfl⟩⟩
  rw [resetRegs_trace, afterAll_append]
  rfl

theorem ratio_pos (x : OpenRatio) : 0 < x.pos :=
  Rat.mkRat_pos (by omega) (by omega)

theorem ratio_nonneg (x : OpenRatio) : 0 ≤ x.nonneg :=
  Rat.mkRat_nonneg (by omega) _

/-- Every set made of arbitrary data meets R9's constraints (log 4). -/
theorem ofOpen_valid (o : OpenParams) : (Params.ofOpen o).valid = true := by
  have hlog : o.tickDiv + 1 < 2 ^ (Nat.log2 (o.tickDiv + 1) + 1 + o.tickCntW) :=
    lt_of_lt_of_le Nat.lt_log2_self (Nat.pow_le_pow_right (by omega) (by omega))
  refine decide_eq_true ⟨ratio_pos o.fClk, by simp [Params.ofOpen], hlog, ?_, ?_, ratio_nonneg o.tSu, ratio_pos o.tByte,
    ratio_pos o.tDeb, ?_, ?_, ratio_pos o.tInit3, ratio_pos o.tInit4⟩ <;> simp only [Params.ofOpen]
  · linarith [ratio_nonneg o.tEw]
  · linarith [ratio_nonneg o.tEh]
  · linarith [ratio_pos o.tInit1]
  · linarith [ratio_pos o.tInit2]

/-- Settles O6: the free parameters are valid, the reset values sound with any, and the two times at reset agree. -/
theorem resetIsSound : Obligations.ResetIsSound := by
  unfold Obligations.ResetIsSound
  refine ⟨(sound_iff _).mpr ⟨ofOpen_valid _, reset_dataSound (ofOpen_valid _) _ rfl,
    (positionSound_idle rfl).mpr ⟨rfl, rfl⟩⟩, reset_alarmMatch⟩

/-! ## The tick agent -/

/-- One pulse keeps the times valid and the counter below `TICK_DIV`, and does nothing before TSTART. -/
theorem tickPulse_dataSound {p : Params} {r : Regs} {tr : List PinRec} (hp : p.valid = true) (h : DataSound p r tr) :
    DataSound p (r.tickPulse p) tr := by
  cases hen : r.tickEn with
  | false => rwa [tickPulse_off p hen]
  | true =>
    obtain ⟨hdiv, -⟩ := Params.valid_tickDiv hp
    obtain ⟨hct, halarm, hcnt, -, hrw, hpins⟩ := h
    obtain hlt | heq : r.tickCnt + 1 < p.tickDiv ∨ r.tickCnt + 1 = p.tickDiv := by omega
    · rw [tickPulse_counts hp hen hlt]
      exact ⟨hct, halarm, hlt, fun hoff => by simp [hen] at hoff, hrw, hpins⟩
    · rw [tickPulse_advances hp hen heq]
      exact ⟨advsec_valid hct, halarm, hdiv, fun hoff => by simp [hen] at hoff, hrw, hpins⟩

theorem pulses_dataSound {p : Params} {r : Regs} {tr : List PinRec} (hp : p.valid = true) (h : DataSound p r tr)
    (n : Nat) : DataSound p (r.pulses p n) tr := by
  induction n generalizing r with
  | zero => exact h
  | succ n ih => rw [pulses_succ]; exact ih (tickPulse_dataSound hp h)

/-- The position does not look at the time registers. -/
theorem positionSound_congr {s t : State} (hp : t.params = s.params) (hfg : t.regs.fg = s.regs.fg)
    (hin : t.regs.inState = s.regs.inState) (he : t.regs.lcdE = s.regs.lcdE)
    (hdd : t.regs.ddInited = s.regs.ddInited) (hcfg : t.regs.cfgState = s.regs.cfgState) (h : s.PositionSound) :
    t.PositionSound := by
  obtain ⟨hstrobe, hpos, hinput, hcontract⟩ := h
  refine ⟨?_, ?_, ?_, ?_⟩
  · rw [he, hstrobe, State.strobeDue, State.strobeDue, hfg, hp]
  · rw [State.lost, hfg, hp, hin]; exact hpos
  · rw [State.inputFits, hfg, hin]; exact hinput
  · rw [State.contractMet, hfg, hp]
    simp only [wordRefusal_congr _ hdd hcfg]
    exact hcontract

theorem ticked_sound {s : State} (h : s.Sound) : s.ticked.Sound := by
  obtain ⟨hp, hdata, hpos⟩ := (sound_iff s).mp h
  refine (sound_iff _).mpr ⟨by rwa [ticked_params], ?_, ?_⟩
  · rw [ticked_params, ticked_regs, ticked_trace]
    exact pulses_dataSound hp hdata _
  · exact positionSound_congr (by simp) (by simp) (by simp) (by simp) (by simp) (by simp) hpos

/-! ## Data through the foreground's acts -/

section
variable {p : Params} {r : Regs} {tr : List PinRec} (h : DataSound p r tr)
include h

theorem DataSound.reposition (x : Fg) (st : InState) : DataSound p { r with fg := x, inState := st } tr :=
  ⟨h.clock, h.alarm, h.count, h.stopped, h.writes, h.pins⟩

theorem DataSound.setFg (x : Fg) : DataSound p { r with fg := x } tr := h.reposition x r.inState

theorem DataSound.wait (d : Delay) (n : Rat) : DataSound p r (tr ++ [.wait d n]) :=
  { h with pins := by rw [afterAll_append, ← h.pins]; rfl }

theorem targetValid_of_dataSound (t : Target) : r.targetValid t = true := by
  cases t with
  | clock => exact h.clock
  | alarm => exact h.alarm

/-- The table keeps both times valid (R170). -/
theorem configure_valid (e : InputEvent) : (r.configure e).ct.valid = true ∧ (r.configure e).alarm.valid = true := by
  obtain ⟨-, he⟩ | ⟨-, -, he⟩ | ⟨-, -, he⟩ := configure_cases e r
  · rw [he]; exact ⟨h.clock, h.alarm⟩
  · have htarget : (r.configure e).targetValid r.cfgTarget = true := by
      obtain ⟨-, hwizard⟩ := validTimesStayValid
      obtain ⟨hinch, hincm, htogm⟩ := hwizard r r.cfgTarget (targetValid_of_dataSound h _)
      obtain he | he | he := he <;> rw [he] <;> assumption
    obtain ⟨hct, halarm, -⟩ := wizardOp_frame he
    cases ht : r.cfgTarget with
    | clock =>
      have hkeep : (r.configure e).alarm = r.alarm := by
        by_contra hne; rw [ht] at halarm; cases halarm hne
      rw [ht] at htarget
      exact ⟨htarget, by rw [hkeep]; exact h.alarm⟩
    | alarm =>
      have hkeep : (r.configure e).ct = r.ct := by
        by_contra hne; rw [ht] at hct; cases hct hne
      rw [ht] at htarget
      exact ⟨by rw [hkeep]; exact h.clock, htarget⟩
  · rw [he]; exact ⟨h.clock, h.alarm⟩

theorem DataSound.deliver (e : InputEvent) : DataSound p (r.deliver e) tr := by
  obtain ⟨hct, halarm⟩ := configure_valid h e
  obtain ⟨-, -, hsec⟩ := configure_times e r
  rw [deliver_eq, configure_eq]
  refine ⟨hct, halarm, h.count, fun hoff => ?_, h.writes, h.pins⟩
  obtain ⟨hcnt, hzero⟩ := h.stopped hoff
  exact ⟨hcnt, hsec.trans hzero⟩

/-- An onward micro-step writes no time, and its records say what it does to the pins. -/
theorem DataSound.effect {m : Micro} (hm : m.onward = true) : DataSound p (m.effect r) (tr ++ m.records p) := by
  have hstopped : (m.effect r).tickEn = false → r.tickCnt = 0 ∧ r.ct.second = 0x00#8 := by
    intro hoff
    obtain he | ⟨-, he⟩ := effect_tickEn m r
    · exact h.stopped (he.symm.trans hoff)
    · rw [he] at hoff; cases hoff
  have hwire : (m.effect r).wire = r.wire.afterAll (m.records p) := by
    cases m with
    | ce op => cases op <;> rfl
    | pins | e | wait => rfl
    | _ => cases hm
  refine ⟨by rw [effect_ct]; exact h.clock, by rw [effect_alarm]; exact h.alarm, by rw [effect_tickCnt]; exact h.count,
    by rw [effect_ct, effect_tickCnt]; exact hstopped, ?_, by rw [hwire, h.pins, afterAll_append]⟩
  cases m with
  | pins rs rw d =>
    obtain rfl : rw = false := by simpa [Micro.onward] using hm
    rfl
  | ce op => cases op <;> exact h.writes
  | e | wait => exact h.writes
  | _ => cases hm

end

/-! ## Acceptance and completion -/

/-- The first micro-step of every operation can be taken with the debounce machine idle. -/
theorem exists_first_step (p : Params) (i : Instr) : ∃ m, (stepsOf p i)[0]? = some m ∧ microReady m .idle = true := by
  cases i <;> exact ⟨_, rfl, rfl⟩

theorem accept_sound {s : State} (h : s.Sound) (hf : s.regs.fg = .idle) (w : Word) :
    (s.accept w (wordRefusal w s.regs)).Sound := by
  obtain ⟨hp, hdata, hpos⟩ := (sound_iff s).mp h
  obtain ⟨he, hi⟩ := (positionSound_idle hf).mp hpos
  refine (sound_iff _).mpr ⟨hp, hdata.setFg _, ?_⟩
  cases hw : wordRefusal w s.regs with
  | some why =>
    have hf' : (s.accept w (some why)).regs.fg = .refusing w why := rfl
    exact (positionSound_refusing hf').mpr ⟨he, hi, hw⟩
  | none =>
    have hf' : (s.accept w none).regs.fg = .busy w 0 := rfl
    obtain ⟨-, i, rfl, -⟩ | ⟨-, why, hwhy⟩ := wordRefusal_cases w s.regs
    · by_cases hpoll : i = .poll
      · subst hpoll
        exact (positionSound_poll hf').mpr ⟨he, by rw [accept_regs_none, hi]; rfl⟩
      · refine (positionSound_busy hf' (by rw [decode_encode]; simpa using hpoll)).mpr ⟨he, hi, ?_, .inr hw⟩
        rw [stepsAt_encode]
        exact exists_first_step _ i
    · rw [hwhy] at hw; cases hw

/-- An operation that ends with the strobe low and the debounce machine idle leaves a sound idle core. -/
theorem finish_sound {s : State} (h : s.Sound) (he : s.regs.lcdE = false) (hi : s.regs.inState = .idle) (m : Mark) :
    (s.finish m).Sound := by
  obtain ⟨hp, hdata, -⟩ := (sound_iff s).mp h
  exact (sound_iff _).mpr ⟨hp, hdata.setFg _, (positionSound_idle rfl).mpr ⟨he, hi⟩⟩

theorem deliver_lcdE (e : InputEvent) (r : Regs) : (r.deliver e).lcdE = r.lcdE := by rw [deliver_eq, configure_eq]

theorem deliver_sound {s : State} (h : s.Sound) (he : s.regs.lcdE = false) (w : Word) (e : InputEvent) :
    (s.deliver w e).Sound := by
  obtain ⟨hp, hdata, -⟩ := (sound_iff s).mp h
  exact (sound_iff _).mpr ⟨hp, hdata.deliver e, (positionSound_idle rfl).mpr ⟨(deliver_lcdE e s.regs).trans he, rfl⟩⟩

/-! ## The micro-steps of POLL -/

/-- A move to a position of POLL that R208 has. -/
theorem poll_reposition_sound {s : State} (h : s.Sound) (he : s.regs.lcdE = false) {k : Nat} {st : InState}
    (hfits : pollFits k st = true) :
    ((s.setIn st).goTo (encode .poll) k).Sound := by
  obtain ⟨hp, hdata, -⟩ := (sound_iff s).mp h
  exact (sound_iff _).mpr ⟨hp, hdata.reposition _ st, (positionSound_poll rfl).mpr ⟨he, hfits⟩⟩

theorem poll_goTo_sound {s : State} (h : s.Sound) (he : s.regs.lcdE = false) {k : Nat}
    (hfits : pollFits k s.regs.inState = true) : (s.goTo (encode .poll) k).Sound :=
  poll_reposition_sound h he hfits

theorem poll_microStep_sound {s : State} (h : s.Sound) {k : Nat} {m : Micro}
    (hf : s.regs.fg = .busy (encode .poll) k) (hm : pollSteps[k]? = some m) (inp : EdgeIn) :
    (microStep m (encode .poll) k inp s).Sound := by
  obtain ⟨hp, hdata, hpos⟩ := (sound_iff s).mp h
  obtain ⟨he, hfits⟩ := (positionSound_poll hf).mp hpos
  obtain ⟨rfl, hst⟩ | ⟨b, rfl, hst⟩ | ⟨b, rfl, hst⟩ | ⟨b, rfl, hst⟩ | ⟨b, rfl, hst⟩ | rfl := pollFits_cases hfits <;>
    obtain rfl := Option.some.inj hm
  · simp only [microStep, sampleStep]
    split
    · exact poll_reposition_sound h he rfl
    · split
      · exact poll_reposition_sound h he rfl
      · exact poll_goTo_sound h he (by rw [hst]; rfl)
  · simp only [microStep, debounceStep, hst]
    exact (sound_iff _).mpr ⟨hp, (hdata.wait _ _).reposition _ _, (positionSound_poll rfl).mpr ⟨he, rfl⟩⟩
  · simp only [microStep, resampleStep, hst]
    split
    · exact poll_goTo_sound h he (by rw [hst]; rfl)
    · exact poll_reposition_sound h he rfl
  · simp only [microStep, holdStep, hst]
    split
    · exact poll_goTo_sound h he (by rw [hst]; rfl)
    · exact h
  · simp only [microStep, deliverPressStep, hst]
    exact deliver_sound h he _ _
  · exact deliver_sound h he _ _

/-! ## The micro-steps of every other operation -/

theorem microReady_of_done_or_onward {m : Micro} (h : m = .done ∨ m.onward = true) (st : InState) :
    microReady m st = true := by
  obtain rfl | h := h
  · rfl
  · cases m with
    | pins | e | wait | ce => rfl
    | _ => cases h

/-- A plain operation's micro-step that goes on is what `microStep_onward` says. -/
theorem plain_of_onward {m : Micro} (h : m.onward = true) : m.plain = true ∨ m = .ce .tickOn := by
  cases m with
  | ce op =>
    cases op with
    | tickOn => exact .inr rfl
    | enter | inited => exact .inl rfl
  | pins | e | wait => exact .inl rfl
  | _ => cases h

theorem effect_lcdE (m : Micro) (r : Regs) : (m.effect r).lcdE = match m with
    | .e x => x
    | _ => r.lcdE := by
  cases m with
  | ce op => cases op <;> rfl
  | _ => rfl

/-- A micro-step other than a `ce` writes nothing that a refusal looks at. -/
theorem wordRefusal_effect {m : Micro} (h : m.isCe = false) (w : Word) (r : Regs) :
    wordRefusal w (m.effect r) = wordRefusal w r := by
  cases m with
  | ce => cases h
  | _ => rfl

/-- After one more micro-step the contract is met still: the step is the operation's own write, or writes nothing that
the contract looks at. -/
theorem contractAt_succ {p : Params} {w : Word} {k : Nat} {m : Micro} {r : Regs} (h : contractAt p w k r)
    (htake : (stepsAt p w).take (k + 1) = (stepsAt p w).take k ++ [m]) : contractAt p w (k + 1) (m.effect r) := by
  unfold contractAt at *
  rw [htake, List.any_append]
  cases hce : m.isCe with
  | true => exact .inl (by simp [hce])
  | false =>
    rw [wordRefusal_effect hce]
    exact h.imp (fun h => by simp [h]) id

theorem onward_microStep_sound {s : State} (h : s.Sound) {w : Word} {k : Nat} {m : Micro}
    (hf : s.regs.fg = .busy w k) (hpoll : decode w ≠ .instr .poll) (hm : m.onward = true)
    (htake : (stepsAt s.params w).take (k + 1) = (stepsAt s.params w).take k ++ [m])
    (hnext : ∃ m', (stepsAt s.params w)[k + 1]? = some m' ∧ (m' = .done ∨ m'.onward = true)) (inp : EdgeIn) :
    (microStep m w k inp s).Sound := by
  obtain ⟨hp, hdata, hpos⟩ := (sound_iff s).mp h
  obtain ⟨he, hi, -, hc⟩ := (positionSound_busy hf hpoll).mp hpos
  obtain ⟨m', hm', hkind⟩ := hnext
  rw [microStep_onward (plain_of_onward hm)]
  refine (sound_iff _).mpr ⟨hp, (hdata.effect hm).setFg _, (positionSound_busy rfl hpoll).mpr
    ⟨?_, (effect_inState m s.regs).trans hi, ⟨m', hm', microReady_of_done_or_onward hkind _⟩, contractAt_succ hc htake⟩⟩
  rw [htake, strobeAfter_snoc, ← he]
  exact effect_lcdE m s.regs

theorem microStep_sound {s : State} (h : s.Sound) {w : Word} {k : Nat} {m : Micro} (hf : s.regs.fg = .busy w k)
    (hm : (stepsAt s.params w)[k]? = some m) (inp : EdgeIn) : (microStep m w k inp s).Sound := by
  obtain ⟨i, hd, hmi⟩ := exists_instr_of_stepsAt hm
  obtain rfl : encode i = w := encode_of_decode hd
  by_cases hi : i = .poll
  · subst hi
    exact poll_microStep_sound h hf hmi inp
  · have hpoll : decode (encode i) ≠ .instr .poll := by rw [decode_encode]; simpa using hi
    have hsteps := stepsAt_encode s.params i
    obtain ⟨L, hL, hon⟩ := stepsOf_shape s.params hi
    obtain ⟨rfl, htake⟩ | ⟨hm', htake, hnext⟩ := shape_next hL hon hmi
    · obtain ⟨-, -, hpos⟩ := (sound_iff s).mp h
      obtain ⟨he, hidle, -, -⟩ := (positionSound_busy hf hpoll).mp hpos
      obtain ⟨-, hlow⟩ := hon
      exact finish_sound h (by rw [he, hsteps, htake, hlow]) hidle _
    · rw [← hsteps] at htake hnext
      exact onward_microStep_sound h hf hpoll hm' htake hnext inp

/-! ## Edges and steps -/

theorem clockEdge_sound (s : State) (h : s.Sound) : (clockEdge s).Sound := by
  cases hr : (nextInput s).rst with
  | true => rw [clockEdge_rst hr]; exact resetRegs_sound h.params
  | false =>
    have hticked := ticked_sound h
    have hacts := clockEdge_acts hr
    generalize clockEdge s = t at hacts ⊢
    cases hacts with
    | accepts hf hv =>
      have hrefuse : wordRefusal (nextInput s).opWord s.regs = wordRefusal (nextInput s).opWord s.ticked.regs :=
        wordRefusal_congr _ (by simp) (by simp)
      rw [hrefuse]
      exact accept_sound hticked (by simp [hf]) _
    | waits => exact hticked
    | refuses w why hf hgo =>
      obtain ⟨-, -, hpos⟩ := (sound_iff _).mp hticked
      obtain ⟨he, hi, -⟩ := (positionSound_refusing (by simpa using hf)).mp hpos
      exact finish_sound hticked he hi _
    | micro w k m hf hm hgo => exact microStep_sound hticked (by simpa using hf) (by simpa using hm) _

/-- Settles O9: a sound state is at no lost position, so a step goes on, and every edge keeps the invariant. -/
theorem soundStatesStepToSoundStates : Obligations.SoundStatesStepToSoundStates := by
  unfold Obligations.SoundStatesStepToSoundStates
  intro s h
  have hstep := step_goes (s := s) (by simp [h.position])
  exact ⟨_, hstep, step_keeps clockEdge_sound h hstep⟩

/-! ## The display is never read (R120) -/

/-- One record is at most one transaction, with `rw` as the pins have it. -/
theorem transactionsFrom_rw {x : Wire} (hx : x.rw = false) {recs : List PinRec} (hlen : recs.length ≤ 1) :
    ∀ n ∈ transactionsFrom x recs, n.rw = false := by
  match recs with
  | [] => simp [transactionsFrom]
  | [r] =>
    simp only [transactionsFrom, List.append_nil]
    split <;> simp [hx]
  | _ :: _ :: _ => simp at hlen

theorem clockEdge_writes (s : State) (h : s.Sound ∧ ∀ x ∈ s.transactions, x.rw = false) :
    (clockEdge s).Sound ∧ ∀ x ∈ (clockEdge s).transactions, x.rw = false := by
  obtain ⟨hs, hw⟩ := h
  obtain ⟨⟨recs, htrace, hlen⟩, -⟩ := clockEdge_adds s
  refine ⟨clockEdge_sound s hs, ?_⟩
  rw [transactions_append htrace, ← hs.pins, List.forall_mem_append]
  exact ⟨hw, transactionsFrom_rw hs.writes hlen⟩

/-- Settles O37: every edge keeps the invariant and, with the pins' `rw` low, adds writes only. -/
theorem everyTransactionIsAWrite : Obligations.EveryTransactionIsAWrite := by
  unfold Obligations.EveryTransactionIsAWrite
  intro s t hs hw h
  obtain ⟨-, hall⟩ := step_keeps clockEdge_writes ⟨hs, hw⟩ h
  exact hall

/-! ## Phases (R210, R215) -/

/-- CFGENT's micro-step is its first, and a sound core takes it outside a wizard only. -/
theorem idle_of_enter {s : State} (h : s.Sound) {w : Word} {k : Nat} {t : Target} (hf : s.regs.fg = .busy w k)
    (hm : (stepsAt s.params w)[k]? = some (.ce (.enter t))) :
    decode w = .instr (.cfgent t) ∧ s.regs.cfgState = .idle := by
  have hd : decode w = .instr (.cfgent t) := decode_of_ce hm
  refine ⟨hd, ?_⟩
  obtain rfl : encode (.cfgent t) = w := encode_of_decode hd
  have hsteps : stepsAt s.params (encode (.cfgent t)) = [.ce (.enter t), .done] := stepsAt_encode s.params _
  have hk : k = 0 := by
    rw [hsteps] at hm
    match k with
    | 0 => rfl
    | 1 => simp at hm
    | k + 2 => simp at hm
  obtain ⟨-, -, hpos⟩ := (sound_iff s).mp h
  obtain ⟨-, -, -, hc⟩ := (positionSound_busy hf (by simp [decode_encode])).mp hpos
  subst hk
  rw [contractAt, List.take_zero, wordRefusal_encode] at hc
  obtain hidle | ⟨hbusy, hwhy⟩ := wizardRefusal_cases s.regs
  · exact hidle.1
  · simp [refusalOf, hwhy] at hc

/-- What an edge without reset can make of `cfg_state` in a sound state. -/
theorem EdgeRegs.phase {s : State} (hs : s.Sound) {q : Regs} (h : EdgeRegs s q) :
    q.cfgState = s.regs.cfgState ∨
    (s.regs.cfgState = .idle ∧ q.cfgState = .setHour ∧
      ∃ w k t, s.regs.fg = .busy w k ∧ decode w = .instr (.cfgent t) ∧ q.cfgTarget = t) ∨
    (q.cfgState = s.regs.cfgState.next ∧ q.ev = .confirm ∧ s.opDone = true ∧ s.currentMicro = some .deliverPress) := by
  cases h with
  | moves => exact .inl (by simp)
  | none => exact .inl (by simp [deliver_cfgState])
  | onward w k m hf hm =>
    obtain h | ⟨t, rfl, h⟩ := effect_cfgState m s.ticked.regs
    · exact .inl (by simpa using h)
    · obtain ⟨hd, hidle⟩ := idle_of_enter hs hf hm
      exact .inr (.inl ⟨hidle, rfl, w, k, t, hf, hd, rfl⟩)
  | press b hmicro hdone =>
    cases b with
    | increment => exact .inl (by simp [deliver_cfgState, eventOf])
    | confirm =>
      exact .inr (.inr ⟨by simp [deliver_cfgState, eventOf], deliver_ev _ _, hdone, hmicro⟩)

/-- Settles O40: `EdgeRegs.phase` at each of the four phases. -/
theorem phasesChangeOnlyByConfirm : Obligations.PhasesChangeOnlyByConfirm := by
  unfold Obligations.PhasesChangeOnlyByConfirm
  intro s hs hr hne
  obtain h | ⟨hidle, h, hfg⟩ | ⟨h, hev, hdone, hmicro⟩ := (clockEdge_regs hr).phase hs
  · exact absurd h hne
  · rw [hidle]
    exact ⟨h, hfg⟩
  · cases hph : s.regs.cfgState with
    | idle => rw [h, hph] at hne; exact absurd rfl hne
    | setHour | setMin | setMer => rw [hph] at h; exact ⟨h, hev, hdone, hmicro⟩

end Sys2Proof.Machine
end

section
/-! PROOFS. POLL, draw by draw (42_input_config.md R202 to R209): what a run from each of its positions comes to, as a
function of the edges at which the foreground engine takes its micro-steps. -/

namespace Sys2Proof.Machine

/-! ## Positions and records of POLL -/

/-- The registers at another position. -/
def Regs.atPosition (x : Fg) (st : InState) (r : Regs) : Regs := { r with fg := x, inState := st }

/-- POLL at its micro-step `k`, with the debounce machine at `st`. -/
def State.atPoll (k : Nat) (st : InState) (s : State) : State :=
  { s with regs := s.regs.atPosition (.busy (encode .poll) k) st }

/-- The state with more records of pins and waits. -/
def State.recorded (recs : List PinRec) (s : State) : State := { s with trace := s.trace ++ recs }

@[simp] theorem atPoll_inputs (k : Nat) (st : InState) (s : State) : (s.atPoll k st).inputs = s.inputs := rfl
@[simp] theorem recorded_inputs (recs : List PinRec) (s : State) : (s.recorded recs).inputs = s.inputs := rfl

theorem recorded_nil (s : State) : s.recorded [] = s := by simp [State.recorded]

theorem recorded_recorded (a b : List PinRec) (s : State) : (s.recorded a).recorded b = s.recorded (a ++ b) := by
  simp [State.recorded]

theorem atPoll_of_position {s : State} {k : Nat} {st : InState} (hf : s.regs.fg = .busy (encode .poll) k)
    (hst : s.regs.inState = st) : s.atPoll k st = s := by
  subst hst
  rw [State.atPoll, ← hf]
  rfl

theorem goTo_poll {s : State} {st : InState} (hst : s.regs.inState = st) (k : Nat) :
    s.goTo (encode .poll) k = s.atPoll k st := by
  subst hst; rfl

/-- Pulses may come before or after a position is taken up. -/
theorem stalled_atPoll (s : State) (k : Nat) (st : InState) (used : List EdgeIn) :
    (s.atPoll k st).stalled used = (s.stalled used).atPoll k st := by
  have hpulses (n : Nat) : (s.regs.atPosition (.busy (encode .poll) k) st).pulses s.params n =
      (s.regs.pulses s.params n).atPosition (.busy (encode .poll) k) st := by
    have h := pulses_setFg s.params n { s.regs with inState := st } (.busy (encode .poll) k)
    rw [pulses_setIn] at h
    exact h
  simp only [State.stalled, State.atPoll, hpulses]

theorem inch_atPosition (t : Target) (x : Fg) (st : InState) (r : Regs) :
    (r.atPosition x st).inch t = (r.inch t).atPosition x st := by
  cases t <;> rfl

theorem incm_atPosition (t : Target) (x : Fg) (st : InState) (r : Regs) :
    (r.atPosition x st).incm t = (r.incm t).atPosition x st := by
  cases t <;> rfl

theorem togm_atPosition (t : Target) (x : Fg) (st : InState) (r : Regs) :
    (r.atPosition x st).togm t = (r.togm t).atPosition x st := by
  cases t <;> rfl

theorem configure_atPosition (e : InputEvent) (x : Fg) (st : InState) (r : Regs) :
    (r.atPosition x st).configure e = (r.configure e).atPosition x st := by
  unfold Regs.configure
  have hph : (r.atPosition x st).cfgState = r.cfgState := rfl
  rw [hph]
  split
  · exact inch_atPosition _ x st r
  · rfl
  · exact incm_atPosition _ x st r
  · rfl
  · exact togm_atPosition _ x st r
  all_goals rfl

/-- A delivery does not look at the position, and leaves it. -/
theorem deliver_atPoll (s : State) (k : Nat) (st : InState) (w : Word) (e : InputEvent) :
    (s.atPoll k st).deliver w e = s.deliver w e := by
  have hregs : (s.regs.atPosition (.busy (encode .poll) k) st).deliver e = s.regs.deliver e := by
    rw [deliver_eq, configure_atPosition, deliver_eq]
    rfl
  simp only [State.deliver, State.atPoll, hregs]

/-! ## What a run of POLL comes to -/

/-- What the edges `l` make of a POLL in progress in `s`. As a function of the edges at which it takes its micro-steps,
`event` is the event delivered once there are enough of them, and `recs` what is recorded. -/
structure PollRun (s : State) (l : List EdgeIn) (event : List EdgeIn → Option InputEvent)
    (recs : List EdgeIn → List PinRec) : Prop where
  /-- it delivers the event at the first edge at which there is one -/
  ends : ∀ e, event (goEdges l) = some e → ∃ used rest, l = used ++ rest ∧ event (goEdges used) = some e ∧
    (∀ n, n < (goEdges used).length → event ((goEdges used).take n) = none) ∧
    settleOn l s = ((s.recorded (recs (goEdges l))).stalled used).deliver (encode .poll) e
  /-- it is in progress still -/
  waits : event (goEdges l) = none →
    ∃ k st, settleOn l s = ((s.recorded (recs (goEdges l))).stalled l).atPoll k st

/-- A stretch of edges, a record and a new position before a run that delivers. -/
theorem deliver_after_move (s : State) (u v : List EdgeIn) (r r' : List PinRec) (k : Nat) (st : InState)
    (e : InputEvent) :
    (((((s.stalled u).recorded r).atPoll k st).recorded r').stalled v).deliver (encode .poll) e =
      ((s.recorded (r ++ r')).stalled (u ++ v)).deliver (encode .poll) e := by
  have hrec : (((s.stalled u).recorded r).atPoll k st).recorded r' =
      (((s.stalled u).recorded r).recorded r').atPoll k st := rfl
  have hstall : ((s.stalled u).recorded (r ++ r')).stalled v = ((s.stalled u).stalled v).recorded (r ++ r') := rfl
  rw [hrec, stalled_atPoll, deliver_atPoll, recorded_recorded, hstall, stalled_stalled]
  rfl

/-- The same before a run that does not. -/
theorem wait_after_move (s : State) (u v : List EdgeIn) (r r' : List PinRec) (k j : Nat) (st st' : InState) :
    (((((s.stalled u).recorded r).atPoll k st).recorded r').stalled v).atPoll j st' =
      ((s.recorded (r ++ r')).stalled (u ++ v)).atPoll j st' := by
  have hrec : (((s.stalled u).recorded r).atPoll k st).recorded r' =
      (((s.stalled u).recorded r).recorded r').atPoll k st := rfl
  have hstall : ((s.stalled u).recorded (r ++ r')).stalled v = ((s.stalled u).stalled v).recorded (r ++ r') := rfl
  have htwice (q : State) : (q.atPoll k st).atPoll j st' = q.atPoll j st' := rfl
  rw [hrec, stalled_atPoll, htwice, recorded_recorded, hstall, stalled_stalled]
  rfl

/-- A micro-step that moves on, and the run from where it moves to. -/
theorem PollRun.move {s : State} {stall rest : List EdgeIn} {x : EdgeIn} {k : Nat} {st : InState} {r : List PinRec}
    {event event' : List EdgeIn → Option InputEvent} {recs recs' : List EdgeIn → List PinRec}
    (hstall : ∀ y ∈ stall, y.fgGo = false) (hx : x.fgGo = true)
    (hsettle : settleOn (stall ++ x :: rest) s =
      settleOn rest (((s.stalled (stall ++ [x])).recorded r).atPoll k st))
    (hnone : event [] = none) (hevent : ∀ ds, event (x :: ds) = event' ds)
    (hrecs : ∀ ds, recs (x :: ds) = r ++ recs' ds)
    (h : PollRun (((s.stalled (stall ++ [x])).recorded r).atPoll k st) rest event' recs') :
    PollRun s (stall ++ x :: rest) event recs := by
  have hgo (l : List EdgeIn) : goEdges (stall ++ x :: l) = x :: goEdges l := goEdges_split l hstall hx
  constructor
  · intro e he
    rw [hgo, hevent] at he
    obtain ⟨used, rest', rfl, hused, hfirst, hrun⟩ := h.ends e he
    refine ⟨stall ++ x :: used, rest', by simp, by rw [hgo, hevent, hused], ?_, ?_⟩
    · intro n hn
      rw [hgo] at hn ⊢
      match n with
      | 0 => exact hnone
      | n + 1 => rw [List.take_succ_cons, hevent]; exact hfirst n (by simpa using hn)
    · rw [hsettle, hrun, hgo, hrecs, deliver_after_move, List.append_assoc, List.singleton_append]
  · intro he
    rw [hgo, hevent] at he
    obtain ⟨j, st', hrun⟩ := h.waits he
    exact ⟨j, st', by rw [hsettle, hrun, hgo, hrecs, wait_after_move, List.append_assoc, List.singleton_append]⟩

/-- With no micro-step in the list POLL stays where it is. -/
theorem PollRun.stays {s : State} {l : List EdgeIn} {k : Nat} {event : List EdgeIn → Option InputEvent}
    {recs : List EdgeIn → List PinRec} (hl : s.inputs = l) (hf : s.regs.fg = .busy (encode .poll) k)
    (hrst : ∀ y ∈ l, y.rst = false) (hgo : goEdges l = []) (hnone : event [] = none) (hrecs : recs [] = []) :
    PollRun s l event recs := by
  have hstall : ∀ y ∈ l, y.fgGo = false := by simpa [goEdges] using hgo
  constructor
  · intro e he
    rw [hgo, hnone] at he
    cases he
  · intro _
    refine ⟨k, s.regs.inState, ?_⟩
    rw [hgo, hrecs, recorded_nil, settleOn_noGo l s hl hrst hstall (by simp [hf])]
    exact (atPoll_of_position (by simpa using hf) (by simp)).symm

/-- A run of POLL is what its first micro-step makes of it, or has none. -/
theorem PollRun.of_first {s : State} {l : List EdgeIn} {k : Nat} {m : Micro} {event : List EdgeIn → Option InputEvent}
    {recs : List EdgeIn → List PinRec} (hl : s.inputs = l) (hf : s.regs.fg = .busy (encode .poll) k)
    (hm : pollSteps[k]? = some m) (hrst : ∀ y ∈ l, y.rst = false) (hnone : event [] = none) (hrecs : recs [] = [])
    (h : ∀ stall x rest, l = stall ++ x :: rest → (∀ y ∈ stall, y.fgGo = false) → x.fgGo = true →
      settleOn l s = settleOn rest (microStep m (encode .poll) k x (s.stalled (stall ++ [x]))) →
      PollRun s l event recs) : PollRun s l event recs := by
  have hsteps : (stepsAt s.params (encode .poll))[k]? = some m := by rw [stepsAt_encode]; exact hm
  obtain hzero | hpos : l.countP (fun y => y.fgGo) = 0 ∨ 1 ≤ l.countP (fun y => y.fgGo) := by omega
  · refine .stays hl hf hrst ?_ hnone hrecs
    exact List.filter_eq_nil_iff.mpr (List.countP_eq_zero.mp hzero)
  · obtain ⟨stall, x, rest, hsplit, hstall, hx, -, hsettle⟩ := settleOn_takes hl hf hsteps hrst hpos
    exact h stall x rest hsplit hstall hx hsettle

/-! ## The two deliveries -/

/-- The event `e`, as soon as there is one more micro-step. -/
def deliverEvent (e : InputEvent) (ds : List EdgeIn) : Option InputEvent := if ds = [] then none else some e

/-- Nothing is recorded. -/
def noRecs (_ : List EdgeIn) : List PinRec := []

/-- A position whose micro-step delivers `e`. -/
theorem pollRun_deliver {s : State} {l : List EdgeIn} {k : Nat} {m : Micro} {e : InputEvent} (hl : s.inputs = l)
    (hf : s.regs.fg = .busy (encode .poll) k) (hm : pollSteps[k]? = some m) (hrst : ∀ y ∈ l, y.rst = false)
    (hdeliver : ∀ x used, microStep m (encode .poll) k x (s.stalled used) = (s.stalled used).deliver (encode .poll) e) :
    PollRun s l (deliverEvent e) noRecs := by
  refine .of_first hl hf hm hrst rfl rfl fun stall x rest hsplit hstall hx hsettle => ?_
  have hgo (l : List EdgeIn) : goEdges (stall ++ x :: l) = x :: goEdges l := goEdges_split l hstall hx
  constructor
  · intro e' he
    obtain rfl : e = e' := by
      rw [hsplit, hgo] at he
      exact Option.some.inj he
    refine ⟨stall ++ [x], rest, by simp [hsplit], by rw [hgo]; rfl, ?_, ?_⟩
    · intro n hn
      obtain rfl : n = 0 := by rw [hgo] at hn; exact Nat.lt_one_iff.mp hn
      rfl
    · rw [hsettle, hdeliver, settleOn_idle rest rfl, noRecs, recorded_nil]
  · intro he
    rw [hsplit, hgo] at he
    cases he

/-- From step 5's NONE. -/
theorem pollRun_none {s : State} {l : List EdgeIn} (hl : s.inputs = l)
    (hf : s.regs.fg = .busy (encode .poll) pollNoneAt) (hrst : ∀ y ∈ l, y.rst = false) : PollRun s l (deliverEvent .none) noRecs :=
  pollRun_deliver hl hf rfl hrst fun _ _ => rfl

/-- From step 5, after a press and a release of `b`. -/
theorem pollRun_press {s : State} {l : List EdgeIn} {b : Button} (hl : s.inputs = l)
    (hf : s.regs.fg = .busy (encode .poll) pollPressAt) (hst : s.regs.inState = .hold b)
    (hrst : ∀ y ∈ l, y.rst = false) : PollRun s l (deliverEvent (eventOf b)) noRecs := by
  refine pollRun_deliver hl hf rfl hrst fun x used => ?_
  simp only [microStep, deliverPressStep, stalled_regs, pulses_inState, hst]

/-! ## The release wait (R206) -/

theorem holdStep_high {b : Button} {s : State} (hst : s.regs.inState = .hold b) {x : EdgeIn} (hx : level b x = true)
    (k : Nat) : microStep .hold (encode .poll) k x s = (s.recorded []).atPoll pollPressAt (.hold b) := by
  rw [recorded_nil, ← goTo_poll hst]
  simp [microStep, holdStep, hst, hx]

theorem holdStep_low {b : Button} {s : State} (hst : s.regs.inState = .hold b) {x : EdgeIn} (hx : level b x = false)
    (w : Word) (k : Nat) : microStep .hold w k x s = s := by
  simp [microStep, holdStep, hst, hx]

/-- From step 4, by the number of edges to come. -/
theorem pollRun_hold (b : Button) (n : Nat) : ∀ (l : List EdgeIn) (s : State), l.length ≤ n → s.inputs = l →
    s.regs.fg = .busy (encode .poll) pollHoldAt → s.regs.inState = .hold b → (∀ y ∈ l, y.rst = false) →
    PollRun s l (heldEvent b) noRecs := by
  induction n with
  | zero =>
    intro l s hlen hl hf hst hrst
    obtain rfl : l = [] := List.length_eq_zero_iff.mp (by omega)
    exact .stays hl hf hrst rfl rfl rfl
  | succ n ih =>
    intro l s hlen hl hf hst hrst
    refine .of_first (m := .hold) hl hf rfl hrst rfl rfl fun stall x rest hsplit hstall hx hsettle => ?_
    subst hsplit
    have hst' : (s.stalled (stall ++ [x])).regs.inState = .hold b := by simp [hst]
    have hrest : ∀ y ∈ rest, y.rst = false := fun y hy => hrst y (by simp [hy])
    cases hlevel : level b x with
    | true =>
      rw [holdStep_high hst' hlevel] at hsettle
      refine .move hstall hx hsettle rfl (fun ds => ?_) (fun _ => rfl)
        (pollRun_press (b := b) (by simp [hl]) rfl rfl hrest)
      rw [heldEvent, if_pos hlevel, deliverEvent]
    | false =>
      have hpos : s.stalled (stall ++ [x]) = ((s.stalled (stall ++ [x])).recorded []).atPoll pollHoldAt (.hold b) := by
        rw [recorded_nil, atPoll_of_position (by simpa using hf) hst']
      rw [holdStep_low hst' hlevel, hpos] at hsettle
      refine .move hstall hx hsettle rfl (fun ds => ?_) (fun _ => rfl)
        (ih rest _ (by simp at hlen; omega) (by simp [hl]) rfl rfl hrest)
      rw [heldEvent, if_neg (by simp [hlevel])]

/-! ## The settle wait and the second sample (R202) -/

/-- What step 3 makes of the draws from there on. -/
def resampledEvent (b : Button) : List EdgeIn → Option InputEvent
  | [] => none
  | x :: rest => if level b x then deliverEvent .none rest else heldEvent b rest

theorem pressedEvent_cons (b : Button) (x : EdgeIn) (ds : List EdgeIn) :
    pressedEvent b (x :: ds) = resampledEvent b ds := by
  cases ds <;> rfl

theorem resampleStep_high {b : Button} {s : State} (hst : s.regs.inState = .resample b) {x : EdgeIn}
    (hx : level b x = true) (k : Nat) :
    microStep .resample (encode .poll) k x s = (s.recorded []).atPoll pollNoneAt (.resample b) := by
  rw [recorded_nil, ← goTo_poll hst]
  simp [microStep, resampleStep, hst, hx]

theorem resampleStep_low {b : Button} {s : State} (hst : s.regs.inState = .resample b) {x : EdgeIn}
    (hx : level b x = false) (k : Nat) :
    microStep .resample (encode .poll) k x s = (s.recorded []).atPoll pollHoldAt (.hold b) := by
  rw [recorded_nil]
  simp [microStep, resampleStep, hst, hx]
  rfl

/-- From step 3. -/
theorem pollRun_resample {s : State} {l : List EdgeIn} {b : Button} (hl : s.inputs = l)
    (hf : s.regs.fg = .busy (encode .poll) 2) (hst : s.regs.inState = .resample b)
    (hrst : ∀ y ∈ l, y.rst = false) : PollRun s l (resampledEvent b) noRecs := by
  refine .of_first (m := .resample) hl hf rfl hrst rfl rfl fun stall x rest hsplit hstall hx hsettle => ?_
  subst hsplit
  have hst' : (s.stalled (stall ++ [x])).regs.inState = .resample b := by simp [hst]
  have hrest : ∀ y ∈ rest, y.rst = false := fun y hy => hrst y (by simp [hy])
  cases hlevel : level b x with
  | true =>
    rw [resampleStep_high hst' hlevel] at hsettle
    refine .move hstall hx hsettle rfl (fun ds => ?_) (fun _ => rfl)
      (pollRun_none (by simp [hl]) rfl hrest)
    rw [resampledEvent, if_pos hlevel]
  | false =>
    rw [resampleStep_low hst' hlevel] at hsettle
    refine .move hstall hx hsettle rfl (fun ds => ?_) (fun _ => rfl)
      (pollRun_hold b rest.length rest _ (le_refl _) (by simp [hl]) rfl rfl hrest)
    rw [resampledEvent, if_neg (by simp [hlevel])]

/-- The settle wait is recorded at the first micro-step. -/
def settleRecs (p : Params) (ds : List EdgeIn) : List PinRec := if ds = [] then [] else [.wait .deb p.tDeb]

theorem debounceStep_settle {b : Button} {s : State} (hst : s.regs.inState = .settle b) (k : Nat) (x : EdgeIn) :
    microStep .debounce (encode .poll) k x s =
      (s.recorded [.wait .deb s.params.tDeb]).atPoll 2 (.resample b) := by
  simp only [microStep, debounceStep, hst]
  rfl

/-- From step 2. -/
theorem pollRun_debounce {s : State} {l : List EdgeIn} {b : Button} (hl : s.inputs = l)
    (hf : s.regs.fg = .busy (encode .poll) 1) (hst : s.regs.inState = .settle b)
    (hrst : ∀ y ∈ l, y.rst = false) : PollRun s l (pressedEvent b) (settleRecs s.params) := by
  refine .of_first (m := .debounce) hl hf rfl hrst rfl rfl fun stall x rest hsplit hstall hx hsettle => ?_
  subst hsplit
  have hst' : (s.stalled (stall ++ [x])).regs.inState = .settle b := by simp [hst]
  rw [debounceStep_settle hst'] at hsettle
  exact .move hstall hx hsettle rfl (pressedEvent_cons b x) (fun _ => rfl)
    (pollRun_resample (by simp [hl]) rfl rfl (fun y hy => hrst y (by simp [hy])))

/-! ## The first sample (R202, R203) -/

/-- The settle wait of a whole POLL. -/
def pollRecs (p : Params) (ds : List EdgeIn) : List PinRec := if pollWaits ds then [.wait .deb p.tDeb] else []

theorem pollRecs_cons (p : Params) (x : EdgeIn) (ds : List EdgeIn) :
    pollRecs p (x :: ds) = if x.btnConfirmN = true ∧ x.btnIncrementN = true then [] else settleRecs p ds := by
  cases ds with
  | nil => simp [pollRecs, pollWaits, settleRecs]
  | cons y ds =>
    cases hc : x.btnConfirmN <;> cases hi : x.btnIncrementN <;> simp [pollRecs, pollWaits, settleRecs, hc, hi]

/-- From step 1: the whole operation. -/
theorem pollRun_sample {s : State} {l : List EdgeIn} (hl : s.inputs = l) (hf : s.regs.fg = .busy (encode .poll) 0)
    (hrst : ∀ y ∈ l, y.rst = false) : PollRun s l pollEvent (pollRecs s.params) := by
  refine .of_first (m := .sample) hl hf rfl hrst rfl rfl fun stall x rest hsplit hstall hx hsettle => ?_
  subst hsplit
  have hrest : ∀ y ∈ rest, y.rst = false := fun y hy => hrst y (by simp [hy])
  have hpress (b : Button) : PollRun (((s.stalled (stall ++ [x])).recorded []).atPoll 1 (.settle b)) rest
      (pressedEvent b) (settleRecs s.params) := pollRun_debounce (by simp [hl]) rfl rfl hrest
  simp only [microStep, sampleStep] at hsettle
  by_cases hc : x.btnConfirmN = false
  · rw [if_pos hc, ← recorded_nil (s.stalled _)] at hsettle
    exact .move hstall hx hsettle rfl (fun ds => by simp [pollEvent, hc]) (fun ds => by simp [pollRecs_cons, hc])
      (hpress .confirm)
  · by_cases hi : x.btnIncrementN = false
    · rw [if_neg hc, if_pos hi, ← recorded_nil (s.stalled _)] at hsettle
      exact .move hstall hx hsettle rfl (fun ds => by simp [pollEvent, hc, hi])
        (fun ds => by simp [pollRecs_cons, hi]) (hpress .increment)
    · rw [if_neg hc, if_neg hi, goTo_poll rfl, ← recorded_nil (s.stalled _)] at hsettle
      exact .move hstall hx hsettle rfl (fun ds => by simp [pollEvent, hc, hi, deliverEvent])
        (fun ds => by simp [pollRecs_cons, hc, hi, noRecs])
        (pollRun_none (by simp [hl]) rfl hrest)

/-! ## A presented POLL -/

/-- The waits recorded are no transactions. -/
theorem transactions_pollRecs (s : State) (ds : List EdgeIn) :
    transactionsFrom (Wire.low.afterAll s.trace) (pollRecs s.params ds) = [] := by
  unfold pollRecs
  split
  · rw [transactionsFrom_wait, transactionsFrom_nil]
  · rfl

theorem ranTo_deliver {s : State} {used rest : List EdgeIn} {recs : List PinRec} (hl : s.inputs = used ++ rest)
    (hrecs : transactionsFrom (Wire.low.afterAll s.trace) recs = []) (e : InputEvent) :
    s.ranTo (((s.recorded recs).stalled used).deliver (encode .poll) e) used
      ((s.regs.pulses s.params (ticksIn used)).deliver e) recs [] [.completed (encode .poll)] :=
  ⟨by simp [hl], rfl, rfl, rfl, rfl, by rw [transactions_append (recs := recs) rfl, hrecs], rfl⟩

theorem ranTo_atPoll {s : State} {used rest : List EdgeIn} {recs : List PinRec} (hl : s.inputs = used ++ rest)
    (hrecs : transactionsFrom (Wire.low.afterAll s.trace) recs = []) (k : Nat) (st : InState) :
    s.ranTo (((s.recorded recs).stalled used).atPoll k st) used
      { s.regs.pulses s.params (ticksIn used) with fg := .busy (encode .poll) k, inState := st } recs [] [] :=
  ⟨by simp [hl], rfl, rfl, rfl, rfl,
    by rw [transactions_append (recs := recs) rfl, hrecs], (List.append_nil _).symm⟩

/-- An accepted POLL is a POLL at its first micro-step. -/
theorem accept_poll (s : State) (a : EdgeIn) :
    (s.stalled [a]).accept (encode .poll) none = ((s.stalled [a]).recorded []).atPoll 0 s.regs.inState := by
  rw [recorded_nil]
  exact goTo_poll (by simp) 0

section
variable {s : State} {a : EdgeIn} {l : List EdgeIn} (hl : s.inputs = a :: l) (hrst : ∀ y ∈ s.inputs, y.rst = false)
include hl hrst

theorem exec_poll (hf : s.regs.fg = .idle) : exec .poll s =
    .next (settleOn l (((s.stalled [a]).recorded []).atPoll 0 s.regs.inState)) := by
  rw [exec_accepted rfl hf hl (hrst a (by simp [hl])), accept_poll]

theorem pollRun_accepted :
    PollRun (((s.stalled [a]).recorded []).atPoll 0 s.regs.inState) l pollEvent (pollRecs s.params) :=
  pollRun_sample (by simp [hl]) rfl fun y hy => hrst y (by simp [hl, hy])

/-- A POLL whose draws give an event delivers it at the first edge at which they do. -/
theorem exec_poll_delivers (hf : s.regs.fg = .idle) {e : InputEvent} (he : pollEvent (goEdges l) = some e) :
    ∃ t used rest, exec .poll s = .next t ∧ l = used ++ rest ∧ pollEvent (goEdges used) = some e ∧
      (∀ n, n < (goEdges used).length → pollEvent ((goEdges used).take n) = none) ∧
      s.ranTo t (a :: used) ((s.regs.pulses s.params (ticksIn (a :: used))).deliver e)
        (pollRecs s.params (goEdges l)) [] [.completed (encode .poll)] := by
  obtain ⟨used, rest, hsplit, hused, hfirst, hrun⟩ := (pollRun_accepted hl hrst).ends e he
  rw [deliver_after_move, List.nil_append, List.singleton_append] at hrun
  exact ⟨_, used, rest, exec_poll hl hrst hf, hsplit, hused, hfirst,
    hrun ▸ ranTo_deliver (rest := rest) (by rw [hl, hsplit, List.cons_append]) (transactions_pollRecs s _) e⟩

end

/-- Settles O30: `pollRun_sample` from the acceptance edge on. -/
theorem pollDeliversTheDebouncedEvent : Obligations.PollDeliversTheDebouncedEvent := by
  unfold Obligations.PollDeliversTheDebouncedEvent
  intro s hf hne hrst
  obtain ⟨a, l, hl⟩ := List.exists_cons_of_ne_nil hne
  have htail : s.inputs.tail = l := by rw [hl, List.tail_cons]
  rw [htail]
  refine ⟨fun e he => ?delivers, fun he => ?waits⟩
  case delivers =>
    obtain ⟨t, used, rest, ht, -, hused, -, hran⟩ := exec_poll_delivers hl hrst hf he
    exact ⟨t, a :: used, ht, hused, hran⟩
  case waits =>
    obtain ⟨k, st, hrun⟩ := (pollRun_accepted hl hrst).waits he
    rw [wait_after_move, List.nil_append, List.singleton_append, ← hl] at hrun
    exact ⟨_, k, st, exec_poll hl hrst hf,
      hrun ▸ ranTo_atPoll (rest := []) (List.append_nil _).symm (transactions_pollRecs s _) k st⟩

/-! ## Nothing pressed (R203) -/

theorem deliver_none_idle {r : Regs} (h : r.fg = .idle) :
    r.deliver .none = { r with ev := .none, inState := .idle } := by
  rw [deliver_eq, configure_none]
  exact setFg_self (r := { r with ev := .none, inState := .idle }) h

/-- The draws that a POLL uses which finds both lines high: the sample and one more. -/
theorem length_of_bothHigh {a : EdgeIn} {ds unused more : List EdgeIn} (hc : a.btnConfirmN = true)
    (hi : a.btnIncrementN = true) (hds : ds ++ unused = a :: more) (he : pollEvent ds = some .none)
    (hfirst : ∀ n, n < ds.length → pollEvent (ds.take n) = none) : ds.length = 2 := by
  match ds with
  | [] => cases he
  | [x] =>
    obtain rfl : x = a := List.head_eq_of_cons_eq hds
    simp [pollEvent, hc, hi] at he
  | [_, _] => rfl
  | x :: y :: z :: ds =>
    obtain rfl : x = a := List.head_eq_of_cons_eq hds
    have := hfirst 2 (by simp)
    simp [pollEvent, hc, hi] at this

/-- Settles O31: both lines high at the first draw give NONE at the second, with no wait. -/
theorem pollWithNothingPressedIsImmediate : Obligations.PollWithNothingPressedIsImmediate := by
  unfold Obligations.PollWithNothingPressedIsImmediate
  intro s x more hg hdraws hc hi
  obtain ⟨a, l, hl, -, -, -, hcount⟩ := givesSteps_cons hg
  obtain ⟨hf, -, hrst, -⟩ := hg
  rw [hl, List.tail_cons] at hdraws
  have hmore : more ≠ [] := by
    rintro rfl
    rw [List.countP_eq_length_filter] at hcount
    rw [goEdges] at hdraws
    simp [hdraws] at hcount
  obtain ⟨t, used, rest, ht, hsplit, hused, hfirst, hran⟩ := exec_poll_delivers (e := .none) hl hrst hf
    (by rw [hdraws]; simp [pollEvent, hc, hi, hmore])
  have hused_draws : goEdges used ++ goEdges rest = x :: more := by rw [← hdraws, hsplit]; simp [goEdges]
  refine ⟨t, ht, a :: used, length_of_bothHigh hc hi hused_draws hused hfirst, ?_⟩
  rw [deliver_none_idle (by rw [pulses_fg, hf]), hdraws, pollRecs_cons, if_pos ⟨hc, hi⟩] at hran
  exact hran

/-! ## A held button (R206) -/

/-- With every draw of the button low, only the tick agent acts. -/
theorem settleOn_held (b : Button) (l : List EdgeIn) (s : State) (hl : s.inputs = l)
    (hf : s.regs.fg = .busy (encode .poll) pollHoldAt) (hst : s.regs.inState = .hold b)
    (hrst : ∀ y ∈ l, y.rst = false) (hlow : ∀ y ∈ goEdges l, level b y = false) : settleOn l s = s.stalled l := by
  induction l generalizing s with
  | nil => exact (stalled_nil s).symm
  | cons x l ih =>
    have hn := nextInput_cons hl
    have hedge : foreground x (s.stalled [x]) = s.stalled [x] := by
      cases hgo : x.fgGo with
      | false => exact foreground_stall hgo _
      | true =>
        rw [foreground_busy hgo (m := .hold) (by simpa using hf) (by rw [stepsAt_encode]; rfl)]
        exact holdStep_low (by simpa using hst) (hlow x (by simp [goEdges, hgo])) _ _
    have hlow' : ∀ y ∈ goEdges l, level b y = false := fun y hy => hlow y (by
      simp only [goEdges, List.mem_filter, List.mem_cons] at hy ⊢
      exact ⟨.inr hy.1, hy.2⟩)
    rw [settleOn_cons x l (by simp [hf]), runEdge_noRst (by rw [hn]; exact hrst x (by simp)), hn,
      consume_tickPart hl, hedge, ih (s.stalled [x]) (by simp [hl]) (by simpa using hf) (by simpa using hst)
        (fun y hy => hrst y (by simp [hy])) hlow', stalled_stalled, List.singleton_append]

theorem heldEvent_eq {b : Button} {ds : List EdgeIn} {e : InputEvent} (h : heldEvent b ds = some e) :
    e = eventOf b := by
  induction ds with
  | nil => cases h
  | cons x ds ih =>
    rw [heldEvent] at h
    split at h
    · split at h
      · cases h
      · exact (Option.some.inj h).symm
    · exact ih h

/-- A step of a busy core that is not lost runs on its listed edges. -/
theorem step_busy {s : State} (hf : s.regs.fg ≠ .idle) (hlost : s.lost = false) (hne : s.inputs ≠ []) :
    step s = .next (settleOn s.inputs s) := by
  obtain ⟨x, l, hl⟩ := List.exists_cons_of_ne_nil hne
  obtain ⟨hin, -, -⟩ := runEdge_frame s
  rw [step_goes (by simp [hlost]), runEdge_clockEdge (by simp [hf]), settle, hin, hl, List.tail_cons,
    settleOn_cons x l hf]

/-- Settles O32: while the draws are low nothing moves, and `pollRun_hold` says what a high one brings. -/
theorem heldButtonBlocksUntilRelease : Obligations.HeldButtonBlocksUntilRelease := by
  unfold Obligations.HeldButtonBlocksUntilRelease
  intro s b hf hst hne hrst
  have hlost : s.lost = false := by
    rw [lost_busy (m := .hold) hf (by rw [stepsAt_encode]; rfl), hst]; rfl
  have hstep := step_busy (by simp [hf]) hlost hne
  refine ⟨fun hlow => ?held, fun e he => ?released⟩
  case held =>
    rw [settleOn_held b _ s rfl hf hst hrst hlow] at hstep
    exact ⟨_, hstep, by simp, rfl, rfl, rfl, by simp, by simp [State.transactions], by simp⟩
  case released =>
    obtain ⟨used, rest, hsplit, -, -, hrun⟩ := (pollRun_hold b _ _ s (le_refl _) rfl hf hst hrst).ends e he
    exact ⟨heldEvent_eq he, _, used, hstep, hrun ▸ ranTo_deliver hsplit rfl e⟩

end Sys2Proof.Machine
end
